-- ==== Sys2Proof/Word.lean ====
section
/-! DEFINITION. The words of the machine: data words and addresses are 16 bits (00_scope R7), the
data space is byte addressed (20_memory R61), sixteen W registers are selected by 4-bit fields
(10_state R20), instruction words are 24 bits (30_encoding R108). -/

namespace Sys2Proof

/-- A 16-bit data word or data-space address (00_scope R7, 20_memory R61). -/
abbrev Word := BitVec 16

/-- A byte of data memory (20_memory R66). -/
abbrev Byte := BitVec 8

/-- A 24-bit instruction word (30_encoding R108). -/
abbrev InsnWord := BitVec 24

/-- The number of a W register, W0 to W15 (10_state R20). -/
abbrev Reg := Fin 16

end Sys2Proof
end

