-- ==== Sys2Proof/Syntax.lean ====
section
/-! DEFINITION. The instructions: one constructor of `Instr` per row of spec/opcode_table.json, with
the operand forms of 30_encoding R103 and R108. -/

namespace Sys2Proof

/-- Operand size: word (2 bytes) or byte (1 byte) (00_scope R11). -/
inductive Size where
  | word
  | byte
  deriving DecidableEq, Repr

/-- The bracketed addressing modes that name one register and no literal (41_addressing_modes R143 to
R147): `[Wn]`, `[Wn--]`, `[Wn++]`, `[--Wn]`, `[++Wn]`. -/
inductive PtrMode where
  | ind
  | postDec
  | postInc
  | preDec
  | preInc
  deriving DecidableEq, Repr

/-- An operand of `MOV Ws, Wd` (44_named_instructions R213): a register, a pointer in one of the five
one-register modes, or register indexed `[Wn + Wb]` with pointer `n` (the first register) and index
`b` (41_addressing_modes R148). -/
inductive Operand where
  | reg (n : Reg)
  | ptr (m : PtrMode) (n : Reg)
  | idx (n b : Reg)
  deriving DecidableEq, Repr

/-- Which accumulator MAC targets: the `A` bit of its encoding (30_encoding R108, 10_state R23). -/
inductive Acc where
  | a
  | b
  deriving DecidableEq, Repr

/-- The instruction set, one constructor per row of spec/opcode_table.json, in the table's order. -/
inductive Instr where
  /-- `MOV #lit16, Wnd` (R210). -/
  | movLit (lit : Word) (d : Reg)
  /-- `MOV f, Wnd` (R212). -/
  | movLoad (f : Word) (d : Reg)
  /-- `MOV Wns, f` (R211). -/
  | movStore (s : Reg) (f : Word)
  /-- `MOV Ws, Wd` and `MOV.B Ws, Wd` (R213). -/
  | mov (size : Size) (src dst : Operand)
  /-- `MOV [Ws + lit10], Wnd` (R214); `k` is the signed byte offset (41_addressing_modes R149). -/
  | movLoadOff (size : Size) (s : Reg) (k : Int) (d : Reg)
  /-- `MOV Wns, [Wd + lit10]` (R214); `k` is the signed byte offset. -/
  | movStoreOff (size : Size) (s d : Reg) (k : Int)
  /-- `NOP` (R215). -/
  | nop
  /-- `REPEAT #lit14` (R216). -/
  | repeatLit (lit : BitVec 14)
  /-- `POP f` (R217). -/
  | pop (f : Word)
  /-- `RETURN` (R218). -/
  | ret
  /-- `RETFIE` (R219). -/
  | retfie
  /-- `RETLW #lit10, Wn` (R220). -/
  | retlw (size : Size) (lit : BitVec 10) (d : Reg)
  /-- `ULNK` (R221). -/
  | ulnk
  /-- `MAC` (R222): multiplicand pair, accumulator, prefetch destinations, X and Y prefetch
  operations, write back, as the fields m, A, x, y, i, j, a of 30_encoding R108. -/
  | mac (m : BitVec 3) (acc : Acc) (x y : BitVec 2) (i j : BitVec 4) (wb : BitVec 2)
  deriving DecidableEq, Repr

end Sys2Proof
end

