-- ==== Sys2Proof/WellFormed.lean ====
section
/-! DEFINITION. Which instructions have an encoding: the checks of 30_encoding R108 and R109. -/

namespace Sys2Proof

/-- A data address of the direct forms is even: the field holds bits 15:1 (30_encoding R109). -/
def evenAddress (f : Word) : Bool := !f.getLsbD 0

/-- A literal offset fits the signed 10-bit field, which holds the byte offset in byte mode and half
of an even byte offset in word mode (30_encoding R109). -/
def offsetFits (size : Size) (k : Int) : Bool :=
  match size with
  | .byte => decide (-512 ≤ k ∧ k ≤ 511)
  | .word => decide (-1024 ≤ k ∧ k ≤ 1022 ∧ k % 2 = 0)

/-- The encoding has one field for the offset register Wb, so two indexed operands share it
(30_encoding R108, row 4). -/
def sharedOffset (src dst : Operand) : Bool :=
  match src, dst with
  | .idx _ b, .idx _ b' => decide (b = b')
  | _, _ => true

/-- The instruction has an encoding. -/
def Instr.wellFormed (i : Instr) : Bool :=
  match i with
  | .movLit _ _ => true
  | .movLoad f _ => evenAddress f
  | .movStore _ f => evenAddress f
  | .mov _ src dst => sharedOffset src dst
  | .movLoadOff size _ k _ => offsetFits size k
  | .movStoreOff size _ _ k => offsetFits size k
  | .nop => true
  | .repeatLit _ => true
  | .pop f => evenAddress f
  | .ret => true
  | .retfie => true
  | .retlw _ _ _ => true
  | .ulnk => true
  | .mac _ _ _ _ _ _ _ => true

end Sys2Proof
end

