-- ==== Sys2Proof/Decode.lean ====
section
/-! DEFINITION. The decoder and the encoder, from the table of 30_encoding R108 (its "fixed" bits and
fields as spec/opcode_table.json gives them). Every row is marked general knowledge in the spec
(log 11). -/

namespace Sys2Proof

/-- Bits `lo + len - 1` to `lo` of an instruction word. -/
def fieldAt (w : InsnWord) (lo len : Nat) : BitVec len := w.extractLsb' lo len

/-- The register a 4-bit field names. -/
def regAt (w : InsnWord) (lo : Nat) : Reg := (fieldAt w lo 4).toFin

/-- The data address a 15-bit word-address field names: bits 15:1, bit 0 clear (R109). -/
def addrOfField (f : BitVec 15) : Word := f ++ (0#1 : BitVec 1)

/-- The 15-bit field of a data address (R109). -/
def fieldOfAddr (a : Word) : BitVec 15 := a.extractLsb' 1 15

/-- The size bit B: 1 is byte, 0 is word (R108). -/
def sizeOfBit (b : BitVec 1) : Size := if b = 1#1 then .byte else .word

/-- The size bit of a size. -/
def bitOfSize (s : Size) : BitVec 1 :=
  match s with
  | .word => 0#1
  | .byte => 1#1

/-- The accumulator of the A bit: the first for 0, the second for 1. -/
def accOfBit (b : BitVec 1) : Acc := if b = 1#1 then .b else .a

/-- The A bit of an accumulator. -/
def bitOfAcc (x : Acc) : BitVec 1 :=
  match x with
  | .a => 0#1
  | .b => 1#1

/-- The operand of a 3-bit mode code (the end of R108): register `n`, offset register `b`. -/
def operandOf (code : BitVec 3) (n b : Reg) : Operand :=
  if code = 0#3 then .reg n
  else if code = 1#3 then .ptr .ind n
  else if code = 2#3 then .ptr .postDec n
  else if code = 3#3 then .ptr .postInc n
  else if code = 4#3 then .ptr .preDec n
  else if code = 5#3 then .ptr .preInc n
  else .idx n b

/-- The mode code of an operand; 110 for the indexed form, which 111 names too. -/
def Operand.code (o : Operand) : BitVec 3 :=
  match o with
  | .reg _ => 0#3
  | .ptr .ind _ => 1#3
  | .ptr .postDec _ => 2#3
  | .ptr .postInc _ => 3#3
  | .ptr .preDec _ => 4#3
  | .ptr .preInc _ => 5#3
  | .idx _ _ => 6#3

/-- The register in the operand's own field. -/
def Operand.main (o : Operand) : Reg :=
  match o with
  | .reg n => n
  | .ptr _ n => n
  | .idx n _ => n

/-- The offset register field of two operands: Wb of whichever is indexed, 0 when neither is. -/
def offsetReg (src dst : Operand) : Reg :=
  match src, dst with
  | .idx _ b, _ => b
  | _, .idx _ b => b
  | _, _ => 0

/-- The signed byte offset a 10-bit literal stands for (R109): itself in byte mode, doubled in word
mode. -/
def offsetOfField (size : Size) (k : BitVec 10) : Int :=
  match size with
  | .byte => k.toInt
  | .word => k.toInt * 2

/-- The 10-bit literal of a byte offset (R109). -/
def fieldOfOffset (size : Size) (k : Int) : BitVec 10 :=
  match size with
  | .byte => BitVec.ofInt 10 k
  | .word => BitVec.ofInt 10 (k / 2)

/-- The 10-bit literal of the literal-offset rows: bits 18:15, 13:11 and 6:4 (R108). -/
def slitAt (w : InsnWord) : BitVec 10 :=
  fieldAt w 15 4 ++ (fieldAt w 11 3 ++ fieldAt w 4 3)

/-- One row of the table: its fixed bits as (lowest bit, length, value), and what its fields say. -/
structure Row where
  fixed : List (Nat × Nat × Nat)
  read : InsnWord → Instr

/-- The word has the row's fixed bits. -/
def Row.fits (r : Row) (w : InsnWord) : Bool :=
  r.fixed.all fun f => (fieldAt w f.1 f.2.1).toNat == f.2.2

/-- The fourteen rows of spec/opcode_table.json, in its order. -/
def rows : List Row :=
  [ ⟨[(20, 4, 2)], fun w => .movLit (fieldAt w 4 16) (regAt w 0)⟩,
    ⟨[(19, 5, 16)], fun w => .movLoad (addrOfField (fieldAt w 4 15)) (regAt w 0)⟩,
    ⟨[(19, 5, 17)], fun w => .movStore (regAt w 0) (addrOfField (fieldAt w 4 15))⟩,
    ⟨[(19, 5, 15)], fun w =>
      .mov (sizeOfBit (fieldAt w 14 1)) (operandOf (fieldAt w 4 3) (regAt w 0) (regAt w 15))
        (operandOf (fieldAt w 11 3) (regAt w 7) (regAt w 15))⟩,
    ⟨[(19, 5, 18)], fun w =>
      .movLoadOff (sizeOfBit (fieldAt w 14 1)) (regAt w 0)
        (offsetOfField (sizeOfBit (fieldAt w 14 1)) (slitAt w)) (regAt w 7)⟩,
    ⟨[(19, 5, 19)], fun w =>
      .movStoreOff (sizeOfBit (fieldAt w 14 1)) (regAt w 0) (regAt w 7)
        (offsetOfField (sizeOfBit (fieldAt w 14 1)) (slitAt w))⟩,
    ⟨[(16, 8, 0)], fun _ => .nop⟩,
    ⟨[(14, 10, 36)], fun w => .repeatLit (fieldAt w 0 14)⟩,
    ⟨[(0, 1, 0), (16, 8, 249)], fun w => .pop (addrOfField (fieldAt w 1 15))⟩,
    ⟨[(0, 24, 393216)], fun _ => .ret⟩,
    ⟨[(0, 24, 409600)], fun _ => .retfie⟩,
    ⟨[(15, 9, 10)], fun w =>
      .retlw (sizeOfBit (fieldAt w 14 1)) (fieldAt w 4 10) (regAt w 0)⟩,
    ⟨[(0, 24, 16416768)], fun _ => .ulnk⟩,
    ⟨[(14, 1, 0), (19, 5, 24)], fun w =>
      .mac (fieldAt w 16 3) (accOfBit (fieldAt w 15 1)) (fieldAt w 12 2) (fieldAt w 10 2)
        (fieldAt w 6 4) (fieldAt w 2 4) (fieldAt w 0 2)⟩ ]

/-- Why a word is not an instruction. -/
inductive Reject where
  /-- No row of the table has the word's fixed bits; the spec says nothing of such words (R106).
  Safe: the machine stops. -/
  | noRow (w : InsnWord)
  deriving DecidableEq, Repr

/-- The decoder: the first row whose fixed bits the word has (no two rows share a word: the test
`test_rows_disjoint`), or a rejection by name. -/
def decode (w : InsnWord) : Except Reject Instr :=
  match rows.find? (fun r => r.fits w) with
  | some r => .ok (r.read w)
  | none => .error (.noRow w)

/-- The word whose fields hold the given values: each entry is (lowest bit, value), and the fields do not
overlap. -/
def packFields (fs : List (Nat × Nat)) : InsnWord :=
  BitVec.ofNat 24 (fs.foldr (fun f acc => f.2 * 2 ^ f.1 + acc) 0)

/-- The word of the literal-offset rows: opcode, the literal's bits 9:6, 5:3 and 2:0 at 15, 11 and 4, B at
14, `d` in the destination field, `s` in the source field (R108). -/
def encodeOff (op : Nat) (size : Size) (k : Int) (d s : Reg) : InsnWord :=
  let lit := (fieldOfOffset size k).toNat
  packFields [(19, op), (15, lit / 64), (14, (bitOfSize size).toNat), (11, lit / 8 % 8), (7, d.val),
    (4, lit % 8), (0, s.val)]

/-- The word of a well-formed instruction (R108, R109); don't-care bits are 0. -/
def encode (i : Instr) : InsnWord :=
  match i with
  | .movLit lit d => packFields [(20, 0b0010), (4, lit.toNat), (0, d.val)]
  | .movLoad f d => packFields [(19, 0b10000), (4, (fieldOfAddr f).toNat), (0, d.val)]
  | .movStore s f => packFields [(19, 0b10001), (4, (fieldOfAddr f).toNat), (0, s.val)]
  | .mov size src dst =>
    packFields [(19, 0b01111), (15, (offsetReg src dst).val), (14, (bitOfSize size).toNat),
      (11, dst.code.toNat), (7, dst.main.val), (4, src.code.toNat), (0, src.main.val)]
  | .movLoadOff size s k d => encodeOff 0b10010 size k d s
  | .movStoreOff size s d k => encodeOff 0b10011 size k d s
  | .nop => packFields [(16, 0b00000000)]
  | .repeatLit lit => packFields [(14, 0b0000100100), (0, lit.toNat)]
  | .pop f => packFields [(16, 0b11111001), (1, (fieldOfAddr f).toNat)]
  | .ret => packFields [(0, 0x060000)]
  | .retfie => packFields [(0, 0x064000)]
  | .retlw size lit d =>
    packFields [(15, 0b000001010), (14, (bitOfSize size).toNat), (4, lit.toNat), (0, d.val)]
  | .ulnk => packFields [(0, 0xFA8000)]
  | .mac m acc x y i j wb =>
    packFields [(19, 0b11000), (16, m.toNat), (15, (bitOfAcc acc).toNat), (12, x.toNat), (10, y.toNat),
      (6, i.toNat), (2, j.toNat), (0, wb.toNat)]

/-- The instruction the decoder reads from the table word `w` of `nbits` bits (bit 0 the least
significant), the bits above `nbits` being 0. An instruction is one 24-bit word. -/
def decodeTableWord (nbits w : Nat) : Option Instr :=
  (decode (BitVec.ofNat 24 (w % 2 ^ nbits))).toOption

end Sys2Proof
end

