-- ==== Sys2Proof/Config.lean ====
section
/-! DEFINITION. What an implementation fixes (00_scope R8, 10_state R47) and the free values. The
parameters are plain data (`Params`), so that a statement can range over every device; the free
values are opaque constants, applied to a tag that says what is drawn and to the counter of State. -/

namespace Sys2Proof

/-- The paths to data memory (00_scope R11): X read AGU, X write AGU, Y AGU. -/
inductive Path where
  | xr
  | xw
  | y
  deriving DecidableEq, Repr

/-- The six control registers (10_state R26). -/
inductive CtrlReg where
  | modcon
  | xmodsrt
  | xmodend
  | ymodsrt
  | ymodend
  | xbrev
  deriving DecidableEq, Repr

/-- A block of provided data memory: its first and last word address. -/
structure RamBlock where
  lo : Word
  hi : Word
  deriving DecidableEq, Repr

/-- The memory map in the form 00_scope R8 gives it: RAM starts at 0x0800 and is split into two blocks, X
data space first and Y data space after it. `xEnd` is the last word address of the X block, `yStart` and
`yEnd` the first and the last of the Y block, which need not adjoin (91_not_in_source section 4); `rest` is
what else a device provides, between the blocks or above them, none of it Y data space. -/
structure RamMap where
  xEnd : Word
  yStart : Word
  yEnd : Word
  rest : List RamBlock
  deriving DecidableEq, Repr, Inhabited

/-- A DSP prefetch operation (44_named_instructions R222): which of the path's two pointers (W8 or W9
for X, W10 or W11 for Y) and the byte offset of the post-modification; `none` where the parameter
gives no offset, and then the offset is drawn. -/
structure PrefetchOp where
  second : Bool
  offset : Option Int
  deriving DecidableEq, Repr

/-- The parameters of the step relation (00_scope R8, 10_state R47): the memory map, the register
addresses, and what the instructions supply that the source does not describe (D33, U21; for POP
log 8). The codes are those of the encoding fields i, j, x, y, a and m of MAC: `factors` are the registers its
multiplicand code names, `offsetReg` the one that a prefetch operation without a constant offset names
(log 12). The mode of the write back, which R222 leaves to the instruction (D33), and that of POP are each one
of the five modes through a register alone: that no indexed, literal offset or other step is admitted is the
model's choice (log 7, log 8). -/
structure Params where
  map : RamMap
  addrModcon : Word
  addrXmodsrt : Word
  addrXmodend : Word
  addrYmodsrt : Word
  addrYmodend : Word
  addrXbrev : Word
  xOps : Vector (Option PrefetchOp) 16
  yOps : Vector (Option PrefetchOp) 16
  xDest : Vector Reg 4
  yDest : Vector Reg 4
  writeBack : Vector (Option PtrMode) 4
  factors : Vector (List Reg) 8
  offsetReg : Reg
  popReg : Reg
  popMode : PtrMode
  deriving DecidableEq, Repr

/-- What a 16-bit free value stands for. Two draws of one statement have two tags. -/
inductive Draw where
  /-- an effective address the spec does not fix -/
  | ea (p : Path)
  /-- a pointer after an update the spec does not fix -/
  | ptr (p : Path)
  /-- a DSP offset the parameters do not give -/
  | offset (p : Path)
  /-- the value of a register operand that the other operand modifies (D31) -/
  | srcValue
  /-- a register one statement writes twice (U15) -/
  | twice (n : Reg)
  /-- what a trapping read of RAM that holds no value delivers (R40, R231) -/
  | unwritten
  /-- the upper byte of a register after a byte move (D20) -/
  | upperByte
  /-- a register named by a statement that took the address error trap (R235) -/
  | trapped (n : Reg)
  deriving DecidableEq, Repr

/-- What a free choice decides after an address error (R235). -/
inductive Choice where
  /-- the write of a statement whose read trapped is made -/
  | writeAfterTrap
  /-- the remaining executions of a REPEAT are abandoned -/
  | abandonRepeat
  deriving DecidableEq, Repr

/-- The memory map of the device at hand: no map is a default (00_scope R8, D3, log 6). -/
opaque Config.ramMap : RamMap

/-- Free 16-bit values: the spec fixes none of them (log 9, log 10). -/
opaque Config.freeWord (t : Draw) (k : Nat) : Word

/-- Free choices (log 9, log 12). -/
opaque Config.freeChoice (t : Choice) (k : Nat) : Bool

/-- The content MAC leaves in its accumulator: the arithmetic is not in the source (R222, log 2). -/
opaque Config.freeContent (k : Nat) : Nat

/-- The 16 bits an accumulator write back stores of an accumulator content: which bits they are is
not in the source (R126, log 2). -/
opaque Config.accStored (content k : Nat) : Word

end Sys2Proof
end

