-- ==== Sys2Proof/Machine/State.lean ====
section
/-! DEFINITION. The state of the machine as plain data (10_state R20 to R47), the reasons a step stops,
and the state after power-on reset (R46). -/

namespace Sys2Proof.Machine

/-- Whether an access read or wrote (60_exceptions R230). -/
inductive AccessKind where
  | read
  | write
  deriving DecidableEq, Repr

/-- `AddressError(ea, kind)` of 60_exceptions R230. -/
structure AddressError where
  ea : Word
  kind : AccessKind
  deriving DecidableEq, Repr

/-- One member of the hazard window (10_state R44): a control register the previous statement wrote,
with the registers for which XModActive, YModActive and BitRevActive held before that write. -/
structure HazEntry where
  reg : CtrlReg
  xSel : Option Reg
  ySel : Option Reg
  brSel : Option Reg
  deriving DecidableEq, Repr

/-- Data memory: the bytes that hold a value, addresses strictly rising. A byte not listed holds no
value (10_state R40, log 3). -/
abbrev Memory := List Host.Cell

/-- The canonical form: addresses strictly rising. No entry can equal what an unlisted address reads
as, since that is no value. -/
abbrev Memory.wf (m : Memory) : Prop := m.Pairwise fun c c' => c.1 < c'.1

/-- The machine's state. INVENTORY.md lists each field with its rule. -/
structure State where
  /-- W0 to W15 (R20) -/
  regs : Vector Word 16
  /-- MODCON (R27) -/
  modcon : Word
  /-- XMODSRT (R35) -/
  xmodsrt : Word
  /-- XMODEND (R36) -/
  xmodend : Word
  /-- YMODSRT (R37) -/
  ymodsrt : Word
  /-- YMODEND (R38) -/
  ymodend : Word
  /-- XBREV (R39) -/
  xbrev : Word
  /-- the content of the first accumulator, a name for bits the spec does not describe (R23) -/
  accA : Nat
  /-- the content of the second accumulator (R23) -/
  accB : Nat
  /-- data memory (R40) -/
  mem : Memory
  /-- the hazard window (R44) -/
  haz : List HazEntry
  /-- the fault mark (R45) -/
  fault : Option AddressError
  /-- the index of the current statement (R24) -/
  pc : Nat
  /-- further executions of the current statement that a REPEAT still asks for (R216) -/
  rep : Nat
  /-- the program text, a parameter no step writes (R47, R81) -/
  prog : List InsnWord
  /-- the other parameters (R8, R47), which no step writes -/
  par : Params
  /-- the model's own counter of statements executed, which indexes the free values (log 9) -/
  draws : Nat
  deriving DecidableEq, Repr

/-- Why the machine stops with a fault. -/
inductive Fault where
  /-- A step from a state whose fault mark is set: the run has ended in the address error trap (R236).
  Raised by `step` alone. Safe: the handler is not described and is not followed. -/
  | addressError (e : AddressError)
  /-- A read of a RAM byte that nothing has written (R40, U17), at this word or byte address. Raised by
  the read primitives. Safe: the machine goes on with some value. -/
  | readOfUnwritten (a : Word)
  deriving DecidableEq, Repr

/-- Why a statement has no meaning here. -/
inductive Refusal where
  /-- An instruction without a meaning; no arm of `exec` answers it. Safe. -/
  | notModelled (mnemonic : String)
  /-- An access to the SFR space at an address that is none of the six control registers (R41, R128):
  the register there and its side effects are not described. Raised by the access primitives. Safe. -/
  | sfrNotDescribed (a : Word)
  /-- RETURN, RETFIE, RETLW, ULNK: the spec gives them no effect (R218 to R221). Raised by their
  meanings. Safe. -/
  | noEffectStated (mnemonic : String)
  /-- REPEAT executed as the repeated statement of a REPEAT: which statements may be repeated is not in
  the source and nesting is not modelled by the spec (R216, D26). Raised by REPEAT. Safe. -/
  | nestedRepeat
  /-- The word at the statement index is none of the table's (R106). Raised by `step`. Safe. -/
  | notAnInstruction (w : InsnWord)
  /-- The statement index has passed the last statement: the run has ended (R264). Raised by `step`.
  Safe. -/
  | programEnded
  deriving DecidableEq, Repr

/-- The parameters of a device with the memory map `m`: the register addresses that 95_test_vectors
section 0 uses (GK1, log 6), the DSP operations of the family (93_implementation_defined GK7, log 7) and POP
reading through `[--W15]` as the family does (log 8). -/
def familyParams (m : RamMap) : Params where
  map := m
  addrModcon := 0x0046#16
  addrXmodsrt := 0x0048#16
  addrXmodend := 0x004A#16
  addrYmodsrt := 0x004C#16
  addrYmodend := 0x004E#16
  addrXbrev := 0x0050#16
  xOps := #v[some ⟨false, some 0⟩, some ⟨false, some 2⟩, some ⟨false, some 4⟩, some ⟨false, some 6⟩,
    none, some ⟨false, some (-6)⟩, some ⟨false, some (-4)⟩, some ⟨false, some (-2)⟩,
    some ⟨true, some 0⟩, some ⟨true, some 2⟩, some ⟨true, some 4⟩, some ⟨true, some 6⟩,
    some ⟨true, none⟩, some ⟨true, some (-6)⟩, some ⟨true, some (-4)⟩, some ⟨true, some (-2)⟩]
  yOps := #v[some ⟨false, some 0⟩, some ⟨false, some 2⟩, some ⟨false, some 4⟩, some ⟨false, some 6⟩,
    none, some ⟨false, some (-6)⟩, some ⟨false, some (-4)⟩, some ⟨false, some (-2)⟩,
    some ⟨true, some 0⟩, some ⟨true, some 2⟩, some ⟨true, some 4⟩, some ⟨true, some 6⟩,
    some ⟨true, none⟩, some ⟨true, some (-6)⟩, some ⟨true, some (-4)⟩, some ⟨true, some (-2)⟩]
  xDest := #v[4, 5, 6, 7]
  yDest := #v[4, 5, 6, 7]
  writeBack := #v[some .ind, some .postInc, none, none]
  factors := #v[[4, 5], [4, 6], [4, 7], [4, 5, 6, 7], [5, 6], [5, 7], [6, 7], [4, 5, 6, 7]]
  offsetReg := 12
  popReg := 15
  popMode := .preDec

/-- The machine after power-on reset (R46, R250): the six registers at their POR values, no RAM byte
holding a value, the hazard window empty, no fault, the first statement next. The W registers hold
the family's reset values (log 1); the program text is loaded from outside (log 5); the memory map is the
device's, whichever that is (log 6). -/
def State.reset : State where
  regs := #v[0, 0, 0, 0, 0, 0, 0, 0, 0, 0, 0, 0, 0, 0, 0, 0x0800#16]
  modcon := 0x0000#16
  xmodsrt := 0x0000#16
  xmodend := 0x0001#16
  ymodsrt := 0x0000#16
  ymodend := 0x0001#16
  xbrev := 0x0000#16
  accA := 0
  accB := 1
  mem := []
  haz := []
  fault := none
  pc := 0
  rep := 0
  prog := []
  par := familyParams Config.ramMap
  draws := 0

end Sys2Proof.Machine
end

