-- ==== Sys2Proof/Machine/Flags.lean ====
section
/-! DEFINITION. The spec defines no condition flag and no operation writes one (10_state R25). What it
defines as derived bits are the fields of the control registers (R27 to R39) and the predicates over
them (R43): they stand here. -/

namespace Sys2Proof.Machine

/-- MODCON.XMODEN, bit 15 (R28). -/
def State.xmoden (s : State) : Bool := s.modcon.getLsbD 15

/-- MODCON.YMODEN, bit 14 (R29). -/
def State.ymoden (s : State) : Bool := s.modcon.getLsbD 14

/-- MODCON.BWM, bits 11:8 (R31). -/
def State.bwm (s : State) : Reg := (s.modcon.extractLsb' 8 4).toFin

/-- MODCON.YWM, bits 7:4 (R32). -/
def State.ywm (s : State) : Reg := (s.modcon.extractLsb' 4 4).toFin

/-- MODCON.XWM, bits 3:0 (R33). -/
def State.xwm (s : State) : Reg := (s.modcon.extractLsb' 0 4).toFin

/-- XBREV.BREN, bit 15 (R39). -/
def State.bren (s : State) : Bool := s.xbrev.getLsbD 15

/-- XBREV.XB, bits 14:0 (R39). -/
def State.xb (s : State) : BitVec 15 := s.xbrev.extractLsb' 0 15

/-- `XModActive(n)` (R43). -/
def xModActive (s : State) (n : Reg) : Bool := s.xmoden && s.xwm == n && n != 15

/-- `YModActive(n)` (R43). -/
def yModActive (s : State) (n : Reg) : Bool := s.ymoden && s.ywm == n && n != 15

/-- `BitRevActive(n)` (R43). -/
def bitRevActive (s : State) (n : Reg) : Bool := s.bren && s.bwm == n && n != 15

/-- The register for which XModActive holds, if any. -/
def xSelected (s : State) : Option Reg := if xModActive s s.xwm then some s.xwm else none

/-- The register for which YModActive holds, if any. -/
def ySelected (s : State) : Option Reg := if yModActive s s.ywm then some s.ywm else none

/-- The register for which BitRevActive holds, if any. -/
def brSelected (s : State) : Option Reg := if bitRevActive s s.bwm then some s.bwm else none

/-- YMODEN = 1 with a reserved YWM value (R32, D21). -/
def yReserved (s : State) : Bool := s.ymoden && s.ywm != 10 && s.ywm != 11 && s.ywm != 15

/-- One of the fifteen listed modifier values, the single set bits 0x0001 to 0x4000 (R197). -/
def listedXb (xb : BitVec 15) : Bool := (List.range 15).any fun j => xb.toNat == 2 ^ j

end Sys2Proof.Machine
end

