-- ==== Sys2Proof/Machine/Ops.lean ====
section
/-! DEFINITION. The named operations over registers and memory: register access, control register
access with the fixed bits (10_state R42), the access primitives (40_data_space_access R120 to R128),
the hazard window, taking the address error trap, fetching and moving past a statement. -/

namespace Sys2Proof

/-! ### The parameters of the device, and the fixed bits of the control registers -/

/-- `InY(a)` (00_scope R8): the one Y block. -/
def Params.inY (p : Params) (a : Word) : Bool :=
  0x0800#16 ≤ a && p.map.yStart ≤ a && a ≤ p.map.yEnd

/-- `Impl(a)` (00_scope R8): the X block from 0x0800, the Y block, and what else the device provides. Nothing
is provided in a gap between them unless the map says so (20_memory R74). -/
def Params.impl (p : Params) (a : Word) : Bool :=
  (0x0800#16 ≤ a && (a ≤ p.map.xEnd || p.map.rest.any fun b => b.lo ≤ a && a ≤ b.hi)) || p.inY a

/-- The data-space address of a control register (00_scope R8). -/
def Params.ctrlAddr (p : Params) (r : CtrlReg) : Word :=
  match r with
  | .modcon => p.addrModcon
  | .xmodsrt => p.addrXmodsrt
  | .xmodend => p.addrXmodend
  | .ymodsrt => p.addrYmodsrt
  | .ymodend => p.addrYmodend
  | .xbrev => p.addrXbrev

/-- The control register at a word address, if one is there (R128). -/
def Params.ctrlAt (p : Params) (a : Word) : Option CtrlReg :=
  [.modcon, .xmodsrt, .xmodend, .ymodsrt, .ymodend, .xbrev].find? fun r => p.ctrlAddr r == a

/-- The value with the register's fixed bits: MODCON 13:12 read 0, the start registers' bit 0 reads 0,
the end registers' bit 0 reads 1 (R30, R35 to R38). -/
def CtrlReg.fix (r : CtrlReg) (v : Word) : Word :=
  match r with
  | .modcon => v &&& 0xCFFF#16
  | .xmodsrt => v &&& 0xFFFE#16
  | .xmodend => v ||| 0x0001#16
  | .ymodsrt => v &&& 0xFFFE#16
  | .ymodend => v ||| 0x0001#16
  | .xbrev => v

end Sys2Proof

namespace Sys2Proof.Machine

/-- The outcome of a part of a statement. -/
abbrev Part (α : Type) := Host.Outcome α Fault Refusal

/-- Go on with the value of a part; a fault or a refusal ends the statement. -/
def andThen {α β : Type} (p : Part α) (f : α → Part β) : Part β :=
  match p with
  | .next a => f a
  | .fault r => .fault r
  | .refused r => .refused r

/-! ### W registers -/

/-- The content of Wn (10_state R20). -/
def State.w (s : State) (n : Reg) : Word := s.regs[n]

/-- Write Wn. -/
def State.setW (s : State) (n : Reg) (v : Word) : State := { s with regs := s.regs.set n v }

/-- A value the spec fixes, or a free one where it fixes none. -/
def pick (s : State) (t : Draw) (o : Option Word) : Word := o.getD (Config.freeWord t s.draws)

/-! ### Memory -/

/-- The byte at an address, if it holds a value. -/
def Memory.read (m : Memory) (a : Nat) : Option Byte :=
  match m with
  | [] => none
  | c :: m => if c.1 = a then some c.2 else Memory.read m a

/-- Store a byte, keeping the addresses rising. -/
def Memory.write (m : Memory) (a : Nat) (b : Byte) : Memory :=
  match m with
  | [] => [(a, b)]
  | c :: m =>
    if a < c.1 then (a, b) :: c :: m
    else if a = c.1 then (a, b) :: m
    else c :: Memory.write m a b

/-- The aligned address `ea & 0xFFFE` (20_memory R67). -/
def wordAddr (ea : Word) : Word := ea &&& 0xFFFE#16

/-- A word access at this address is misaligned: bit 0 is 1 (60_exceptions R231). -/
def misaligned (ea : Word) : Bool := ea.getLsbD 0

/-- The byte of data memory at an address (10_state R40). -/
def State.byteAt (s : State) (a : Word) : Option Byte := s.mem.read a.toNat

/-- The word at an even address, the byte at the odd address in the high half (20_memory R63, R64). -/
def State.wordAt (s : State) (a : Word) : Option Word :=
  match s.mem.read a.toNat, s.mem.read (a.toNat + 1) with
  | some lo, some hi => some (hi ++ lo)
  | _, _ => none

/-- Store a byte of data memory. -/
def State.setByte (s : State) (a : Word) (b : Byte) : State :=
  { s with mem := s.mem.write a.toNat b }

/-- Store a word at an even address, low byte first (20_memory R63). -/
def State.setWord (s : State) (a : Word) (v : Word) : State :=
  { s with mem := (s.mem.write a.toNat (v.extractLsb' 0 8)).write (a.toNat + 1) (v.extractLsb' 8 8) }

/-! ### Regions (R127) -/

/-- The regions of data space (R127). -/
inductive Region where
  | sfr
  | x
  | y
  | unimpl
  deriving DecidableEq, Repr

/-- `Region(ea)` (R127). -/
def region (p : Params) (ea : Word) : Region :=
  let a := wordAddr ea
  if a ≤ 0x07FE#16 then .sfr
  else if p.inY a then .y
  else if p.impl a then .x
  else .unimpl

/-! ### Control registers (10_state R42) -/

/-- The content of a control register. -/
def State.ctrl (s : State) (r : CtrlReg) : Word :=
  match r with
  | .modcon => s.modcon
  | .xmodsrt => s.xmodsrt
  | .xmodend => s.xmodend
  | .ymodsrt => s.ymodsrt
  | .ymodend => s.ymodend
  | .xbrev => s.xbrev

/-- The state with a control register's writable bits stored. -/
def State.setCtrl (s : State) (r : CtrlReg) (v : Word) : State :=
  match r with
  | .modcon => { s with modcon := r.fix v }
  | .xmodsrt => { s with xmodsrt := r.fix v }
  | .xmodend => { s with xmodend := r.fix v }
  | .ymodsrt => { s with ymodsrt := r.fix v }
  | .ymodend => { s with ymodend := r.fix v }
  | .xbrev => { s with xbrev := r.fix v }

/-- The member a write of `r` adds to the hazard window: the selections before the write (R44). -/
def hazEntry (s : State) (r : CtrlReg) : HazEntry :=
  ⟨r, xSelected s, ySelected s, brSelected s⟩

/-- A data-space write of a control register: the writable bits are stored and the register joins the
hazard window (R42, R128). -/
def State.writeCtrl (s : State) (r : CtrlReg) (v : Word) : State :=
  { s.setCtrl r v with haz := hazEntry s r :: s.haz }

/-- Byte `ea` of a word: the high byte at the odd address (20_memory R64, R66). -/
def byteOf (v : Word) (ea : Word) : Byte :=
  if misaligned ea then v.extractLsb' 8 8 else v.extractLsb' 0 8

/-- A word with byte `ea` replaced. -/
def withByte (v : Word) (ea : Word) (b : Byte) : Word :=
  if misaligned ea then b ++ v.extractLsb' 0 8 else v.extractLsb' 8 8 ++ b

/-! ### The hazard window (70_reset_and_hazards R254 to R258) -/

/-- The window's member makes an indirect read through these registers wrong: after a write of MODCON
every read (R254); of XMODSRT or XMODEND a read through the X modulo pointer (R255); of YMODSRT or
YMODEND through the Y modulo pointer (R256); of XBREV through the bit-reversed pointer, BREN being set
before or after the write (R257). -/
def HazEntry.hits (e : HazEntry) (s : State) (ptrs : List Reg) : Bool :=
  match e.reg with
  | .modcon => true
  | .xmodsrt => ptrs.any fun n => e.xSel == some n
  | .xmodend => ptrs.any fun n => e.xSel == some n
  | .ymodsrt => ptrs.any fun n => e.ySel == some n
  | .ymodend => ptrs.any fun n => e.ySel == some n
  | .xbrev => ptrs.any fun n => e.brSel == some n || bitRevActive s n

/-- An indirect read through `ptrs` violates a hazard (R258 d). -/
def hazardHits (s : State) (ptrs : List Reg) : Bool := s.haz.any fun e => e.hits s ptrs

/-- A statement begins with the window emptied; its own writes fill it again (R44). -/
def State.closeWindow (s : State) : State := { s with haz := [] }

/-! ### Reads (R120, R121, R124, R125) -/

/-- What a read primitive delivers, and whether it raises the address error trap. -/
structure Got where
  v : Word
  trap : Bool
  deriving DecidableEq, Repr

/-- The word of RAM at a word address, or the model fault of R40; a misaligned read takes its trap whether or
not the word holds a value (R231), and delivers a free value where it does not. -/
def ramWord (s : State) (a : Word) (trap : Bool) : Part Got :=
  match s.wordAt a with
  | some v => .next ⟨v, trap⟩
  | none =>
    if trap then .next ⟨Config.freeWord .unwritten s.draws, true⟩ else .fault (.readOfUnwritten a)

/-- `SfrRead(a, 2)` (R128). -/
def sfrReadW (s : State) (a : Word) (trap : Bool) : Part Got :=
  match s.par.ctrlAt a with
  | some r => .next ⟨s.ctrl r, trap⟩
  | none => .refused (.sfrNotDescribed a)

/-- `RdW_MCU(ea)` (R120). -/
def rdW (s : State) (ea : Word) : Part Got :=
  match region s.par ea with
  | .sfr => sfrReadW s (wordAddr ea) (misaligned ea)
  | .x => ramWord s (wordAddr ea) (misaligned ea)
  | .y => ramWord s (wordAddr ea) (misaligned ea)
  | .unimpl => .next ⟨0#16, true⟩

/-- The byte of RAM at an address, on the lower 8 bits of the bus. -/
def ramByte (s : State) (ea : Word) : Part Got :=
  match s.byteAt ea with
  | some b => .next ⟨b.setWidth 16, false⟩
  | none => .fault (.readOfUnwritten ea)

/-- `SfrRead(ea, 1)` (R128, R42). -/
def sfrReadB (s : State) (ea : Word) : Part Got :=
  match s.par.ctrlAt (wordAddr ea) with
  | some r => .next ⟨(byteOf (s.ctrl r) ea).setWidth 16, false⟩
  | none => .refused (.sfrNotDescribed ea)

/-- `RdB_MCU(ea)` (R121). The 8 bits stand in the low byte; nothing uses the upper byte. -/
def rdB (s : State) (ea : Word) : Part Got :=
  match region s.par ea with
  | .sfr => sfrReadB s ea
  | .x => ramByte s ea
  | .y => ramByte s ea
  | .unimpl => .next ⟨0#16, true⟩

/-- `MemRead(XR, ea, n)` of an MCU class instruction (00_scope R11). -/
def rdMcu (s : State) (size : Size) (ea : Word) : Part Got :=
  match size with
  | .word => rdW s ea
  | .byte => rdB s ea

/-- `RdX_DSP(ea)` (R124): a pointer into Y space reads zeros without a trap. -/
def rdX (s : State) (ea : Word) : Part Got :=
  match region s.par ea with
  | .sfr => sfrReadW s (wordAddr ea) (misaligned ea)
  | .x => ramWord s (wordAddr ea) (misaligned ea)
  | .y => .next ⟨0#16, misaligned ea⟩
  | .unimpl => .next ⟨0#16, true⟩

/-- `RdY_DSP(ea)` (R125): a pointer into X or SFR space reads zeros without a trap and touches no
register. -/
def rdY (s : State) (ea : Word) : Part Got :=
  match region s.par ea with
  | .sfr => .next ⟨0#16, misaligned ea⟩
  | .x => .next ⟨0#16, misaligned ea⟩
  | .y => ramWord s (wordAddr ea) (misaligned ea)
  | .unimpl => .next ⟨0#16, true⟩

/-! ### Writes (R122, R123, R126) -/

/-- What a write primitive leaves: the state, and whether it raises the address error trap (then the
state is unchanged, R234). -/
structure Put where
  s : State
  trap : Bool
  deriving DecidableEq, Repr

/-- `SfrWrite(a, 2, v)` (R128). -/
def sfrWriteW (s : State) (a : Word) (v : Word) : Part Put :=
  match s.par.ctrlAt a with
  | some r => .next ⟨s.writeCtrl r v, false⟩
  | none => .refused (.sfrNotDescribed a)

/-- `WrW(ea, v)` (R122). -/
def wrW (s : State) (ea : Word) (v : Word) : Part Put :=
  if misaligned ea then .next ⟨s, true⟩
  else
    match region s.par ea with
    | .sfr => sfrWriteW s ea v
    | .x => .next ⟨s.setWord ea v, false⟩
    | .y => .next ⟨s.setWord ea v, false⟩
    | .unimpl => .next ⟨s, true⟩

/-- `SfrWrite(ea, 1, v)` (R128, R42): the addressed byte alone. -/
def sfrWriteB (s : State) (ea : Word) (b : Byte) : Part Put :=
  match s.par.ctrlAt (wordAddr ea) with
  | some r => .next ⟨s.writeCtrl r (withByte (s.ctrl r) ea b), false⟩
  | none => .refused (.sfrNotDescribed ea)

/-- `WrB(ea, v)` (R123). -/
def wrB (s : State) (ea : Word) (b : Byte) : Part Put :=
  match region s.par ea with
  | .sfr => sfrWriteB s ea b
  | .x => .next ⟨s.setByte ea b, false⟩
  | .y => .next ⟨s.setByte ea b, false⟩
  | .unimpl => .next ⟨s, true⟩

/-- `MemWrite(ea, n, v)` (00_scope R11): a byte write stores bits 7:0. -/
def wr (s : State) (size : Size) (ea : Word) (v : Word) : Part Put :=
  match size with
  | .word => wrW s ea v
  | .byte => wrB s ea (v.extractLsb' 0 8)

/-- A write of this size at `ea` raises the address error trap: it is misaligned or unimplemented (R231,
R232). -/
def writeTraps (s : State) (size : Size) (ea : Word) : Bool :=
  (size == .word && misaligned ea) || region s.par ea == .unimpl

/-- `AWB(ea, v)` (R126). -/
def awb (s : State) (ea : Word) (v : Word) : Part Put := wrW s ea v

/-! ### Register results -/

/-- A register value a statement leaves, with the register. -/
abbrev Updates := List (Reg × Word)

/-- The registers are written; one that the statement writes twice ends with a free value, since the
order of its updates is not in the source (20_memory R78, U15). -/
def commit (s : State) (us : Updates) : State :=
  us.foldl
    (fun t u =>
      t.setW u.1
        (if us.countP (fun u' => u'.1 == u.1) ≤ 1 then u.2 else Config.freeWord (.twice u.1) s.draws))
    s

/-- What a move leaves in a register: the word, or for a byte the byte under a free upper byte (20_memory
R66, D20). -/
def regResult (s : State) (size : Size) (v : Word) : Word :=
  match size with
  | .word => v
  | .byte =>
    (Config.freeWord .upperByte s.draws).extractLsb' 8 8 ++ v.extractLsb' 0 8

/-! ### Taking the address error trap (60_exceptions R234 to R236) -/

/-- The registers get free values (R235: whether a destination or a pointer was written is open). -/
def trapRegs (s : State) (named : List Reg) : State :=
  named.foldl (fun t n => t.setW n (Config.freeWord (.trapped n) s.draws)) s

/-- Taking the address error trap: the fault mark is set (R45); every W register the statement names is
open, whether the rest of a REPEAT is abandoned is open (R235); the rest is unchanged. No handler
runs (R236): `step` answers the fault from the marked state. -/
def raiseAddressError (s : State) (e : AddressError) (named : List Reg) : State :=
  { trapRegs s named with
    fault := some e
    rep := if Config.freeChoice .abandonRepeat s.draws then 0 else s.rep }

/-- The return from the trap: not in the source, and the model has none because it has no entry to
return from (R241). From a marked state no step is taken (R236). -/
def trapOutcome (s : State) : Option Fault := s.fault.map Fault.addressError

/-! ### Statements -/

/-- The word of the current statement (10_state R24). -/
def State.fetch (s : State) : Option InsnWord := s.prog[s.pc]?

/-- Around `exec`: the draw counter moves on; the statement index stays at a statement that trapped
(R240) and at one a REPEAT still repeats, and passes any other (R24, R216). `s` is the state before
the statement, `t` after it. -/
def advance (s t : State) : State :=
  if t.fault.isSome then { t with draws := s.draws + 1 }
  else if s.rep = 0 then { t with pc := s.pc + 1, draws := s.draws + 1 }
  else { t with rep := s.rep - 1, draws := s.draws + 1 }

/-- The list with the word at an index, zeros (NOP) filling up to it. -/
def placeWord (p : List InsnWord) (k : Nat) (w : InsnWord) : List InsnWord :=
  match k, p with
  | 0, [] => [w]
  | 0, _ :: p => w :: p
  | k + 1, [] => 0#24 :: placeWord [] k w
  | k + 1, x :: p => x :: placeWord p k w

end Sys2Proof.Machine
end

