-- ==== Sys2Proof/Machine/Operands.lean ====
section
/-! DEFINITION. The operand forms: the modulo correction (42_modulo_addressing), the reverse-carry
addition (43_bit_reversed_addressing), effective-address generation (41_addressing_modes), and which
registers a statement reads through (44_named_instructions R224). -/

namespace Sys2Proof

/-! ### Operands of MOV (R213) -/

/-- The step of the pre- and post-modification modes in bytes (R142). -/
def Size.bytes (s : Size) : Int :=
  match s with
  | .word => 2
  | .byte => 1

/-- The registers an operand names. -/
def Operand.regs (o : Operand) : List Reg :=
  match o with
  | .reg n => [n]
  | .ptr _ n => [n]
  | .idx n b => [n, b]

/-- The pointer an operand modifies, if any: only pre- and post-modification do (R141). -/
def Operand.modifies (o : Operand) : Option Reg :=
  match o with
  | .reg _ => none
  | .ptr .ind _ => none
  | .ptr .postDec n => some n
  | .ptr .postInc n => some n
  | .ptr .preDec n => some n
  | .ptr .preInc n => some n
  | .idx _ _ => none

/-- The operand names a register that the other operand modifies: what is read of it is open (R213,
D31). -/
def Operand.shares (o other : Operand) : Bool :=
  match other.modifies with
  | some n => o.regs.contains n
  | none => false

/-! ### Classification (R224) -/

/-- The pointer of a prefetch operation: the second of the path's pair or the first (R21). -/
def PrefetchOp.pointer (o : PrefetchOp) (path : Path) : Reg :=
  match path with
  | .xr => if o.second then 9 else 8
  | .xw => 13
  | .y => if o.second then 11 else 10

/-- The registers a source operand reads through. -/
def Operand.readPointers (o : Operand) : List Reg :=
  match o with
  | .reg _ => []
  | .ptr _ n => [n]
  | .idx n b => [n, b]

/-- `ReadPointers(stmt)` (R224); every register for the five implicit reads, whose pointer the source
does not name. -/
def Instr.readPointers (i : Instr) (p : Params) : List Reg :=
  match i with
  | .movLit _ _ => []
  | .movLoad _ _ => []
  | .movStore _ _ => []
  | .mov _ src _ => src.readPointers
  | .movLoadOff _ s _ _ => [s]
  | .movStoreOff _ _ _ _ => []
  | .nop => []
  | .repeatLit _ => []
  | .pop _ => List.finRange 16
  | .ret => List.finRange 16
  | .retfie => List.finRange 16
  | .retlw _ _ _ => List.finRange 16
  | .ulnk => List.finRange 16
  | .mac _ _ _ _ i j _ =>
    ((p.xOps[i.toFin]).map fun o => o.pointer .xr).toList ++
      ((p.yOps[j.toFin]).map fun o => o.pointer .y).toList

/-- `IndirectRead(stmt)` (R224). -/
def Instr.indirectRead (i : Instr) (p : Params) : Bool := !(i.readPointers p).isEmpty

end Sys2Proof

namespace Sys2Proof.Machine

/-- Every addressing mode of R141. -/
inductive Mode where
  | ptr (m : PtrMode)
  /-- register indexed, by the index register (R148) -/
  | regOff (m : Reg)
  /-- literal offset, a signed byte offset (R149) -/
  | litOff (k : Int)
  /-- DSP class post-modification by a signed byte offset (R150) -/
  | postMod (d : Int)
  deriving DecidableEq, Repr

/-- The least `k` with `2^k ≥ l`, for a buffer length of at most 64 Kbytes (R165). -/
def leastPow (l : Nat) : Nat := ((List.range 17).find? fun k => decide (l ≤ 2 ^ k)).getD 17

/-- `ModAdj` (R170): the corrected address for pointer `p` and signed byte offset `d` in the buffer
`srt` to `fin`, `none` where the source does not settle it (R171 to R174). -/
def modAdj (srt fin p : Word) (d : Int) : Option Word :=
  let s : Int := srt.toNat
  let e : Int := fin.toNat
  let l : Int := e - s + 1
  let b : Int := 2 ^ leastPow l.toNat
  let r : Int := p.toNat + d
  if ¬(s < e ∧ s ≤ p.toNat ∧ (p.toNat : Int) ≤ e ∧ 0 ≤ r ∧ r ≤ 0xFFFF) then none
  else if 0 ≤ d ∧ s % b = 0 ∧ r - e ≤ l then
    some (BitVec.ofInt 16 (if e < r then r - l else r))
  else if d ≤ 0 ∧ (e + 1) % b = 0 ∧ s - r ≤ l then
    some (BitVec.ofInt 16 (if r < s then r + l else r))
  else none

/-- `RevAdd(p, XB)` (R194): bits 15:1 of the pointer and the modifier are added with the carries running
toward bit 0; bit 0 stays. -/
def revAdd (p : Word) (xb : BitVec 15) : Word :=
  ((p.extractLsb' 1 15).reverse + xb.reverse).reverse ++ p.extractLsb' 0 1

/-- The two modes in which bit-reversed addressing acts (R192). -/
def Mode.increments (m : Mode) : Bool :=
  match m with
  | .ptr .postInc => true
  | .ptr .preInc => true
  | _ => false

/-- The modulo buffer that a path's accesses through `n` are in, its start and end: the X buffer on the `XR`
and `XW` paths, the Y buffer on the `Y` path (R168, R153). -/
def moduloBuffer (s : State) (path : Path) (n : Reg) : Option (Word × Word) :=
  match path with
  | .xr => if xModActive s n then some (s.xmodsrt, s.xmodend) else none
  | .xw => if xModActive s n then some (s.xmodsrt, s.xmodend) else none
  | .y => if yModActive s n then some (s.ymodsrt, s.ymodend) else none

/-- Bit-reversed addressing takes the access: a word write with pre- or post-increment through its pointer
(R192, R199). -/
def bitReverses (s : State) (path : Path) (n : Reg) (size : Size) (mode : Mode) : Bool :=
  path == .xw && bitRevActive s n && size == .word && mode.increments

/-- The pointer is selected for modulo addressing while its value lies outside `S..E`: the access's address
is unspecified (R174). -/
def outsideBuffer (s : State) (path : Path) (n : Reg) (size : Size) (mode : Mode) : Bool :=
  !bitReverses s path n size mode &&
    match moduloBuffer s path n with
    | some b => !(b.1 ≤ s.w n && s.w n ≤ b.2)
    | none => false

/-- `Adjust` (R153): the new address from pointer `p` of register `n` and signed byte offset `d`; `none`
where the spec fixes no value: an unlisted XB (R197), a write that bit-reversed and modulo addressing
both claim (R200), a reserved YWM (R32), and what `ModAdj` leaves open. -/
def adjust (s : State) (path : Path) (n : Reg) (p : Word) (d : Int) (size : Size) (mode : Mode) :
    Option Word :=
  if bitReverses s path n size mode then
    if listedXb s.xb then some (revAdd p s.xb) else none
  else if path = .xw ∧ bitRevActive s n ∧ xModActive s n ∧ d ≠ 0 then none
  else if path = .y ∧ yReserved s then none
  else
    match moduloBuffer s path n with
    | some b => modAdj b.1 b.2 p d
    | none => some (p + BitVec.ofInt 16 d)

/-- What effective-address generation gives: the address, and the pointer's new value in the modifying
modes. -/
structure Gen where
  ea : Word
  upd : Option Word
  deriving DecidableEq, Repr

/-- `EAGen(path, mode, n, size, off)` (R141). `given` says that the spec fixes neither the address nor the
pointer of this access (a hazard R258, a reserved YWM R32, a register the other operand modifies R213); nor
does it with a modulo pointer outside its buffer (R174): both are then drawn. Under the indexed mode the
address is drawn too when only the index is the register selected for modulo addressing (R148). -/
def eaGen (s : State) (path : Path) (mode : Mode) (n : Reg) (size : Size) (given : Bool) : Gen :=
  let p := s.w n
  let isOpen := given || outsideBuffer s path n size mode
  let adj : Int → Option Word := fun d => if isOpen then none else adjust s path n p d size mode
  let plain : Option Word := if isOpen then none else some p
  let ea : Option Word → Word := pick s (.ea path)
  let ptr : Option Word → Word := pick s (.ptr path)
  match mode with
  | .ptr .ind => ⟨ea (adj 0), none⟩
  | .ptr .postInc => ⟨ea plain, some (ptr (adj size.bytes))⟩
  | .ptr .postDec => ⟨ea plain, some (ptr (adj (-size.bytes)))⟩
  | .ptr .preInc => ⟨ea (adj size.bytes), some (ea (adj size.bytes))⟩
  | .ptr .preDec => ⟨ea (adj (-size.bytes)), some (ea (adj (-size.bytes)))⟩
  | .regOff m =>
    ⟨ea (if xModActive s m && !xModActive s n then none else adj (s.w m).toInt), none⟩
  | .litOff k => ⟨ea (adj k), none⟩
  | .postMod d => ⟨ea plain, some (ptr (adj d))⟩

/-! ### Reading the source operand of MOV (R213) -/

/-- A source operand or a prefetch after its read: the value on the bus, the trap it raised, the
registers it updates. -/
structure Fetched where
  v : Word
  err : Option AddressError
  ups : Updates
  deriving DecidableEq, Repr

/-- A pointer's update as a list. -/
def Gen.ups (g : Gen) (n : Reg) : Updates := (g.upd.map fun v => (n, v)).toList

/-- The trap of a read at `ea`. -/
def readError (ea : Word) (trap : Bool) : Option AddressError :=
  if trap then some ⟨ea, .read⟩ else none

/-- An MCU class read through a generated address. -/
def fetchMcu (s : State) (size : Size) (n : Reg) (g : Gen) : Part Fetched :=
  andThen (rdMcu s size g.ea) fun r => .next ⟨r.v, readError g.ea r.trap, g.ups n⟩

/-- The source operand of `MOV Ws, Wd` (R213): a register, or an indirect read on the `XR` path under
the hazards (R258). `shared` says that the destination operand modifies a register it names. -/
def fetchSource (s : State) (size : Size) (src : Operand) (shared : Bool) : Part Fetched :=
  let isOpen := shared || hazardHits s src.regs
  match src with
  | .reg n => .next ⟨if shared then Config.freeWord .srcValue s.draws else s.w n, none, []⟩
  | .ptr m n => fetchMcu s size n (eaGen s .xr (.ptr m) n size isOpen)
  | .idx n b => fetchMcu s size n (eaGen s .xr (.regOff b) n size isOpen)

/-! ### Completing a statement -/

/-- The state after the write of a statement whose read trapped: whether the write is still made is open
(R235), and one to a register the spec does not describe leaves no trace in the state (R128). -/
def writeAfterTrap (s : State) (size : Size) (ea v : Word) : State :=
  if Config.freeChoice .writeAfterTrap s.draws then
    match wr s size ea v with
    | .next r => r.s
    | .fault _ => s
    | .refused _ => s
  else s

/-- The trap of the write alone, where the read delivered nothing the model knows (a byte that nothing has
written, a register not described): the address error trap of the write occurs all the same (R231, R232). -/
def writeTrapOr (s : State) (size : Size) (ea : Word) (named : List Reg) (stop : Part State) :
    Part State :=
  if writeTraps s size ea then .next (raiseAddressError s ⟨ea, .write⟩ named) else stop

/-- The write phase at `ea` after the read phase `p`, and the register updates. The first trap in the order
read, write is the one taken and recorded (R239). `s` is the state the statement writes, `named` the
registers it names. -/
def finishStore (s : State) (size : Size) (ea : Word) (p : Part Fetched) (ups : Updates)
    (named : List Reg) : Part State :=
  match p with
  | .next f =>
    match f.err with
    | none =>
      andThen (wr s size ea f.v) fun r =>
        if r.trap then .next (raiseAddressError r.s ⟨ea, .write⟩ named)
        else .next (commit r.s (f.ups ++ ups))
    | some e => .next (raiseAddressError (writeAfterTrap s size ea f.v) e named)
  | .fault r => writeTrapOr s size ea named (.fault r)
  | .refused r => writeTrapOr s size ea named (.refused r)

/-- A register destination: it and the updated pointers are written, or the trap of the read is taken. -/
def finishRegs (s : State) (f : Fetched) (ups : Updates) (named : List Reg) : Part State :=
  match f.err with
  | none => .next (commit s (f.ups ++ ups))
  | some e => .next (raiseAddressError s e named)

/-! ### File register operands (R151, R223) -/

/-- The address a 13-bit file register field names (R151). No row of the table has one. -/
def nearEa (f : BitVec 13) : Word := f.setWidth 16

/-- The read of a file register instruction (R223): an MCU class read, not indirect. -/
def readNear (s : State) (size : Size) (f : BitVec 13) : Part Got := rdMcu s size (nearEa f)

/-- The write of a file register instruction (R223). -/
def writeNear (s : State) (size : Size) (f : BitVec 13) (v : Word) : Part Put :=
  wr s size (nearEa f) v

end Sys2Proof.Machine
end

