-- ==== Sys2Proof/Machine/Control.lean ====
section
/-! DEFINITION. NOP, REPEAT, POP and the four instructions the source only names (44_named_instructions
R215 to R221). -/

namespace Sys2Proof.Machine

/-- `NOP` (R215): the hazard window is emptied, nothing else changes. -/
def execNop (s : State) : Part State := .next s.closeWindow

/-- `REPEAT #lit14` (R216): the next statement is executed `lit + 1` times, so `lit` further times after
the first; `advance` counts them. Under a REPEAT it is refused (D26). -/
def execRepeat (lit : BitVec 14) (s : State) : Part State :=
  if s.rep = 0 then .next { s.closeWindow with rep := lit.toNat } else .refused .nestedRepeat

/-- `POP f` (R217): the word at the top of the stack, read by an implicit indirect read, is written to
`f`; a write to a control register like any other. Which register the read goes through and in which of
the bracketed modes (R12) are parameters (log 8); for the hazards it reads through every register
(R224). -/
def execPop (f : Word) (s : State) : Part State :=
  finishStore s.closeWindow .word f
    (fetchMcu s .word s.par.popReg
      (eaGen s .xr (.ptr s.par.popMode) s.par.popReg .word (hazardHits s (List.finRange 16))))
    [] [s.par.popReg]

/-- `RETURN` (R218): no effect stated; "Its control transfer is not in the source; the model refuses to
execute it". -/
def execRet (_s : State) : Part State := .refused (.noEffectStated "RETURN")

/-- `RETFIE` (R219): no effect stated; "The model refuses to execute it". -/
def execRetfie (_s : State) : Part State := .refused (.noEffectStated "RETFIE")

/-- `RETLW` (R220): no effect stated; "The model refuses to execute it". -/
def execRetlw (_size : Size) (_lit : BitVec 10) (_d : Reg) (_s : State) : Part State :=
  .refused (.noEffectStated "RETLW")

/-- `ULNK` (R221): no effect stated; "The model refuses to execute it". -/
def execUlnk (_s : State) : Part State := .refused (.noEffectStated "ULNK")

end Sys2Proof.Machine
end

