-- ==== Sys2Proof/Machine/Dsp.lean ====
section
/-! DEFINITION. MAC, the DSP class instruction of the table (44_named_instructions R222): its data
accesses as the spec gives them, its arithmetic a free accumulator content (log 2). -/

namespace Sys2Proof.Machine

/-- The content of an accumulator (10_state R23). -/
def State.acc (s : State) (x : Acc) : Nat :=
  match x with
  | .a => s.accA
  | .b => s.accB

/-- An accumulator gets a content. -/
def State.setAcc (s : State) (x : Acc) (v : Nat) : State :=
  match x with
  | .a => { s with accA := v }
  | .b => { s with accB := v }

/-- The accumulator an instruction does not target. -/
def otherAcc (x : Acc) : Acc :=
  match x with
  | .a => .b
  | .b => .a

/-- The byte offset of a prefetch operation, drawn where the parameters give none. -/
def prefetchOffset (s : State) (path : Path) (o : PrefetchOp) : Int :=
  o.offset.getD (Config.freeWord (.offset path) s.draws).toInt

/-- Where a prefetch reads and what its pointer becomes (R150): post-modification on its path, under the
hazards for its own pointer (R258) and, on the `Y` path, a reserved YWM (R32). -/
def prefetchGen (s : State) (path : Path) (o : PrefetchOp) : Gen :=
  eaGen s path (.postMod (prefetchOffset s path o)) (o.pointer path) .word
    (hazardHits s [o.pointer path] || (path == .y && yReserved s))

/-- The read primitive of a prefetch path: X space or Y space (R124, R125). -/
def rdDsp (s : State) (path : Path) (ea : Word) : Part Got :=
  match path with
  | .y => rdY s ea
  | _ => rdX s ea

/-- One prefetch: the word read goes to `dest`, the pointer is modified; nothing when the operation is
none. -/
def prefetch (s : State) (path : Path) (op : Option PrefetchOp) (dest : Reg) : Part Fetched :=
  match op with
  | none => .next ⟨0#16, none, []⟩
  | some o =>
    let g := prefetchGen s path o
    andThen (rdDsp s path g.ea) fun r =>
      .next ⟨r.v, readError g.ea r.trap, (dest, r.v) :: g.ups (o.pointer path)⟩

/-- A prefetch of this instruction has W13, the write-back pointer, as its destination. -/
def prefetchesTo13 (p : Params) (x y : BitVec 2) (i j : BitVec 4) : Bool :=
  (p.xOps[i.toFin].isSome && p.xDest[x.toFin] == 13) || (p.yOps[j.toFin].isSome && p.yDest[y.toFin] == 13)

/-- Where the write back stores and what it makes of W13 (R126, R222); open when a prefetch writes W13
(D31). -/
def writeBackGen (s : State) (m : PtrMode) (x y : BitVec 2) (i j : BitVec 4) : Gen :=
  eaGen s .xw (.ptr m) 13 .word (prefetchesTo13 s.par x y i j)

/-- The trap a read phase raised. -/
def trapOf (p : Part Fetched) : Option AddressError :=
  match p with
  | .next f => f.err
  | .fault _ => none
  | .refused _ => none

/-- The read phase of a DSP class statement, from its X read and its Y read, with the value its write back
stores. The first trap in the order X, Y is taken (R239), whatever stops the other read: each read's address
error trap occurs on its own (R231, R232). -/
def bothReads (x y : Part Fetched) (v : Word) : Part Fetched :=
  match (trapOf x).or (trapOf y) with
  | some e => .next ⟨v, some e, []⟩
  | none => andThen x fun fx => andThen y fun fy => .next ⟨v, none, fx.ups ++ fy.ups⟩

/-- The registers a prefetch operation names: its destination, its pointer, and an offset register where it has
no constant offset. -/
def prefetchNamed (p : Params) (path : Path) (op : Option PrefetchOp) (dest : Reg) : List Reg :=
  match op with
  | none => []
  | some o => dest :: o.pointer path :: (if o.offset.isNone then [p.offsetReg] else [])

/-- The registers a MAC names, which its trap leaves open (60_exceptions R235): its multiplicands (log 12),
those of the prefetches it has, and W13 when it writes back (R222). -/
def macNamed (p : Params) (m : BitVec 3) (x y : BitVec 2) (i j : BitVec 4) (wb : BitVec 2) : List Reg :=
  p.factors[m.toFin] ++ prefetchNamed p .xr p.xOps[i.toFin] p.xDest[x.toFin] ++
    prefetchNamed p .y p.yOps[j.toFin] p.yDest[y.toFin] ++
    (if p.writeBack[wb.toFin].isSome then [13] else [])

/-- A MAC after its X read `rx` and its Y read `ry`: the accumulator not targeted is written back through W13
(R126), its stored 16 bits a free value; the targeted accumulator gets a free content. -/
def finishMac (m : BitVec 3) (acc : Acc) (x y : BitVec 2) (i j : BitVec 4) (wb : BitVec 2) (s : State)
    (rx ry : Part Fetched) : Part State :=
  let c := s.closeWindow.setAcc acc (Config.freeContent s.draws)
  let f := bothReads rx ry (Config.accStored (s.acc (otherAcc acc)) s.draws)
  match s.par.writeBack[wb.toFin] with
  | none => andThen f fun f => finishRegs c f [] (macNamed s.par m x y i j wb)
  | some md =>
    let g := writeBackGen s md x y i j
    finishStore c .word g.ea f (g.ups 13) (macNamed s.par m x y i j wb)

/-- `MAC` (R222): both prefetches read the same memory, before the write back. -/
def execMac (m : BitVec 3) (acc : Acc) (x y : BitVec 2) (i j : BitVec 4) (wb : BitVec 2)
    (s : State) : Part State :=
  finishMac m acc x y i j wb s
    (prefetch s .xr s.par.xOps[i.toFin] s.par.xDest[x.toFin])
    (prefetch s .y s.par.yOps[j.toFin] s.par.yDest[y.toFin])

end Sys2Proof.Machine
end

