-- ==== Sys2Proof/Machine/Move.lean ====
section
/-! DEFINITION. The six rows of MOV (44_named_instructions R210 to R214). None writes a flag (R25). -/

namespace Sys2Proof.Machine

/-- `MOV #lit16, Wnd` (R210): the literal is loaded; no data-space access. -/
def execMovLit (lit : Word) (d : Reg) (s : State) : Part State :=
  .next (s.closeWindow.setW d lit)

/-- `MOV f, Wnd` (R212): a direct word read, not indirect, so no hazard applies (R152). -/
def execMovLoad (f : Word) (d : Reg) (s : State) : Part State :=
  andThen (rdW s f) fun r =>
    finishRegs s.closeWindow ⟨r.v, readError f r.trap, []⟩ [(d, r.v)] [d]

/-- `MOV Wns, f` (R211): a direct word write. -/
def execMovStore (n : Reg) (f : Word) (s : State) : Part State :=
  finishStore s.closeWindow .word f (.next ⟨s.w n, none, []⟩) [] [n]

/-- `MOV{.B} Ws, Wd` (R213): the read phase, then the write phase (20_memory R78). -/
def execMov (size : Size) (src dst : Operand) (s : State) : Part State :=
  let f := fetchSource s size src (src.shares dst)
  match dst with
  | .reg d =>
    andThen f fun f =>
      finishRegs s.closeWindow f [(d, regResult s size f.v)] (src.regs ++ dst.regs)
  | .ptr m d =>
    let g := eaGen s .xw (.ptr m) d size (dst.shares src)
    finishStore s.closeWindow size g.ea f (g.ups d) (src.regs ++ dst.regs)
  | .idx d b =>
    let g := eaGen s .xw (.regOff b) d size (dst.shares src)
    finishStore s.closeWindow size g.ea f (g.ups d) (src.regs ++ dst.regs)

/-- `MOV{.B} [Ws + lit10], Wnd` (R214): an indirect read; the pointer is not changed. -/
def execMovLoadOff (size : Size) (p : Reg) (k : Int) (d : Reg) (s : State) : Part State :=
  andThen (fetchMcu s size p (eaGen s .xr (.litOff k) p size (hazardHits s [p]))) fun f =>
    finishRegs s.closeWindow f [(d, regResult s size f.v)] [p, d]

/-- `MOV{.B} Wns, [Wd + lit10]` (R214): an indirect write, never affected by a hazard (R258 c). -/
def execMovStoreOff (size : Size) (n p : Reg) (k : Int) (s : State) : Part State :=
  finishStore s.closeWindow size (eaGen s .xw (.litOff k) p size false).ea
    (.next ⟨s.w n, none, []⟩) [] [n, p]

end Sys2Proof.Machine
end

