-- ==== Sys2Proof/Machine/Dispatch.lean ====
section
/-! DEFINITION. `exec`: one arm per row of spec/opcode_table.json. -/

namespace Sys2Proof.Machine

/-- The meaning of each instruction, the statement index aside (`step` moves it). -/
def exec (i : Instr) (s : State) : Host.Outcome State Fault Refusal :=
  match i with
  | .movLit lit d => Sys2Proof.Machine.execMovLit lit d s
  | .movLoad f d => Sys2Proof.Machine.execMovLoad f d s
  | .movStore n f => Sys2Proof.Machine.execMovStore n f s
  | .mov size src dst => Sys2Proof.Machine.execMov size src dst s
  | .movLoadOff size p k d => Sys2Proof.Machine.execMovLoadOff size p k d s
  | .movStoreOff size n p k => Sys2Proof.Machine.execMovStoreOff size n p k s
  | .nop => Sys2Proof.Machine.execNop s
  | .repeatLit lit => Sys2Proof.Machine.execRepeat lit s
  | .pop f => Sys2Proof.Machine.execPop f s
  | .ret => Sys2Proof.Machine.execRet s
  | .retfie => Sys2Proof.Machine.execRetfie s
  | .retlw size lit d => Sys2Proof.Machine.execRetlw size lit d s
  | .ulnk => Sys2Proof.Machine.execUlnk s
  | .mac m acc x y i' j wb => Sys2Proof.Machine.execMac m acc x y i' j wb s

end Sys2Proof.Machine
end

