-- ==== Sys2Proof/Machine/Run.lean ====
section
/-! DEFINITION. Running one statement that has been fetched. -/

namespace Sys2Proof.Machine

/-- Execute a decoded statement and move on; a word that is no instruction is refused (30_encoding
R106). -/
def runDecoded (s : State) (r : Except Reject Instr) : Host.Outcome State Fault Refusal :=
  match r with
  | .ok i => andThen (exec i s) fun t => .next (advance s t)
  | .error (.noRow w) => .refused (.notAnInstruction w)

/-- Fetch the current statement and run it; past the last statement the run has ended
(70_reset_and_hazards R264). -/
def runCurrent (s : State) : Host.Outcome State Fault Refusal :=
  match s.fetch with
  | none => .refused .programEnded
  | some w => runDecoded s (decode w)

end Sys2Proof.Machine
end

