-- ==== Sys2Proof/Machine/Step.lean ====
section
/-! DEFINITION. One step: fetch the current statement, decode it, execute it, move on. -/

namespace Sys2Proof.Machine

/-- One step (10_state R24). A state whose fault mark is set takes none and answers the fault
(60_exceptions R236). -/
def step (s : State) : Host.Outcome State Fault Refusal :=
  match trapOutcome s with
  | some r => .fault r
  | none => runCurrent s

/-- The state with an instruction word of the table as its current statement. -/
def State.withFetchWord (s : State) (nbits w : Nat) : State :=
  { s with prog := placeWord s.prog s.pc (BitVec.ofNat 24 (w % 2 ^ nbits)) }

end Sys2Proof.Machine
end

