-- ==== Sys2Proof/Safety.lean ====
section
/-! DEFINITION. The terms the claims use: what the parameters must meet, the invariant of the machine, an
accessible word or byte, plain addressing, and what a statement leaves alone. -/

namespace Sys2Proof

/-- The six control registers. -/
def CtrlReg.list : List CtrlReg := [.modcon, .xmodsrt, .xmodend, .ymodsrt, .ymodend, .xbrev]

/-- What the spec requires of the register addresses (00_scope R8, D4): even, in 0x0000..0x07FE, pairwise
distinct. -/
def Params.addrsOk (p : Params) : Bool :=
  (CtrlReg.list.all fun r => p.ctrlAddr r ≤ 0x07FE#16 && !(p.ctrlAddr r).getLsbD 0) &&
    decide (CtrlReg.list.map p.ctrlAddr).Nodup

/-- The memory map as 00_scope R8 has it: word addresses, X RAM starting at 0x0800, one Y block following it,
not necessarily without a gap. -/
def Params.mapOk (p : Params) : Bool :=
  !p.map.xEnd.getLsbD 0 && !p.map.yStart.getLsbD 0 && !p.map.yEnd.getLsbD 0 &&
    decide (0x0800#16 ≤ p.map.xEnd ∧ p.map.xEnd < p.map.yStart ∧ p.map.yStart ≤ p.map.yEnd)

/-- The address a pointer mode uses under plain addressing, from pointer `p` and the step of the operand
size (41_addressing_modes R143 to R147). -/
def PtrMode.plainEa (m : PtrMode) (p step : Word) : Word :=
  match m with
  | .ind => p
  | .postDec => p
  | .postInc => p
  | .preDec => p - step
  | .preInc => p + step

/-- The pointer a pointer mode leaves under plain addressing. -/
def PtrMode.plainNext (m : PtrMode) (p step : Word) : Word :=
  match m with
  | .ind => p
  | .postDec => p - step
  | .postInc => p + step
  | .preDec => p - step
  | .preInc => p + step

/-- The signed byte offset of a pointer mode, by the step of the operand size (R141). -/
def PtrMode.delta (m : PtrMode) (step : Int) : Int :=
  match m with
  | .ind => 0
  | .postDec => -step
  | .postInc => step
  | .preDec => -step
  | .preInc => step

/-- The address a pointer mode uses, from the pointer before and after its modification: the new one in the
pre-modification modes (R146, R147). -/
def PtrMode.usedEa (m : PtrMode) (old new : Word) : Word :=
  match m with
  | .ind => old
  | .postDec => old
  | .postInc => old
  | .preDec => new
  | .preInc => new

/-- The step of an operand size in bytes (R142). -/
def Size.step (size : Size) : Word :=
  match size with
  | .word => 2#16
  | .byte => 1#16

/-- The bit reversal of the low `n` bits of `i` (43_bit_reversed_addressing R190). -/
def bitReversal (n i : Nat) : Nat := (BitVec.ofNat n i).reverse.toNat

end Sys2Proof

namespace Sys2Proof.Machine

/-- `revAdd` applied `k` times (R195). -/
def revAddTimes (xb : BitVec 15) (k : Nat) (p : Word) : Word :=
  match k with
  | 0 => p
  | k + 1 => revAdd (revAddTimes xb k p) xb

/-- The word lies in X or Y RAM. -/
def inRam (s : State) (ea : Word) : Prop := region s.par ea = .x ∨ region s.par ea = .y

/-- An aligned word of RAM that holds a value. -/
def holdsWord (s : State) (a v : Word) : Prop :=
  misaligned a = false ∧ inRam s a ∧ s.wordAt a = some v

/-- A byte of RAM that holds a value. -/
def holdsByte (s : State) (a : Word) (b : Byte) : Prop := inRam s a ∧ s.byteAt a = some b

/-- What an MCU class word read delivers without a trap: an aligned word of RAM, or a control register at its
address (40_data_space_access R120, R128). -/
def deliversWord (s : State) (a v : Word) : Prop :=
  holdsWord s a v ∨ ∃ r : CtrlReg, s.par.addrsOk = true ∧ a = s.par.ctrlAddr r ∧ v = s.ctrl r

/-- What an MCU class byte read delivers without a trap: a byte of RAM, or either byte of a control register
(R121, R128; the byte rule is the spec's inference D22). -/
def deliversByte (s : State) (a : Word) (b : Byte) : Prop :=
  holdsByte s a b ∨ ∃ r : CtrlReg, s.par.addrsOk = true ∧
    ((a = s.par.ctrlAddr r ∧ b = (s.ctrl r).extractLsb' 0 8) ∨
      (a = s.par.ctrlAddr r + 1#16 ∧ b = (s.ctrl r).extractLsb' 8 8))

/-- `t` is `s` after a word write of `v` at `a` without a trap: an aligned word of RAM stored, or a control
register written, which opens its hazard window (R122, R128, 10_state R42, 70_reset_and_hazards R258 a). -/
def storesWord (s : State) (a v : Word) (t : State) : Prop :=
  (misaligned a = false ∧ inRam s a ∧ t = s.setWord a v) ∨
    ∃ r : CtrlReg, s.par.addrsOk = true ∧ a = s.par.ctrlAddr r ∧ t = s.writeCtrl r v

/-- `t` is `s` after a byte write of `b` at `a` without a trap: a byte of RAM stored, or either byte of a
control register replaced (R123, R128, R258 a). -/
def storesByte (s : State) (a : Word) (b : Byte) (t : State) : Prop :=
  (inRam s a ∧ t = s.setByte a b) ∨
    ∃ r : CtrlReg, s.par.addrsOk = true ∧
      ((a = s.par.ctrlAddr r ∧ t = s.writeCtrl r ((s.ctrl r).extractLsb' 8 8 ++ b)) ∨
        (a = s.par.ctrlAddr r + 1#16 ∧ t = s.writeCtrl r (b ++ (s.ctrl r).extractLsb' 0 8)))

/-- What an MCU class read of this size delivers without a trap; a byte is the low byte of `v`. -/
def delivers (s : State) (size : Size) (a v : Word) : Prop :=
  match size with
  | .word => deliversWord s a v
  | .byte => deliversByte s a (v.extractLsb' 0 8)

/-- `t` is `s` after a write of this size of `v`, a byte being its low byte, at `a` without a trap. -/
def stores (s : State) (size : Size) (a v : Word) (t : State) : Prop :=
  match size with
  | .word => storesWord s a v t
  | .byte => storesByte s a (v.extractLsb' 0 8) t

/-- A word read at `a` on the `XR` path takes the address error trap: the word is unimplemented, or the address
is odd, in RAM or in a control register (60_exceptions R231, R232). -/
def wordReadTraps (s : State) (a : Word) : Prop :=
  region s.par a = .unimpl ∨
    (misaligned a = true ∧ (region s.par a ≠ .sfr ∨ ∃ r : CtrlReg, s.par.ctrlAddr r = wordAddr a))

/-- A read of this size at `a` on the `XR` path takes the address error trap: a byte's only where its word is
unimplemented, since a byte access is never misaligned (R231, R232). -/
def readTraps (s : State) (size : Size) (a : Word) : Prop :=
  match size with
  | .word => wordReadTraps s a
  | .byte => region s.par a = .unimpl

/-- An access of this size at `a` that is neither misaligned nor unimplemented: no cause of the trap is there,
whatever the access delivers (R231, R232). -/
def inPlace (s : State) (size : Size) (a : Word) : Prop :=
  (size = .word → misaligned a = false) ∧ region s.par a ≠ .unimpl

/-- What a DSP read of X space at an aligned, implemented address delivers: the word, zero in Y space
(20_memory R71), or a control register at its address (40_data_space_access R124; the spec's inference
D24). -/
def dspXReads (s : State) (a v : Word) : Prop :=
  (misaligned a = false ∧
    ((region s.par a = .x ∧ s.wordAt a = some v) ∨ (region s.par a = .y ∧ v = 0#16))) ∨
    ∃ r : CtrlReg, s.par.addrsOk = true ∧ a = s.par.ctrlAddr r ∧ v = s.ctrl r

/-- What a DSP read of Y space at an aligned, implemented address delivers: the word, or zero in X or SFR
space (R71). -/
def dspYReads (s : State) (a v : Word) : Prop :=
  misaligned a = false ∧
    ((region s.par a = .y ∧ s.wordAt a = some v) ∨
      ((region s.par a = .x ∨ region s.par a = .sfr) ∧ v = 0#16))

/-- `2^k` is the least power of two not below the buffer length `l` (42_modulo_addressing R165). -/
def leastPowerFor (l k : Nat) : Prop := l ≤ 2 ^ k ∧ ∀ j < k, 2 ^ j < l

/-- A modulo buffer `srt` to `fin` takes its pointer from `p` by the signed byte offset `d` to `q`: in an
incrementing buffer, whose start meets its power-of-two boundary (R165), to the sum, or one length back where
that passed the end; in a decrementing one, whose end meets its boundary (R166), to the sum, or one length on
where that passed the start; by at most one length beyond (R170, R172). -/
def moduloStep (srt fin p : Word) (d : Int) (q : Word) : Prop :=
  srt.toNat < fin.toNat ∧ srt.toNat ≤ p.toNat ∧ p.toNat ≤ fin.toNat ∧
  0 ≤ (p.toNat : Int) + d ∧ (p.toNat : Int) + d ≤ 0xFFFF ∧
  ∃ k, leastPowerFor (fin.toNat - srt.toNat + 1) k ∧
    ((0 ≤ d ∧ srt.toNat % 2 ^ k = 0 ∧
        (p.toNat : Int) + d - fin.toNat ≤ (fin.toNat : Int) - srt.toNat + 1 ∧
        (q.toNat : Int) = if (fin.toNat : Int) < p.toNat + d
          then (p.toNat : Int) + d - ((fin.toNat : Int) - srt.toNat + 1) else (p.toNat : Int) + d) ∨
      (d ≤ 0 ∧ (fin.toNat + 1) % 2 ^ k = 0 ∧
        (srt.toNat : Int) - (p.toNat + d) ≤ (fin.toNat : Int) - srt.toNat + 1 ∧
        (q.toNat : Int) = if (p.toNat : Int) + d < srt.toNat
          then (p.toNat : Int) + d + ((fin.toNat : Int) - srt.toNat + 1) else (p.toNat : Int) + d))

/-- A pointer selected for modulo addressing on the X paths lies in the X buffer (R174). -/
def xPointerInside (s : State) (n : Reg) : Prop :=
  xModActive s n = true → s.xmodsrt ≤ s.w n ∧ s.w n ≤ s.xmodend

/-- A pointer selected for modulo addressing on the Y path lies in the Y buffer (R174). -/
def yPointerInside (s : State) (n : Reg) : Prop :=
  yModActive s n = true → s.ymodsrt ≤ s.w n ∧ s.w n ≤ s.ymodend

/-- No correction acts on a read through `n` on the `XR` path (R153). -/
def plainRead (s : State) (n : Reg) : Prop := xModActive s n = false

/-- No correction acts on a write of this size through `n` in the mode `m` on the `XW` path: modulo addressing is
off for `n`, and bit-reversed addressing is off for it or does not function, on a byte or in a mode that does not
increment (R153, 43_bit_reversed_addressing R192). -/
def plainWrite (s : State) (n : Reg) (size : Size) (m : PtrMode) : Prop :=
  xModActive s n = false ∧
    (bitRevActive s n = false ∨ size = .byte ∨ (m ≠ .postInc ∧ m ≠ .preInc))

/-! ### The address and the pointer that the spec fixes for an access on an X path -/

/-- XB is one of the fifteen listed modifiers (R197). -/
def listedModifier (s : State) : Prop := ∃ j < 15, s.xb = BitVec.ofNat 15 (2 ^ j)

/-- Bit-reversed addressing takes the access: a word write with post- or pre-increment through its pointer
(R192). -/
def bitReversedWrite (s : State) (path : Path) (n : Reg) (size : Size) (mode : Mode) : Prop :=
  path = .xw ∧ bitRevActive s n = true ∧ size = .word ∧
    (mode = .ptr .postInc ∨ mode = .ptr .preInc)

/-- A step of the signed byte offset `d` from `W[n]` on an X path gives `q`: the reverse-carry sum with a listed
modifier in a bit-reversed write (R193, R199); else the plain sum where modulo addressing is off for `n` (R153);
else the step of the X buffer (R169, R170), where a write through a register that is the bit-reversed pointer too
has no offset (R200). -/
def xStep (s : State) (path : Path) (n : Reg) (size : Size) (mode : Mode) (d : Int) (q : Word) : Prop :=
  (bitReversedWrite s path n size mode ∧ listedModifier s ∧ q = revAdd (s.w n) s.xb) ∨
  (¬ bitReversedWrite s path n size mode ∧
    ((xModActive s n = false ∧ q = s.w n + BitVec.ofInt 16 d) ∨
      (xModActive s n = true ∧ (path = .xr ∨ bitRevActive s n = false ∨ d = 0) ∧
        moduloStep s.xmodsrt s.xmodend (s.w n) d q)))

/-- A pointer mode through `n` on an X path uses `ea`, its step giving `q` (R141, R143 to R147). -/
def xPointer (s : State) (path : Path) (n : Reg) (size : Size) (m : PtrMode) (ea q : Word) : Prop :=
  xStep s path n size (.ptr m) (m.delta size.bytes) q ∧ ea = m.usedEa (s.w n) q

/-- A memory operand on an X path has the address `ea` and makes the pointer updates `us`, as the spec fixes them:
plain, in the X buffer or by reverse-carry addition. The index of an indexed operand is not the register selected
for modulo addressing, unless its pointer is (R148). -/
def operandStep (s : State) (path : Path) (size : Size) (o : Operand) (ea : Word) (us : Updates) : Prop :=
  match o with
  | .reg _ => False
  | .ptr m n => ∃ q, xPointer s path n size m ea q ∧ us = if m = .ind then [] else [(n, q)]
  | .idx n b =>
    (xModActive s b = true → xModActive s n = true) ∧
      xStep s path n size (.regOff b) (s.w b).toInt ea ∧ us = []

/-- A source operand gives `v` and makes the pointer updates `us`: a register's content, or what the read at its
address delivers, under no hazard (R213, R258). -/
def sourceStep (s : State) (size : Size) (src : Operand) (v : Word) (us : Updates) : Prop :=
  match src with
  | .reg n => v = s.w n ∧ us = []
  | o => hazardHits s o.readPointers = false ∧
    ∃ ea, operandStep s .xr size o ea us ∧ delivers s size ea v

/-- The state with registers written. -/
def State.setRegs (s : State) (us : Updates) : State := us.foldl (fun t u => t.setW u.1 u.2) s

/-- The control registers keep their fixed bits (R30, R35 to R38). -/
def fixedBits (s : State) : Prop := ∀ r : CtrlReg, r.fix (s.ctrl r) = s.ctrl r

/-- Every byte that holds a value is a byte of provided RAM (R40). -/
def ramOnly (s : State) : Prop :=
  ∀ c ∈ s.mem, 0x0800 ≤ c.1 ∧ c.1 < 65536 ∧ s.par.impl (wordAddr (BitVec.ofNat 16 c.1)) = true

/-- The invariant of the machine: memory canonical and inside the provided RAM, the fixed bits of the
control registers, at most one control register in the hazard window (a statement makes at most one
write), a REPEAT count of 14 bits. -/
def Inv (s : State) : Prop :=
  s.mem.wf ∧ ramOnly s ∧ fixedBits s ∧ s.haz.length ≤ 1 ∧ s.rep < 2 ^ 14

/-- Every control register is unchanged. -/
def sameCtrl (s t : State) : Prop := ∀ r : CtrlReg, t.ctrl r = s.ctrl r

/-- Every byte of data memory reads as before. -/
def sameBytes (s t : State) : Prop := ∀ a : Word, t.byteAt a = s.byteAt a

/-- Every byte outside those a store of this size at `ea` writes reads as before. -/
def sameBytesBut (s t : State) (size : Size) (ea : Word) : Prop :=
  ∀ a : Word, a ≠ ea → (size = .word → a ≠ ea + 1#16) → t.byteAt a = s.byteAt a

/-- Every control register but the one at the word of `ea` is unchanged. -/
def sameCtrlBut (s t : State) (ea : Word) : Prop :=
  ∀ r : CtrlReg, s.par.ctrlAddr r ≠ wordAddr ea → t.ctrl r = s.ctrl r

/-- Every W register outside the list is unchanged. -/
def sameRegsBut (s t : State) (ns : List Reg) : Prop := ∀ n : Reg, n ∉ ns → t.w n = s.w n

/-- Both accumulators are unchanged. -/
def sameAccs (s t : State) : Prop := t.accA = s.accA ∧ t.accB = s.accB

/-- The registers a MAC writes: the destinations and pointers of its prefetches, and W13 when the write back
modifies it (44_named_instructions R222). -/
def macUpdates (p : Params) (x y : BitVec 2) (i j : BitVec 4) (wb : BitVec 2) : List Reg :=
  (match p.xOps[i.toFin] with
    | some o => [p.xDest[x.toFin], o.pointer .xr]
    | none => []) ++
  (match p.yOps[j.toFin] with
    | some o => [p.yDest[y.toFin], o.pointer .y]
    | none => []) ++
  (match p.writeBack[wb.toFin] with
    | some m => (Operand.ptr m 13).modifies.toList
    | none => [])

/-- The destination register of the instructions that have one, and the pointer their source operand
modifies: `MOV #lit,Wnd`, `MOV f,Wnd`, `MOV Ws,Wnd`, `MOV [Ws+lit10],Wnd`. -/
def registerForm (i : Instr) : Option (Reg × List Reg) :=
  match i with
  | .movLit _ d => some (d, [])
  | .movLoad _ d => some (d, [])
  | .movStore _ _ => none
  | .mov _ src (.reg d) => some (d, src.modifies.toList)
  | .mov _ _ (.ptr _ _) => none
  | .mov _ _ (.idx _ _) => none
  | .movLoadOff _ _ _ d => some (d, [])
  | .movStoreOff _ _ _ _ => none
  | .nop => none
  | .repeatLit _ => none
  | .pop _ => none
  | .ret => none
  | .retfie => none
  | .retlw _ _ _ => none
  | .ulnk => none
  | .mac _ _ _ _ _ _ _ => none

/-- What the storing forms of MOV and POP store: the size, the address as their meaning generates it, and
the registers they update. -/
def storeForm (i : Instr) (s : State) : Option (Size × Word × List Reg) :=
  match i with
  | .movLit _ _ => none
  | .movLoad _ _ => none
  | .movStore _ f => some (.word, f, [])
  | .mov _ _ (.reg _) => none
  | .mov size src (.ptr m d) =>
    some (size, (eaGen s .xw (.ptr m) d size ((Operand.ptr m d).shares src)).ea,
      src.modifies.toList ++ (Operand.ptr m d).modifies.toList)
  | .mov size src (.idx d b) =>
    some (size, (eaGen s .xw (.regOff b) d size ((Operand.idx d b).shares src)).ea,
      src.modifies.toList)
  | .movLoadOff _ _ _ _ => none
  | .movStoreOff size _ p k => some (size, (eaGen s .xw (.litOff k) p size false).ea, [])
  | .nop => none
  | .repeatLit _ => none
  | .pop f => some (.word, f, (Operand.ptr s.par.popMode s.par.popReg).modifies.toList)
  | .ret => none
  | .retfie => none
  | .retlw _ _ _ => none
  | .ulnk => none
  | .mac _ _ _ _ _ _ _ => none

/-- The accumulator a statement targets: MAC's alone. -/
def targetAcc (i : Instr) : Option Acc :=
  match i with
  | .movLit _ _ => none
  | .movLoad _ _ => none
  | .movStore _ _ => none
  | .mov _ _ _ => none
  | .movLoadOff _ _ _ _ => none
  | .movStoreOff _ _ _ _ => none
  | .nop => none
  | .repeatLit _ => none
  | .pop _ => none
  | .ret => none
  | .retfie => none
  | .retlw _ _ _ => none
  | .ulnk => none
  | .mac _ acc _ _ _ _ _ => some acc

/-- The size and the address of the write a statement makes, if it makes one, as its meaning generates it:
`storeForm` for MOV and POP, the write back for MAC. -/
def storeTarget (i : Instr) (s : State) : Option (Size × Word) :=
  match i with
  | .mac _ _ x y i j wb =>
    s.par.writeBack[wb.toFin].map fun m => (.word, (writeBackGen s m x y i j).ea)
  | i => (storeForm i s).map fun f => (f.1, f.2.1)

/-- The registers a statement names, which an address error leaves open (60_exceptions R235): its register
operands; for POP the pointer the parameters give (log 8), for MAC its multiplicands (log 12) and the registers
of its prefetches and of its write back. -/
def namedRegs (i : Instr) (p : Params) : List Reg :=
  match i with
  | .movLit _ d => [d]
  | .movLoad _ d => [d]
  | .movStore n _ => [n]
  | .mov _ src dst => src.regs ++ dst.regs
  | .movLoadOff _ p _ d => [p, d]
  | .movStoreOff _ n p _ => [n, p]
  | .nop => []
  | .repeatLit _ => []
  | .pop _ => [p.popReg]
  | .ret => []
  | .retfie => []
  | .retlw _ _ _ => []
  | .ulnk => []
  | .mac m _ x y i j wb => macNamed p m x y i j wb

/-- What no instruction's meaning touches: the statement index (`advance` moves it), the program text,
the parameters, the draw counter. -/
def sameFrame (s t : State) : Prop :=
  t.pc = s.pc ∧ t.prog = s.prog ∧ t.par = s.par ∧ t.draws = s.draws

/-- `t` is `s` after the address error trap of an access at `ea`: the mark holds the address and the kind of the
access; every W register but those the statement names, the accumulators and the frame are unchanged (R235,
R239). -/
def trapped (s t : State) (ea : Word) (kind : AccessKind) (named : List Reg) : Prop :=
  t.fault = some ⟨ea, kind⟩ ∧ sameRegsBut s t named ∧ sameAccs s t ∧ sameFrame s t

/-- No byte of memory and no control register has changed (R234). -/
def nothingStored (s t : State) : Prop := sameBytes s t ∧ sameCtrl s t

/-- Nothing has been stored but by a write of this size at `ea`, if one was made. -/
def nothingStoredBut (s t : State) (size : Size) (ea : Word) : Prop :=
  sameBytesBut s t size ea ∧ sameCtrlBut s t ea

/-! ### Reads whose address the spec does not fix, and the accesses of MAC -/

/-- The address a read or write on this path uses where the spec fixes none (70_reset_and_hazards R258 d,
42_modulo_addressing R174; log 10). -/
def openEa (s : State) (path : Path) : Word := Config.freeWord (.ea path) s.draws

/-- What a pointer mode leaves in its pointer where the spec fixes no address: nothing new, a free value, or the
free address itself (41_addressing_modes R141). -/
def openUpd (m : PtrMode) (s : State) (path : Path) : Option Word :=
  match m with
  | .ind => none
  | .postDec => some (Config.freeWord (.ptr path) s.draws)
  | .postInc => some (Config.freeWord (.ptr path) s.draws)
  | .preDec => some (openEa s path)
  | .preInc => some (openEa s path)

/-- A read through `n` on the `XR` path has no address the spec fixes: a hazard covers it, `ptrs` being the
registers the statement reads through (R258 d, 44_named_instructions R224), or `n` is a modulo pointer outside
its buffer (R174). -/
def xReadOpen (s : State) (n : Reg) (ptrs : List Reg) : Prop :=
  hazardHits s ptrs = true ∨ (xModActive s n = true ∧ ¬ xPointerInside s n)

/-- `n` is a modulo pointer of the X paths and the spec gives no result for a step of `d` bytes from `W[n]`:
against the buffer's direction, off its boundary, too far, or past the address space (R173, R174). -/
def xNoStep (s : State) (n : Reg) (d : Int) : Prop :=
  xModActive s n = true ∧ ∀ q, ¬ moduloStep s.xmodsrt s.xmodend (s.w n) d q

/-- The same of the Y path. -/
def yNoStep (s : State) (n : Reg) (d : Int) : Prop :=
  yModActive s n = true ∧ ∀ q, ¬ moduloStep s.ymodsrt s.ymodend (s.w n) d q

/-- The address of a pointer mode whose step has no result: the pointer itself in the post-modification modes,
which leave it free (`openUpd`), a free address in the others (R141). -/
def openStepEa (m : PtrMode) (s : State) (path : Path) (n : Reg) : Word :=
  match m with
  | .ind => openEa s path
  | .postDec => s.w n
  | .postInc => s.w n
  | .preDec => openEa s path
  | .preInc => openEa s path

/-- A read in the mode `m` through `n` on the `XR` path, of a statement that reads through `ptrs`, has no address
or no step that the spec fixes, and uses `ea`: a free address (R258 d, R174), or the one of a pointer inside its
buffer whose step has no result (R173). -/
def freeRead (s : State) (size : Size) (m : PtrMode) (n : Reg) (ptrs : List Reg) (ea : Word) : Prop :=
  (xReadOpen s n ptrs ∧ ea = openEa s .xr) ∨
    (hazardHits s ptrs = false ∧ xPointerInside s n ∧ xNoStep s n (m.delta size.bytes) ∧
      ea = openStepEa m s .xr n)

/-- The address of an indexed read is not fixed: no address at all, the index alone the register selected for
modulo addressing (R148), or a sum that the correction does not settle (R173). -/
def freeIndexedRead (s : State) (n b : Reg) : Prop :=
  xReadOpen s n [n, b] ∨ (xModActive s b = true ∧ xModActive s n = false) ∨ xNoStep s n (s.w b).toInt

/-- The same of a Y read through `n`, or YWM is reserved (10_state R32). -/
def yReadOpen (s : State) (n : Reg) : Prop :=
  hazardHits s [n] = true ∨ yReserved s = true ∨ (yModActive s n = true ∧ ¬ yPointerInside s n)

/-- The byte offset of a prefetch operation: the parameters' or, where they give none, a free one (log 7). -/
def prefetchDelta (o : PrefetchOp) (s : State) (path : Path) : Int :=
  o.offset.getD (Config.freeWord (.offset path) s.draws).toInt

/-- An X prefetch has no address or no step that the spec fixes, and reads at `ea`; its pointer ends free. -/
def freeXPrefetch (s : State) (o : PrefetchOp) (ea : Word) : Prop :=
  let n := o.pointer .xr
  (xReadOpen s n [n] ∧ ea = openEa s .xr) ∨
    (hazardHits s [n] = false ∧ xPointerInside s n ∧ xNoStep s n (prefetchDelta o s .xr) ∧ ea = s.w n)

/-- The same of a Y prefetch. -/
def freeYPrefetch (s : State) (o : PrefetchOp) (ea : Word) : Prop :=
  let n := o.pointer .y
  (yReadOpen s n ∧ ea = openEa s .y) ∨
    (hazardHits s [n] = false ∧ yReserved s = false ∧ yPointerInside s n ∧
      yNoStep s n (prefetchDelta o s .y) ∧ ea = s.w n)

/-- The updates an X prefetch makes without a hazard, from its operation and destination: none without an
operation; else the word it reads through its pointer, and the pointer's sum with the offset, plain or taken in
the X buffer (R150, R170, R222). -/
def xPrefetches (s : State) (op : Option PrefetchOp) (dest : Reg) (us : Updates) : Prop :=
  match op with
  | none => us = []
  | some o =>
    let n := o.pointer .xr
    ∃ v q, us = [(dest, v), (n, q)] ∧ hazardHits s [n] = false ∧ dspXReads s (s.w n) v ∧
      ((xModActive s n = false ∧ q = s.w n + BitVec.ofInt 16 (prefetchDelta o s .xr)) ∨
        (xModActive s n = true ∧ moduloStep s.xmodsrt s.xmodend (s.w n) (prefetchDelta o s .xr) q))

/-- The same for a Y prefetch and the Y buffer, YWM not reserved. -/
def yPrefetches (s : State) (op : Option PrefetchOp) (dest : Reg) (us : Updates) : Prop :=
  match op with
  | none => us = []
  | some o =>
    let n := o.pointer .y
    ∃ v q, us = [(dest, v), (n, q)] ∧ hazardHits s [n] = false ∧ yReserved s = false ∧
      dspYReads s (s.w n) v ∧
      ((yModActive s n = false ∧ q = s.w n + BitVec.ofInt 16 (prefetchDelta o s .y)) ∨
        (yModActive s n = true ∧ moduloStep s.ymodsrt s.ymodend (s.w n) (prefetchDelta o s .y) q))

/-- The W registers of `t` are those of `s` with the updates made: a register updated once holds its value, one
updated twice a free value (20_memory R78, log 24), every other is unchanged. -/
def registersAfter (s t : State) (us : Updates) : Prop :=
  (∀ n, n ∉ us.map (·.1) → t.w n = s.w n) ∧
  ∀ u ∈ us, t.w u.1 =
    if us.countP (fun u' => u'.1 == u.1) ≤ 1 then u.2 else Config.freeWord (.twice u.1) s.draws

end Sys2Proof.Machine
end

