-- ==== Sys2Proof/Certificates/Slice0/Obligations.lean ====
section
/-! DEFINITION. The statements for the provers. Each docstring names the rule of spec/ it formalises, or
says that it is a choice of the model and names the log entry. -/

open Sys2Proof Sys2Proof.Machine

/-! ### Encoding (30_encoding R108, R109) -/

/-- Decode and encode agree: for every well-formed instruction, every operand at every value its encoding
admits (R108, R109). -/
def Obligations.DecodeOfEncodeGivesTheInstruction : Prop :=
  ∀ i : Instr, i.wellFormed = true → decode (encode i) = .ok i

/-- What the decoder gives is well-formed (R109: even addresses, offsets in range, one Wb field). -/
def Obligations.DecodedInstructionIsWellFormed : Prop :=
  ∀ (w : InsnWord) (i : Instr), decode w = .ok i → i.wellFormed = true

/-- No word has the fixed bits of two rows of R108. -/
def Obligations.NoWordFitsTwoRows : Prop :=
  ∀ (w : InsnWord) (j k : Fin rows.length),
    rows[j].fits w = true → rows[k].fits w = true → j = k

/-- Words printed in programs P1 to P5 of 95_test_vectors decode to the statements beside them. -/
def Obligations.PrintedWordsDecode : Prop :=
  decode 0x28FF40#24 = .ok (.movLit 0x8FF4#16 0) ∧
  decode 0x880230#24 = .ok (.movStore 0 0x0046#16) ∧
  decode 0x7802B4#24 = .ok (.mov .word (.ptr .postInc 4) (.reg 5)) ∧
  decode 0x7818B0#24 = .ok (.mov .word (.ptr .postInc 0) (.ptr .postInc 1)) ∧
  decode 0x780121#24 = .ok (.mov .word (.ptr .postDec 1) (.reg 2)) ∧
  decode 0x784111#24 = .ok (.mov .byte (.ptr .ind 1) (.reg 2)) ∧
  decode 0x09000F#24 = .ok (.repeatLit 15#14) ∧
  decode 0x000000#24 = .ok .nop

/-! ### The step -/

/-- A step runs the decoded instruction: `exec` of it, then `advance`. -/
def Obligations.StepRunsTheDecodedInstruction : Prop :=
  ∀ (s : State) (w : InsnWord) (i : Instr),
    s.fault = none → s.fetch = some w → decode w = .ok i →
      step s =
        match exec i s with
        | .next t => .next (advance s t)
        | .fault r => .fault r
        | .refused r => .refused r

/-- Around `exec`: the statement index passes the statement, or stays while a REPEAT asks for it again
(R24, R216), or stays at a statement that trapped (R240); the draw counter moves on; nothing else. -/
def Obligations.StatementIndexAfterAStep : Prop :=
  ∀ s t : State,
    (t.fault = none → s.rep = 0 →
      advance s t = { t with pc := s.pc + 1, draws := s.draws + 1 }) ∧
    (∀ k, t.fault = none → s.rep = k + 1 →
      advance s t = { t with rep := k, draws := s.draws + 1 }) ∧
    (∀ e, t.fault = some e → advance s t = { t with draws := s.draws + 1 })

/-- A state whose fault mark is set takes no step: the step answers the fault (R236). -/
def Obligations.MarkedStateTakesNoStep : Prop :=
  ∀ (s : State) (e : AddressError), s.fault = some e → step s = .fault (.addressError e)

/-- Past the last statement the run has ended (R264); answering a refusal there is the model's form
(log 5). -/
def Obligations.RunEndsPastTheLastStatement : Prop :=
  ∀ s : State, s.fault = none → s.prog.length ≤ s.pc → step s = .refused .programEnded

/-- The repeated statement, any but REPEAT: after `j ≤ k` executions of a statement with a count of `k`, none
of which trapped, it is still current and `k - j` remain; after `k + 1` the machine has passed it (R216:
`lit + 1` times). For a statement that completes in every state and touches neither the index nor the text
nor the count, all these executions happen. -/
def Obligations.RepeatedStatementRunsCountPlusOneTimes : Prop :=
  ∀ (s : State) (w : InsnWord) (i : Instr),
    s.fault = none → s.fetch = some w → decode w = .ok i →
    ((∀ lit, i ≠ .repeatLit lit) →
      ∀ (j : Nat) (u : State), Host.Core.run Sys2Proof.core j s = .next u → u.fault = none →
        (j ≤ s.rep → u.pc = s.pc ∧ u.rep = s.rep - j) ∧
        (j = s.rep + 1 → u.pc = s.pc + 1 ∧ u.rep = 0)) ∧
    ((∀ u : State, ∃ t, exec i u = .next t ∧ t.fault = u.fault ∧ t.rep = u.rep ∧ t.pc = u.pc ∧
      t.prog = u.prog) →
      ∃ u, Host.Core.run Sys2Proof.core (s.rep + 1) s = .next u ∧ u.pc = s.pc + 1 ∧ u.rep = 0)

/-! ### Reset (10_state R46) -/

/-- The values of R46 at power-on reset, and its consequence: the three predicates are false for every
register. -/
def Obligations.ResetGivesThePorValues : Prop :=
  State.reset.modcon = 0x0000#16 ∧ State.reset.xmodsrt = 0x0000#16 ∧
  State.reset.xmodend = 0x0001#16 ∧ State.reset.ymodsrt = 0x0000#16 ∧
  State.reset.ymodend = 0x0001#16 ∧ State.reset.xbrev = 0x0000#16 ∧
  State.reset.haz = [] ∧ State.reset.fault = none ∧
  ∀ n : Reg, xModActive State.reset n = false ∧ yModActive State.reset n = false ∧
    bitRevActive State.reset n = false

/-! ### Invariants -/

/-- The invariant holds at reset. -/
def Obligations.InvariantHoldsAtReset : Prop := Inv State.reset

/-- Every step keeps the invariant: canonical memory inside the provided RAM (R40, R70), the fixed bits of
the control registers (R30, R35 to R38), one write a statement, a 14-bit REPEAT count (R109). -/
def Obligations.StepKeepsTheInvariant : Prop :=
  ∀ s t : State, Inv s → step s = .next t → Inv t

/-- No step changes the program text or the parameters (R47, R81). -/
def Obligations.StepKeepsProgramTextAndParameters : Prop :=
  ∀ s t : State, step s = .next t → t.prog = s.prog ∧ t.par = s.par

/-! ### The access primitives (40_data_space_access) -/

/-- A word written to RAM is read back as the word and, byte by byte, with the low byte at the even
address (R63, R64, R122); nothing but the word's two bytes of memory changes: no register, no control
register, no other byte. -/
def Obligations.WordWriteIsLittleEndian : Prop :=
  ∀ (s : State) (a v : Word), misaligned a = false → inRam s a →
    wrW s a v = .next ⟨s.setWord a v, false⟩ ∧
      rdW (s.setWord a v) a = .next ⟨v, false⟩ ∧
      rdB (s.setWord a v) a = .next ⟨(v.extractLsb' 0 8).setWidth 16, false⟩ ∧
      rdB (s.setWord a v) (a + 1#16) = .next ⟨(v.extractLsb' 8 8).setWidth 16, false⟩ ∧
      sameBytesBut s (s.setWord a v) .word a ∧
      s.setWord a v = { s with mem := (s.setWord a v).mem }

/-- A byte written to RAM is read back, and every other byte reads as before (R66, R123). -/
def Obligations.ByteWriteChangesOneByte : Prop :=
  ∀ (s : State) (a : Word) (b : Byte), inRam s a →
    ∃ t, wrB s a b = .next ⟨t, false⟩ ∧ rdB t a = .next ⟨b.setWidth 16, false⟩ ∧
      ∀ a', a' ≠ a → t.byteAt a' = s.byteAt a'

/-- DSP reads of the wrong space deliver zero without a trap: W8 or W9 in Y space, W10 or W11 in X space
or in the SFR space (R71). -/
def Obligations.DspReadOfTheWrongSpaceIsZero : Prop :=
  ∀ (s : State) (a : Word), misaligned a = false →
    (region s.par a = .y → rdX s a = .next ⟨0#16, false⟩) ∧
    (region s.par a = .x ∨ region s.par a = .sfr → rdY s a = .next ⟨0#16, false⟩)

/-- At an unimplemented address every read delivers zero and traps, every write changes nothing and traps
(R70). -/
def Obligations.UnimplementedAddressReadsZeroAndTraps : Prop :=
  ∀ (s : State) (a v : Word) (b : Byte), region s.par a = .unimpl →
    rdW s a = .next ⟨0#16, true⟩ ∧ rdB s a = .next ⟨0#16, true⟩ ∧
    rdX s a = .next ⟨0#16, true⟩ ∧ rdY s a = .next ⟨0#16, true⟩ ∧
    wrW s a v = .next ⟨s, true⟩ ∧ wrB s a b = .next ⟨s, true⟩

/-- A misaligned word read completes and traps, with the aligned word where RAM holds one (D8); a misaligned
write does not take place and traps (R68). -/
def Obligations.MisalignedWordReadCompletesAndTraps : Prop :=
  ∀ (s : State) (a v x : Word), misaligned a = true →
    (inRam s a → s.wordAt (wordAddr a) = some v → rdW s a = .next ⟨v, true⟩) ∧
    (inRam s a → ∃ u, rdW s a = .next ⟨u, true⟩) ∧
    wrW s a x = .next ⟨s, true⟩

/-- A word write at each control register's address stores the writable bits and keeps the fixed ones; the
register reads back so (R42, R27, R30, R35 to R39); the start and end registers' values at power-on reset
(R35 to R38). -/
def Obligations.ControlRegisterWordWriteKeepsFixedBits : Prop :=
  (State.reset.xmodsrt = 0x0000#16 ∧ State.reset.xmodend = 0x0001#16 ∧
    State.reset.ymodsrt = 0x0000#16 ∧ State.reset.ymodend = 0x0001#16) ∧
  ∀ (s : State) (v : Word), s.par.addrsOk = true →
    (∃ t, wrW s s.par.addrModcon v = .next ⟨t, false⟩ ∧ t.modcon = v &&& 0xCFFF#16 ∧
      rdW t s.par.addrModcon = .next ⟨v &&& 0xCFFF#16, false⟩) ∧
    (∃ t, wrW s s.par.addrXmodsrt v = .next ⟨t, false⟩ ∧ t.xmodsrt = v &&& 0xFFFE#16 ∧
      rdW t s.par.addrXmodsrt = .next ⟨v &&& 0xFFFE#16, false⟩) ∧
    (∃ t, wrW s s.par.addrXmodend v = .next ⟨t, false⟩ ∧ t.xmodend = v ||| 1#16 ∧
      rdW t s.par.addrXmodend = .next ⟨v ||| 1#16, false⟩) ∧
    (∃ t, wrW s s.par.addrYmodsrt v = .next ⟨t, false⟩ ∧ t.ymodsrt = v &&& 0xFFFE#16 ∧
      rdW t s.par.addrYmodsrt = .next ⟨v &&& 0xFFFE#16, false⟩) ∧
    (∃ t, wrW s s.par.addrYmodend v = .next ⟨t, false⟩ ∧ t.ymodend = v ||| 1#16 ∧
      rdW t s.par.addrYmodend = .next ⟨v ||| 1#16, false⟩) ∧
    (∃ t, wrW s s.par.addrXbrev v = .next ⟨t, false⟩ ∧ t.xbrev = v ∧
      rdW t s.par.addrXbrev = .next ⟨v, false⟩)

/-- A byte write to either byte of a control register acts on that byte alone, under the fixed bits (R42);
the spec marks the byte rule as its own inference (D22). -/
def Obligations.ControlRegisterByteWriteActsOnOneByte : Prop :=
  ∀ (s : State) (r : CtrlReg) (b : Byte), s.par.addrsOk = true →
    (∃ t, wrB s (s.par.ctrlAddr r) b = .next ⟨t, false⟩ ∧
      t.ctrl r = r.fix ((s.ctrl r).extractLsb' 8 8 ++ b) ∧ ∀ r', r' ≠ r → t.ctrl r' = s.ctrl r') ∧
    (∃ t, wrB s (s.par.ctrlAddr r + 1#16) b = .next ⟨t, false⟩ ∧
      t.ctrl r = r.fix (b ++ (s.ctrl r).extractLsb' 0 8) ∧ ∀ r', r' ≠ r → t.ctrl r' = s.ctrl r')

/-! ### Addressing (41 to 43) -/

/-- The modulo correction fixes a value just where its contract gives one, and then that value: for a pointer inside
the buffer and a sum inside 0..0xFFFF, stepped in the direction whose boundary the start or the end meets, by at
most one length beyond (R170, R172, R173, R174; `moduloStep`). Outside the contract it fixes none, since "no value
may be assumed" (R173): against the buffer's direction, off its boundary, too far, past the address space. Every
value it fixes lies in the buffer and is the sum, or the sum one buffer length back when that passed the end, or one
buffer length on when it passed the start (R171, R172). The contract is the spec's decision D10 (log 22). -/
def Obligations.ModuloCorrectsIntoTheBufferByOneLength : Prop :=
  ∀ (srt fin p q : Word) (d : Int),
    (modAdj srt fin p d = some q ↔ moduloStep srt fin p d q) ∧
    (modAdj srt fin p d = some q →
      srt.toNat ≤ q.toNat ∧ q.toNat ≤ fin.toNat ∧
      ((q.toNat : Int) = p.toNat + d ∨
        ((q.toNat : Int) = p.toNat + d - ((fin.toNat : Int) - srt.toNat + 1) ∧
          (fin.toNat : Int) < p.toNat + d) ∨
        ((q.toNat : Int) = p.toNat + d + ((fin.toNat : Int) - srt.toNat + 1) ∧
          (p.toNat : Int) + d < srt.toNat)))

/-- A buffer whose length is an exact power of two on its own boundary may be stepped in both directions,
by up to its length: a result exists for every such offset (R167, R173). -/
def Obligations.PowerOfTwoBufferStepsBothWays : Prop :=
  ∀ (srt fin p : Word) (k : Nat) (d : Int),
    0 < k → k ≤ 16 → fin.toNat + 1 = srt.toNat + 2 ^ k → srt.toNat % 2 ^ k = 0 →
    srt.toNat ≤ p.toNat → p.toNat ≤ fin.toNat →
    0 ≤ (p.toNat : Int) + d → (p.toNat : Int) + d ≤ 0xFFFF → -(2 ^ k : Int) ≤ d → d ≤ 2 ^ k →
      ∃ q, modAdj srt fin p d = some q

/-- With a listed modifier `2^j` the bit-reverse hardware changes no bit above `j + 1` and never bit 0
(R194, R196). -/
def Obligations.BitReversalKeepsBitsOutsideThePivot : Prop :=
  ∀ (p : Word) (j i : Nat), j < 15 → (i = 0 ∨ j + 2 ≤ i) →
    (revAdd p (BitVec.ofNat 15 (2 ^ j))).getLsbD i = p.getLsbD i

/-- Stepped from the start of an aligned buffer of `2^(j+1)` words, the pointer visits word
`bitReversal (j+1) i` at its `i`-th value, and is back at the start after all of them (R190, R196). -/
def Obligations.BitReversedStepsVisitTheBufferInReversedOrder : Prop :=
  ∀ (p : Word) (j i : Nat), j < 15 → p.toNat % 2 ^ (j + 2) = 0 →
    (i < 2 ^ (j + 1) →
      (revAddTimes (BitVec.ofNat 15 (2 ^ j)) i p).toNat = p.toNat + 2 * bitReversal (j + 1) i) ∧
    revAddTimes (BitVec.ofNat 15 (2 ^ j)) (2 ^ (j + 1)) p = p

/-- Bit-reversed addressing acts on word writes with pre- or post-increment alone: every other access
through its pointer, modulo addressing being off for it, gets the plain sum (R192). -/
def Obligations.BitReversalActsOnIncrementingWordWritesOnly : Prop :=
  ∀ (s : State) (path : Path) (n : Reg) (p : Word) (d : Int) (size : Size) (mode : Mode),
    xModActive s n = false → (path = .y → yReserved s = false ∧ yModActive s n = false) →
    (path ≠ .xw ∨ size = .byte ∨ mode.increments = false) →
      adjust s path n p d size mode = some (p + BitVec.ofInt 16 d)

/-- With both selections on one register: a read in each pointer mode, word and byte, gets the modulo correction,
and a word write with post- or pre-increment the reverse-carry sum (R198, R199). What the spec leaves open in a
write is free, the model's choice (log 10), and what it fixes beside it stays as fixed. With an unlisted XB
(R197), an incrementing word write uses its pointer or, pre-modified, the free sum, which it leaves. With both
selections, the pointer in its buffer, a write with an offset that is decrementing or a byte's uses its pointer
or, pre-modified, a free address, and leaves a free pointer; an indexed or literal offset one uses a free address
(R200). A write through a modulo pointer outside its buffer uses a free address in every mode that bit-reversed
addressing does not take, and a modified pointer ends free (R174). One inside its buffer whose step is outside the
contract leaves a free pointer, and uses it where it is pre-modified; `[Wn]`, indexed and literal offset ones use
a free address (R173). So does an indexed one whose index alone is selected (R148). A move whose write goes to an
address so generated, free or fixed, completes there, from a register or from memory (R213, R214); at a misaligned
or unimplemented one it takes the address error trap and stores nothing (R231, R232, R234). The byte stored is the
low byte of the source register and the operand's own register is the pointer of the indexed mode, which the model
deduces (log 15, log 13); a byte at a control register is the spec's inference D22 (log 18); the modulo correction
inside its contract is the spec's decision D10 (log 22). -/
def Obligations.BitReversalTakesPrecedenceForWrites : Prop :=
  (∀ (s : State) (n : Reg) (j : Nat),
    xModActive s n = true → bitRevActive s n = true → j < 15 → s.xb = BitVec.ofNat 15 (2 ^ j) →
      (∀ (m : PtrMode) (size : Size) (q : Word),
        modAdj s.xmodsrt s.xmodend (s.w n) (m.delta size.bytes) = some q →
          eaGen s .xr (.ptr m) n size false =
            ⟨m.usedEa (s.w n) q, if m = .ind then none else some q⟩) ∧
      (∀ (m : PtrMode), m = .postInc ∨ m = .preInc →
        let q := revAdd (s.w n) s.xb
        eaGen s .xw (.ptr m) n .word false = ⟨m.usedEa (s.w n) q, some q⟩)) ∧
  (∀ (s : State) (n : Reg) (m : PtrMode),
    bitRevActive s n = true → ¬ listedModifier s → m = .postInc ∨ m = .preInc →
      eaGen s .xw (.ptr m) n .word false = ⟨openStepEa m s .xw n, openUpd m s .xw⟩) ∧
  (∀ (s : State) (n : Reg),
    xModActive s n = true → bitRevActive s n = true → xPointerInside s n →
      (∀ (m : PtrMode) (size : Size), m = .postDec ∨ m = .preDec ∨ (size = .byte ∧ m ≠ .ind) →
        eaGen s .xw (.ptr m) n size false = ⟨openStepEa m s .xw n, openUpd m s .xw⟩) ∧
      (∀ (b : Reg) (size : Size), s.w b ≠ 0#16 →
        eaGen s .xw (.regOff b) n size false = ⟨openEa s .xw, none⟩) ∧
      (∀ (k : Int) (size : Size), k ≠ 0 →
        eaGen s .xw (.litOff k) n size false = ⟨openEa s .xw, none⟩)) ∧
  (∀ (s : State) (n : Reg),
    xModActive s n = true → ¬ xPointerInside s n →
      (∀ (m : PtrMode) (size : Size),
        bitRevActive s n = false ∨ size = .byte ∨ (m ≠ .postInc ∧ m ≠ .preInc) →
          eaGen s .xw (.ptr m) n size false = ⟨openEa s .xw, openUpd m s .xw⟩) ∧
      (∀ (b : Reg) (size : Size), eaGen s .xw (.regOff b) n size false = ⟨openEa s .xw, none⟩) ∧
      (∀ (k : Int) (size : Size), eaGen s .xw (.litOff k) n size false = ⟨openEa s .xw, none⟩)) ∧
  (∀ (s : State) (n : Reg), xPointerInside s n →
      (∀ (m : PtrMode) (size : Size), bitRevActive s n = false ∨ m = .ind →
        xNoStep s n (m.delta size.bytes) →
          eaGen s .xw (.ptr m) n size false = ⟨openStepEa m s .xw n, openUpd m s .xw⟩) ∧
      (∀ (b : Reg) (size : Size), xNoStep s n (s.w b).toInt →
        eaGen s .xw (.regOff b) n size false = ⟨openEa s .xw, none⟩) ∧
      (∀ (k : Int) (size : Size), xNoStep s n k →
        eaGen s .xw (.litOff k) n size false = ⟨openEa s .xw, none⟩)) ∧
  (∀ (s : State) (n b : Reg) (size : Size), xModActive s b = true → xModActive s n = false →
    eaGen s .xw (.regOff b) n size false = ⟨openEa s .xw, none⟩) ∧
  (∀ (s t : State) (size : Size) (src : Operand) (v : Word) (us : Updates), sourceStep s size src v us →
    (∀ (m : PtrMode) (n : Reg), src.shares (.ptr m n) = false → (Operand.ptr m n).shares src = false →
      let g := eaGen s .xw (.ptr m) n size false
      stores s.closeWindow size g.ea v t →
        exec (.mov size src (.ptr m n)) s = .next (t.setRegs (us ++ g.ups n))) ∧
    (∀ n b : Reg, (Operand.idx n b).shares src = false →
      stores s.closeWindow size (eaGen s .xw (.regOff b) n size false).ea v t →
        exec (.mov size src (.idx n b)) s = .next (t.setRegs us))) ∧
  (∀ (s t : State) (size : Size) (r n : Reg) (k : Int),
    stores s.closeWindow size (eaGen s .xw (.litOff k) n size false).ea (s.w r) t →
      exec (.movStoreOff size r n k) s = .next t) ∧
  (∀ (s : State) (size : Size) (src dst : Operand) (v ea : Word) (us : Updates), sourceStep s size src v us →
    src.shares dst = false → dst.shares src = false →
    storeTarget (.mov size src dst) s = some (size, ea) → ¬ inPlace s size ea →
      ∃ t, exec (.mov size src dst) s = .next t ∧ trapped s t ea .write (src.regs ++ dst.regs) ∧
        nothingStored s t) ∧
  (∀ (s : State) (size : Size) (r n : Reg) (k : Int) (ea : Word),
    storeTarget (.movStoreOff size r n k) s = some (size, ea) → ¬ inPlace s size ea →
      ∃ t, exec (.movStoreOff size r n k) s = .next t ∧ trapped s t ea .write [r, n] ∧ nothingStored s t)

/-! ### Hazards (70_reset_and_hazards) -/

/-- After a MOV to MODCON every indirect read of the next statement is in the hazard (R254). -/
def Obligations.ModconWriteEndangersEveryIndirectRead : Prop :=
  ∀ (s : State) (n : Reg), s.par.addrsOk = true →
    ∃ t, exec (.movStore n s.par.addrModcon) s = .next t ∧ ∀ ptrs, hazardHits t ptrs = true

/-- After a MOV to a modulo address register the hazard covers reads through the register that was
selected at the time of the write, and no other (R255, R256). -/
def Obligations.ModuloAddressWriteEndangersTheSelectedPointer : Prop :=
  ∀ (s : State) (n : Reg), s.par.addrsOk = true →
    (∃ t, exec (.movStore n s.par.addrXmodsrt) s = .next t ∧
      ∀ ptrs, hazardHits t ptrs = ptrs.any (xModActive s)) ∧
    (∃ t, exec (.movStore n s.par.addrXmodend) s = .next t ∧
      ∀ ptrs, hazardHits t ptrs = ptrs.any (xModActive s)) ∧
    (∃ t, exec (.movStore n s.par.addrYmodsrt) s = .next t ∧
      ∀ ptrs, hazardHits t ptrs = ptrs.any (yModActive s)) ∧
    (∃ t, exec (.movStore n s.par.addrYmodend) s = .next t ∧
      ∀ ptrs, hazardHits t ptrs = ptrs.any (yModActive s))

/-- After a MOV to XBREV the hazard covers reads through the bit-reversed pointer, BREN being 1 before or
after the write (R257; "or after" is the spec's widening D16). -/
def Obligations.XbrevWriteEndangersTheBitReversedPointer : Prop :=
  ∀ (s : State) (n : Reg), s.par.addrsOk = true →
    ∃ t, exec (.movStore n s.par.addrXbrev) s = .next t ∧ t.xbrev = s.w n ∧
      ∀ ptrs, hazardHits t ptrs = ptrs.any fun m => bitRevActive s m || bitRevActive t m

/-- An indirect read in the hazard (R258 d), and one through a modulo pointer that lies outside its buffer (R174),
reads at an address the spec does not fix, a free value, subject to the access rules, and a modified pointer is
free too. A read through a pointer inside its buffer whose step is outside the modulo contract, against the
buffer's direction, off its boundary or too far (R173), uses its pointer and leaves it free in the
post-modification modes; pre-modified, indexed, with a literal offset, or in `[Wn]` where the buffer meets neither
boundary (R170 with d = 0), it uses a free address, which a pre-modified pointer keeps. The statement is otherwise
as without it. So for every indirect read of R224 that the model executes: a load through a pointer in each of the
five modes (a destination that is the modified pointer itself ends free, log 24), through the register indexed
mode (its pointer the operand's own register, the model's deduction, log 13; both registers count; free too where
the index alone is selected for modulo addressing, R148) and with a literal offset, word and byte; the read of a
move from memory to memory, whatever its destination operand; POP's (every register counts; its pointer a
parameter, log 8); and each prefetch of a MAC, for its own pointer (log 23), the Y read also where YWM is reserved
(R32). Drawing the address instead of refusing the statement is the model's choice (log 10); the upper byte after
a byte load is free (D20). -/
def Obligations.ReadInTheHazardUsesAFreeAddress : Prop :=
  ∀ s : State,
    let free := openEa s .xr
    (∀ (size : Size) (m : PtrMode) (n d : Reg) (ea : Word), (n ≠ d ∨ m = .ind) →
      freeRead s size m n [n] ea →
      exec (.mov size (.ptr m n) (.reg d)) s =
        andThen (rdMcu s size ea) fun r =>
          if r.trap then .next (raiseAddressError s.closeWindow ⟨ea, .read⟩ [n, d])
          else .next ((s.closeWindow.setW n ((openUpd m s .xr).getD (s.w n))).setW d
            (regResult s size r.v))) ∧
    (∀ (size : Size) (m : PtrMode) (n : Reg) (ea : Word), m ≠ .ind → freeRead s size m n [n] ea →
      exec (.mov size (.ptr m n) (.reg n)) s =
        andThen (rdMcu s size ea) fun r =>
          if r.trap then .next (raiseAddressError s.closeWindow ⟨ea, .read⟩ [n, n])
          else .next (s.closeWindow.setW n (Config.freeWord (.twice n) s.draws))) ∧
    (∀ (size : Size) (n b d : Reg), freeIndexedRead s n b →
      exec (.mov size (.idx n b) (.reg d)) s =
        andThen (rdMcu s size free) fun r =>
          if r.trap then .next (raiseAddressError s.closeWindow ⟨free, .read⟩ [n, b, d])
          else .next (s.closeWindow.setW d (regResult s size r.v))) ∧
    (∀ (size : Size) (p d : Reg) (k : Int), xReadOpen s p [p] ∨ xNoStep s p k →
      exec (.movLoadOff size p k d) s =
        andThen (rdMcu s size free) fun r =>
          if r.trap then .next (raiseAddressError s.closeWindow ⟨free, .read⟩ [p, d])
          else .next (s.closeWindow.setW d (regResult s size r.v))) ∧
    (∀ (size : Size) (m m' : PtrMode) (n d : Reg) (ea : Word),
      (n ≠ d ∨ (m = .ind ∧ m' = .ind)) → freeRead s size m n [n] ea →
      let g := eaGen s .xw (.ptr m') d size false
      exec (.mov size (.ptr m n) (.ptr m' d)) s =
        finishStore s.closeWindow size g.ea (fetchMcu s size n ⟨ea, openUpd m s .xr⟩) (g.ups d) [n, d]) ∧
    (∀ (size : Size) (m : PtrMode) (n d b : Reg) (ea : Word), (n ∉ [d, b] ∨ m = .ind) →
      freeRead s size m n [n] ea →
      exec (.mov size (.ptr m n) (.idx d b)) s =
        finishStore s.closeWindow size (eaGen s .xw (.regOff b) d size false).ea
          (fetchMcu s size n ⟨ea, openUpd m s .xr⟩) [] [n, d, b]) ∧
    (∀ (size : Size) (m : PtrMode) (n b d : Reg), (d ∉ [n, b] ∨ m = .ind) → freeIndexedRead s n b →
      let g := eaGen s .xw (.ptr m) d size false
      exec (.mov size (.idx n b) (.ptr m d)) s =
        finishStore s.closeWindow size g.ea (fetchMcu s size n ⟨free, none⟩) (g.ups d) [n, b, d]) ∧
    (∀ (size : Size) (n b d b' : Reg), freeIndexedRead s n b →
      exec (.mov size (.idx n b) (.idx d b')) s =
        finishStore s.closeWindow size (eaGen s .xw (.regOff b') d size false).ea
          (fetchMcu s size n ⟨free, none⟩) [] [n, b, d, b']) ∧
    (∀ f ea : Word, freeRead s .word s.par.popMode s.par.popReg (List.finRange 16) ea →
      exec (.pop f) s =
        finishStore s.closeWindow .word f
          (fetchMcu s .word s.par.popReg ⟨ea, openUpd s.par.popMode s .xr⟩) [] [s.par.popReg]) ∧
    (∀ (m : BitVec 3) (acc : Acc) (x y : BitVec 2) (i j : BitVec 4) (wb : BitVec 2) (ea : Word),
      (∀ o, s.par.xOps[i.toFin] = some o → freeXPrefetch s o ea →
        exec (.mac m acc x y i j wb) s =
          finishMac m acc x y i j wb s
            (andThen (rdX s ea) fun r => .next ⟨r.v, readError ea r.trap,
              [(s.par.xDest[x.toFin], r.v), (o.pointer .xr, Config.freeWord (.ptr .xr) s.draws)]⟩)
            (prefetch s .y s.par.yOps[j.toFin] s.par.yDest[y.toFin])) ∧
      (∀ o, s.par.yOps[j.toFin] = some o → freeYPrefetch s o ea →
        exec (.mac m acc x y i j wb) s =
          finishMac m acc x y i j wb s
            (prefetch s .xr s.par.xOps[i.toFin] s.par.xDest[x.toFin])
            (andThen (rdY s ea) fun r => .next ⟨r.v, readError ea r.trap,
              [(s.par.yDest[y.toFin], r.v), (o.pointer .y, Config.freeWord (.ptr .y) s.draws)]⟩)))

/-! ### MOV (44_named_instructions R210 to R214): where it completes, and with what -/

/-- `MOV #lit16, Wnd` loads the literal and changes nothing else but the hazard window (R210). -/
def Obligations.MovLiteralLoadsTheLiteral : Prop :=
  ∀ (s : State) (lit : Word) (d : Reg),
    exec (.movLit lit d) s = .next (s.closeWindow.setW d lit)

/-- `MOV f, Wnd` loads the word at `f`, in RAM or in a control register, whatever the hazard window holds
(R212, R152). -/
def Obligations.MovDirectLoadsTheWord : Prop :=
  (∀ (s : State) (f v : Word) (d : Reg), holdsWord s f v →
    exec (.movLoad f d) s = .next (s.closeWindow.setW d v)) ∧
  (∀ (s : State) (r : CtrlReg) (d : Reg), s.par.addrsOk = true →
    exec (.movLoad (s.par.ctrlAddr r) d) s = .next (s.closeWindow.setW d (s.ctrl r)))

/-- `MOV Wns, f` stores the word in RAM (R211). -/
def Obligations.MovDirectStoresTheWord : Prop :=
  ∀ (s : State) (f : Word) (n : Reg), misaligned f = false → inRam s f →
    exec (.movStore n f) s = .next (s.closeWindow.setWord f (s.w n))

/-- `MOV Wns, f` into a control register stores the writable bits there, leaves everything else alone and
opens the hazard window for that register (R211, R42). -/
def Obligations.MovDirectWritesAControlRegister : Prop :=
  ∀ (s : State) (r : CtrlReg) (n : Reg), s.par.addrsOk = true →
    ∃ t, exec (.movStore n (s.par.ctrlAddr r)) s = .next t ∧
      t.ctrl r = r.fix (s.w n) ∧ (∀ r', r' ≠ r → t.ctrl r' = s.ctrl r') ∧
      t.haz = [hazEntry s r] ∧ sameRegsBut s t [] ∧ sameBytes s t ∧ sameAccs s t ∧ sameFrame s t ∧
      t.fault = s.fault ∧ t.rep = s.rep

/-- `MOV Wns, Wnd` copies the word (R213); `MOV.B` copies the low byte, which the model deduces (log 15), and
what a byte move leaves in the upper byte is free (D20, log 15). -/
def Obligations.MovRegisterToRegisterCopies : Prop :=
  (∀ (s : State) (n d : Reg),
    exec (.mov .word (.reg n) (.reg d)) s = .next (s.closeWindow.setW d (s.w n))) ∧
  (∀ (s : State) (n d : Reg), ∃ v : Word, v.extractLsb' 0 8 = (s.w n).extractLsb' 0 8 ∧
    exec (.mov .byte (.reg n) (.reg d)) s = .next (s.closeWindow.setW d v))

/-- A word load through a pointer under plain addressing, each of the five modes, from RAM or from a control
register that the pointer addresses: the access uses the address of R143 to R147, the pointer and the
destination are written, nothing else changes. Where the destination is the modified pointer itself it ends
with a free value, the model's choice (log 24). -/
def Obligations.MovLoadsAWordThroughAPointer : Prop :=
  (∀ (s : State) (m : PtrMode) (n d : Reg) (v : Word),
    hazardHits s [n] = false → plainRead s n → (n ≠ d ∨ m = .ind) →
    deliversWord s (m.plainEa (s.w n) 2#16) v →
      exec (.mov .word (.ptr m n) (.reg d)) s =
        .next ((s.closeWindow.setW n (m.plainNext (s.w n) 2#16)).setW d v)) ∧
  (∀ (s : State) (m : PtrMode) (n : Reg) (v : Word),
    hazardHits s [n] = false → plainRead s n → m ≠ .ind →
    deliversWord s (m.plainEa (s.w n) 2#16) v →
      exec (.mov .word (.ptr m n) (.reg n)) s =
        .next (s.closeWindow.setW n (Config.freeWord (.twice n) s.draws)))

/-- A byte load through a pointer under plain addressing, from RAM or from either byte of a control register (the
spec's inference D22): step 1, no alignment, the byte in the low half of the destination (R142, R66); the upper
half is free (D20). Where the destination is the modified pointer itself it ends with a free value, the model's
choice (log 24). -/
def Obligations.MovLoadsAByteThroughAPointer : Prop :=
  (∀ (s : State) (m : PtrMode) (n d : Reg) (b : Byte),
    hazardHits s [n] = false → plainRead s n → (n ≠ d ∨ m = .ind) →
    deliversByte s (m.plainEa (s.w n) 1#16) b →
      ∃ v : Word, v.extractLsb' 0 8 = b ∧
        exec (.mov .byte (.ptr m n) (.reg d)) s =
          .next ((s.closeWindow.setW n (m.plainNext (s.w n) 1#16)).setW d v)) ∧
  (∀ (s : State) (m : PtrMode) (n : Reg) (b : Byte),
    hazardHits s [n] = false → plainRead s n → m ≠ .ind →
    deliversByte s (m.plainEa (s.w n) 1#16) b →
      exec (.mov .byte (.ptr m n) (.reg n)) s =
        .next (s.closeWindow.setW n (Config.freeWord (.twice n) s.draws)))

/-- A store through a pointer under plain addressing, word and byte, each of the five modes, whatever the hazard
window holds (R258 c), to RAM or to a control register that the pointer addresses, which opens its hazard window
(R258 a; for a byte the spec's inference D22). Plain too is a store through the bit-reversed pointer where
bit-reversed addressing does not function: a byte's, `[Wn]`, `[Wn--]`, `[--Wn]` (R192). The byte stored is the low
byte of the source register, which the model deduces (log 15). Where the source is the modified pointer itself the
value stored is free, the model's choice (log 24). -/
def Obligations.MovStoresThroughAPointer : Prop :=
  (∀ (s t : State) (m : PtrMode) (n d : Reg), plainWrite s d .word m → (n ≠ d ∨ m = .ind) →
    storesWord s.closeWindow (m.plainEa (s.w d) 2#16) (s.w n) t →
      exec (.mov .word (.reg n) (.ptr m d)) s = .next (t.setW d (m.plainNext (s.w d) 2#16))) ∧
  (∀ (s t : State) (m : PtrMode) (n d : Reg), plainWrite s d .byte m → (n ≠ d ∨ m = .ind) →
    storesByte s.closeWindow (m.plainEa (s.w d) 1#16) ((s.w n).extractLsb' 0 8) t →
      exec (.mov .byte (.reg n) (.ptr m d)) s = .next (t.setW d (m.plainNext (s.w d) 1#16))) ∧
  (∀ (s t : State) (m : PtrMode) (d : Reg), plainWrite s d .word m → m ≠ .ind →
    storesWord s.closeWindow (m.plainEa (s.w d) 2#16) (Config.freeWord .srcValue s.draws) t →
      exec (.mov .word (.reg d) (.ptr m d)) s = .next (t.setW d (m.plainNext (s.w d) 2#16))) ∧
  (∀ (s t : State) (m : PtrMode) (d : Reg), plainWrite s d .byte m → m ≠ .ind →
    storesByte s.closeWindow (m.plainEa (s.w d) 1#16)
      ((Config.freeWord .srcValue s.draws).extractLsb' 0 8) t →
      exec (.mov .byte (.reg d) (.ptr m d)) s = .next (t.setW d (m.plainNext (s.w d) 1#16)))

/-- A word or byte move from memory to memory, control registers at either end included, reads the old content
before it writes, and updates the pointers its operands modify (R213, R78; a byte of a control register by the spec's
inference D22). Each operand is a pointer in one of the five modes or register indexed (its pointer the operand's own
register, the model's deduction, log 13), and each is corrected on its own path: the source on `XR`, plain or in the
X buffer; the destination on `XW`, plain, in the X buffer or by reverse-carry addition, also where bit-reversed
addressing does not function or both selections are on it (R169, R192, R193, R199, R200). The modulo correction is
the spec's decision D10 (log 22). That neither operand names a register the other modifies is the case the spec
settles (R213, D31). -/
def Obligations.MovMemoryToMemoryReadsBeforeItWrites : Prop :=
  ∀ (s t : State) (size : Size) (src dst : Operand) (ea ea' v : Word) (us us' : Updates),
    src.shares dst = false → dst.shares src = false → hazardHits s src.readPointers = false →
    operandStep s .xr size src ea us → operandStep s .xw size dst ea' us' →
    delivers s size ea v → stores s.closeWindow size ea' v t →
      exec (.mov size src dst) s = .next (t.setRegs (us ++ us'))

/-- The register indexed mode addresses the sum and changes neither register: as source, as destination (through
the bit-reversed pointer too, where bit-reversed addressing does not function, R192), and as both or either
operand of a move from memory to memory, word and byte, in RAM or at a control register (R148, R213; a byte of a
control register by the spec's inference D22). That the operand's own register is the pointer and the other the
index is the model's deduction (log 13), and so is the low byte as the byte a register stores (log 15); the upper
byte of a register after a byte load is free (D20). -/
def Obligations.MovIndexedAddressesTheSum : Prop :=
  (∀ (s : State) (size : Size) (n b d : Reg) (v : Word), hazardHits s [n, b] = false →
    xModActive s n = false → xModActive s b = false → delivers s size (s.w n + s.w b) v →
      ∃ u : Word, (size = .word → u = v) ∧ u.extractLsb' 0 8 = v.extractLsb' 0 8 ∧
        exec (.mov size (.idx n b) (.reg d)) s = .next (s.closeWindow.setW d u)) ∧
  (∀ (s t : State) (size : Size) (n b r : Reg), xModActive s n = false → xModActive s b = false →
    stores s.closeWindow size (s.w n + s.w b) (s.w r) t →
      exec (.mov size (.reg r) (.idx n b)) s = .next t) ∧
  (∀ (s t : State) (size : Size) (n b d b' : Reg) (v : Word), hazardHits s [n, b] = false →
    xModActive s n = false → xModActive s b = false → xModActive s d = false → xModActive s b' = false →
    delivers s size (s.w n + s.w b) v → stores s.closeWindow size (s.w d + s.w b') v t →
      exec (.mov size (.idx n b) (.idx d b')) s = .next t) ∧
  (∀ (s t : State) (size : Size) (m : PtrMode) (n b d : Reg) (v : Word),
    hazardHits s [n, b] = false → xModActive s n = false → xModActive s b = false → plainWrite s d size m →
    (d ∉ [n, b] ∨ m = .ind) → delivers s size (s.w n + s.w b) v →
    stores s.closeWindow size (m.plainEa (s.w d) size.step) v t →
      exec (.mov size (.idx n b) (.ptr m d)) s = .next (t.setW d (m.plainNext (s.w d) size.step))) ∧
  (∀ (s t : State) (size : Size) (m : PtrMode) (n d b : Reg) (v : Word),
    hazardHits s [n] = false → plainRead s n → xModActive s d = false → xModActive s b = false →
    (n ∉ [d, b] ∨ m = .ind) → delivers s size (m.plainEa (s.w n) size.step) v →
    stores s.closeWindow size (s.w d + s.w b) v t →
      exec (.mov size (.ptr m n) (.idx d b)) s = .next (t.setW n (m.plainNext (s.w n) size.step)))

/-- An access through a modulo pointer inside its buffer, in each pointer mode, on each path: a word and a byte
load (`XR`), a word and a byte store (`XW`; with bit-reversed addressing active for the pointer too, only where
the offset is zero, `[Wn]` or an offset of 0, R200; the other such writes: O26, O42), a MAC's X read through W8 or
W9 and its Y read through W10 or W11 (`Y`): the pointer takes the buffer's step, wrapped at the end or at the
start, and the access uses the address before it, or after it in the pre-modification modes (R141, R169, R170,
R177). The literal offset and indexed modes, word and byte, correct the sum alone and leave the pointer. Moves
from memory to memory are O39, POP is O48, MAC's write back O50. The correction inside its contract is the spec's
decision D10 (log 22). The model's choices in it: the low byte as the byte stored (log 15), the operand's own
register as the pointer of the indexed mode (log 13), MAC's offsets and destinations as parameters (log 7), and,
in the MAC clauses, that the accumulator not targeted keeps its content and the targeted one gets a free content
(log 2). A byte at a control register is the spec's inference D22. -/
def Obligations.AccessThroughAModuloPointerWraps : Prop :=
  (∀ (s : State) (m : PtrMode) (n d : Reg) (v q : Word), (n ≠ d ∨ m = .ind) →
    hazardHits s [n] = false → xModActive s n = true →
    moduloStep s.xmodsrt s.xmodend (s.w n) (m.delta 2) q → deliversWord s (m.usedEa (s.w n) q) v →
      exec (.mov .word (.ptr m n) (.reg d)) s = .next ((s.closeWindow.setW n q).setW d v)) ∧
  (∀ (s : State) (m : PtrMode) (n d : Reg) (b : Byte) (q : Word), (n ≠ d ∨ m = .ind) →
    hazardHits s [n] = false → xModActive s n = true →
    moduloStep s.xmodsrt s.xmodend (s.w n) (m.delta 1) q → deliversByte s (m.usedEa (s.w n) q) b →
      ∃ v : Word, v.extractLsb' 0 8 = b ∧
        exec (.mov .byte (.ptr m n) (.reg d)) s = .next ((s.closeWindow.setW n q).setW d v)) ∧
  (∀ (s t : State) (m : PtrMode) (n d : Reg) (q : Word), (n ≠ d ∨ m = .ind) →
    xModActive s d = true → (bitRevActive s d = false ∨ m = .ind) →
    moduloStep s.xmodsrt s.xmodend (s.w d) (m.delta 2) q →
    storesWord s.closeWindow (m.usedEa (s.w d) q) (s.w n) t →
      exec (.mov .word (.reg n) (.ptr m d)) s = .next (t.setW d q)) ∧
  (∀ (s t : State) (m : PtrMode) (n d : Reg) (q : Word), (n ≠ d ∨ m = .ind) →
    xModActive s d = true → (bitRevActive s d = false ∨ m = .ind) →
    moduloStep s.xmodsrt s.xmodend (s.w d) (m.delta 1) q →
    storesByte s.closeWindow (m.usedEa (s.w d) q) ((s.w n).extractLsb' 0 8) t →
      exec (.mov .byte (.reg n) (.ptr m d)) s = .next (t.setW d q)) ∧
  (∀ (s : State) (m : BitVec 3) (acc : Acc) (x y : BitVec 2) (i j : BitVec 4) (wb : BitVec 2)
    (bx : Bool) (dx : Int) (v q : Word),
    s.par.xOps[i.toFin] = some ⟨bx, some dx⟩ → s.par.yOps[j.toFin] = none →
    s.par.writeBack[wb.toFin] = none →
    let n : Reg := if bx then 9 else 8
    let e : Reg := s.par.xDest[x.toFin]
    e ≠ n → hazardHits s [n] = false → xModActive s n = true →
    moduloStep s.xmodsrt s.xmodend (s.w n) dx q → dspXReads s (s.w n) v →
      exec (.mac m acc x y i j wb) s =
        .next (((s.closeWindow.setAcc acc (Config.freeContent s.draws)).setW e v).setW n q)) ∧
  (∀ (s : State) (m : BitVec 3) (acc : Acc) (x y : BitVec 2) (i j : BitVec 4) (wb : BitVec 2)
    (bY : Bool) (dy : Int) (v q : Word),
    s.par.xOps[i.toFin] = none → s.par.yOps[j.toFin] = some ⟨bY, some dy⟩ →
    s.par.writeBack[wb.toFin] = none →
    let n : Reg := if bY then 11 else 10
    let e : Reg := s.par.yDest[y.toFin]
    e ≠ n → hazardHits s [n] = false → yModActive s n = true →
    moduloStep s.ymodsrt s.ymodend (s.w n) dy q → dspYReads s (s.w n) v →
      exec (.mac m acc x y i j wb) s =
        .next (((s.closeWindow.setAcc acc (Config.freeContent s.draws)).setW e v).setW n q)) ∧
  (∀ (s : State) (size : Size) (p d : Reg) (k : Int) (v q : Word),
    hazardHits s [p] = false → xModActive s p = true →
    moduloStep s.xmodsrt s.xmodend (s.w p) k q → delivers s size q v →
      ∃ u : Word, (size = .word → u = v) ∧ u.extractLsb' 0 8 = v.extractLsb' 0 8 ∧
        exec (.movLoadOff size p k d) s = .next (s.closeWindow.setW d u)) ∧
  (∀ (s t : State) (size : Size) (n p : Reg) (k : Int) (q : Word),
    xModActive s p = true → (bitRevActive s p = false ∨ k = 0) →
    moduloStep s.xmodsrt s.xmodend (s.w p) k q → stores s.closeWindow size q (s.w n) t →
      exec (.movStoreOff size n p k) s = .next t) ∧
  (∀ (s : State) (size : Size) (n b d : Reg) (v q : Word),
    hazardHits s [n, b] = false → xModActive s n = true →
    moduloStep s.xmodsrt s.xmodend (s.w n) (s.w b).toInt q → delivers s size q v →
      ∃ u : Word, (size = .word → u = v) ∧ u.extractLsb' 0 8 = v.extractLsb' 0 8 ∧
        exec (.mov size (.idx n b) (.reg d)) s = .next (s.closeWindow.setW d u)) ∧
  (∀ (s t : State) (size : Size) (n b r : Reg) (q : Word),
    xModActive s n = true → (bitRevActive s n = false ∨ s.w b = 0#16) →
    moduloStep s.xmodsrt s.xmodend (s.w n) (s.w b).toInt q → stores s.closeWindow size q (s.w r) t →
      exec (.mov size (.reg r) (.idx n b)) s = .next t)

/-- A word store with post- or pre-increment through the bit-reversed pointer, with a listed modifier, to RAM or
to a control register: the reverse-carry sum replaces the increment, whether or not modulo addressing is active
too (R193, R198). The word comes from a register, or from memory or a control register through another operand
(the source's example, R202): a pointer in each of the five modes, plain or in the X buffer, or the register
indexed mode, whose pointer is the operand's own register by the model's deduction (log 13). Where the source
register is the bit-reversed pointer itself the value stored is free, the model's choice (log 24). -/
def Obligations.MovStoresThroughTheBitReversedPointer : Prop :=
  ∀ (s t : State) (d : Reg) (j : Nat) (inc : PtrMode), bitRevActive s d = true → j < 15 →
    s.xb = BitVec.ofNat 15 (2 ^ j) → inc = .postInc ∨ inc = .preInc →
    let q := revAdd (s.w d) s.xb
    (∀ n : Reg, n ≠ d → storesWord s.closeWindow (inc.usedEa (s.w d) q) (s.w n) t →
      exec (.mov .word (.reg n) (.ptr inc d)) s = .next (t.setW d q)) ∧
    (storesWord s.closeWindow (inc.usedEa (s.w d) q) (Config.freeWord .srcValue s.draws) t →
      exec (.mov .word (.reg d) (.ptr inc d)) s = .next (t.setW d q)) ∧
    (∀ (src : Operand) (ea v : Word) (us : Updates), d ∉ src.regs →
      hazardHits s src.readPointers = false → operandStep s .xr .word src ea us →
      deliversWord s ea v → storesWord s.closeWindow (inc.usedEa (s.w d) q) v t →
        exec (.mov .word src (.ptr inc d)) s = .next ((t.setRegs us).setW d q))

/-- `MOV [Ws + lit10], Wnd`: the byte offset is added, the pointer is not changed, word and byte, from RAM or
from a control register (R214, R149; a byte of one by the spec's inference D22); the upper byte after a byte load
is free (D20). -/
def Obligations.MovLiteralOffsetLoads : Prop :=
  (∀ (s : State) (p d : Reg) (k : Int) (v : Word), hazardHits s [p] = false → plainRead s p →
    deliversWord s (s.w p + BitVec.ofInt 16 k) v →
      exec (.movLoadOff .word p k d) s = .next (s.closeWindow.setW d v)) ∧
  (∀ (s : State) (p d : Reg) (k : Int) (b : Byte), hazardHits s [p] = false → plainRead s p →
    deliversByte s (s.w p + BitVec.ofInt 16 k) b →
      ∃ v : Word, v.extractLsb' 0 8 = b ∧
        exec (.movLoadOff .byte p k d) s = .next (s.closeWindow.setW d v))

/-- `MOV Wns, [Wd + lit10]`: the store form, word and byte, to RAM or to a control register, through the
bit-reversed pointer too, which this mode does not reverse (R192, R214, R149; a byte of one by the spec's
inference D22). The byte stored is the low byte of the source register, which the model deduces (log 15). -/
def Obligations.MovLiteralOffsetStores : Prop :=
  (∀ (s t : State) (n p : Reg) (k : Int), xModActive s p = false →
    storesWord s.closeWindow (s.w p + BitVec.ofInt 16 k) (s.w n) t →
      exec (.movStoreOff .word n p k) s = .next t) ∧
  (∀ (s t : State) (n p : Reg) (k : Int), xModActive s p = false →
    storesByte s.closeWindow (s.w p + BitVec.ofInt 16 k) ((s.w n).extractLsb' 0 8) t →
      exec (.movStoreOff .byte n p k) s = .next t)

/-! ### NOP, REPEAT, POP and the instructions that are only named -/

/-- NOP empties the hazard window and changes nothing else (R215). -/
def Obligations.NopOnlyEmptiesTheHazardWindow : Prop :=
  ∀ s : State, exec .nop s = .next { s with haz := [] }

/-- REPEAT outside a REPEAT asks for `lit` executions after the first and ends the hazard window (R216,
R258 b). -/
def Obligations.RepeatArmsTheCount : Prop :=
  ∀ (s : State) (lit : BitVec 14), s.rep = 0 →
    exec (.repeatLit lit) s = .next { s with haz := [], rep := lit.toNat }

/-- REPEAT as the repeated statement of a REPEAT is refused: the model's choice where the spec models no
nesting (D26, log 4). -/
def Obligations.NestedRepeatIsRefused : Prop :=
  ∀ (s : State) (lit : BitVec 14), s.rep ≠ 0 → exec (.repeatLit lit) s = .refused .nestedRepeat

/-- POP reads the word the parameters' pointer and mode address, in RAM or in a control register, and writes it
to `f`, in RAM or in a control register, where it counts as a write of that register (R217); the pointer is stepped
plainly or in the X buffer (R169); nothing else changes. Executing POP, through a parameter pointer, is the model's
choice (log 8); the modulo correction is the spec's decision D10 (log 22). -/
def Obligations.PopMovesTheTopOfStack : Prop :=
  (∀ (s : State) (f ea q v : Word), hazardHits s (List.finRange 16) = false →
    xPointer s .xr s.par.popReg .word s.par.popMode ea q → deliversWord s ea v →
    misaligned f = false → inRam s f →
      exec (.pop f) s = .next ((s.closeWindow.setWord f v).setW s.par.popReg q)) ∧
  (∀ (s : State) (r : CtrlReg) (ea q v : Word), s.par.addrsOk = true →
    hazardHits s (List.finRange 16) = false →
    xPointer s .xr s.par.popReg .word s.par.popMode ea q → deliversWord s ea v →
      ∃ t, exec (.pop (s.par.ctrlAddr r)) s = .next t ∧ t.ctrl r = r.fix v ∧
        t.haz = [hazEntry s r] ∧ t.w s.par.popReg = q ∧
        sameRegsBut s t [s.par.popReg] ∧ sameBytes s t ∧ (∀ r', r' ≠ r → t.ctrl r' = s.ctrl r') ∧
        sameAccs s t ∧ sameFrame s t ∧ t.fault = s.fault ∧ t.rep = s.rep)

/-- RETURN, RETFIE, RETLW and ULNK are indirect reads and stop: the spec states no effect of them (R218 to
R221). -/
def Obligations.InstructionsOnlyNamedStop : Prop :=
  ∀ (s : State) (size : Size) (lit : BitVec 10) (d : Reg),
    exec .ret s = .refused (.noEffectStated "RETURN") ∧
    exec .retfie s = .refused (.noEffectStated "RETFIE") ∧
    exec (.retlw size lit d) s = .refused (.noEffectStated "RETLW") ∧
    exec .ulnk s = .refused (.noEffectStated "ULNK") ∧
    Instr.ret.indirectRead s.par = true ∧ Instr.retfie.indirectRead s.par = true ∧
    (Instr.retlw size lit d).indirectRead s.par = true ∧ Instr.ulnk.indirectRead s.par = true

/-! ### MAC (R222) -/

/-- MAC with no prefetch, one or both, with or without a write back, its prefetches under no hazard: each
destination gets what its path reads, zero in the wrong space, each pointer its sum with the offset, plain or in
its modulo buffer (R222, R150, R177); the write back stores a free value through W13, plain, in the X buffer or
bit-reversed (R126; `u` is the state after it); nothing else changes, so with no prefetch and no write back only
the targeted accumulator and the hazard window do. A register that two of these would write ends with a free
value, the model's choice (log 24). The offsets, destinations and the write-back mode are parameters (log 7). That
the accumulator not targeted keeps its content and the targeted one gets a free content is the model's choice
(log 2); an X read of a control register is the spec's inference D24. -/
def Obligations.MacPrefetchesFromBothSpaces : Prop :=
  ∀ (s u : State) (m : BitVec 3) (acc : Acc) (x y : BitVec 2) (i j : BitVec 4) (wb : BitVec 2)
    (ux uy uw : Updates),
    xPrefetches s s.par.xOps[i.toFin] s.par.xDest[x.toFin] ux →
    yPrefetches s s.par.yOps[j.toFin] s.par.yDest[y.toFin] uy →
    let c : State := s.closeWindow.setAcc acc (Config.freeContent s.draws)
    ((s.par.writeBack[wb.toFin] = none ∧ u = c ∧ uw = []) ∨
      ∃ md ea q, s.par.writeBack[wb.toFin] = some md ∧ prefetchesTo13 s.par x y i j = false ∧
        xPointer s .xw 13 .word md ea q ∧ storesWord c ea (Config.accStored (s.acc (otherAcc acc)) s.draws) u ∧
        uw = if md = .ind then [] else [(13, q)]) →
      ∃ t, exec (.mac m acc x y i j wb) s = .next t ∧
        registersAfter s t (ux ++ uy ++ uw) ∧ sameBytes u t ∧ sameCtrl u t ∧ t.haz = u.haz ∧
        t.acc acc = Config.freeContent s.draws ∧ t.acc (otherAcc acc) = s.acc (otherAcc acc) ∧
        sameFrame s t ∧ t.fault = s.fault ∧ t.rep = s.rep

/-- MAC with a write back and no prefetch, under plain addressing (through the bit-reversed pointer too, where the
mode does not increment, R192): the 16 bits stored through W13, in RAM or in a control register, are a free value
of the accumulator not targeted (R126, R222). That its content stays, and that the targeted one gets a free
content, is the model's choice (log 2); the mode is a parameter (log 7). -/
def Obligations.MacWritesBackThroughW13 : Prop :=
  ∀ (s t : State) (m : BitVec 3) (acc : Acc) (x y : BitVec 2) (i j : BitVec 4) (wb : BitVec 2)
    (md : PtrMode),
    s.par.xOps[i.toFin] = none → s.par.yOps[j.toFin] = none →
    s.par.writeBack[wb.toFin] = some md → plainWrite s 13 .word md →
    storesWord (s.closeWindow.setAcc acc (Config.freeContent s.draws))
      (md.plainEa (s.w 13) 2#16) (Config.accStored (s.acc (otherAcc acc)) s.draws) t →
      exec (.mac m acc x y i j wb) s = .next (t.setW 13 (md.plainNext (s.w 13) 2#16))

/-- A MAC one of whose prefetches, the only one it has or beside another, is misaligned or unimplemented takes the
address error trap, whatever the other prefetch reads, RAM that nothing has written included (R231, R232), and
whatever its write back does: the X read's trap is the one recorded, or the Y read's where there is no X read or
it meets no cause (R239, the spec's decision D25). That the trap is taken although the model stops the other
prefetch (RAM that nothing has written, a special function register the spec does not describe) is the model's
deduction (log 25). With no write back memory and the control registers are unchanged. -/
def Obligations.MacRecordsTheXReadFirst : Prop :=
  ∀ (s : State) (m : BitVec 3) (acc : Acc) (x y : BitVec 2) (i j : BitVec 4) (wb : BitVec 2),
    (∀ o, s.par.xOps[i.toFin] = some o → hazardHits s [o.pointer .xr] = false →
      xPointerInside s (o.pointer .xr) → wordReadTraps s (s.w (o.pointer .xr)) →
        ∃ t, exec (.mac m acc x y i j wb) s = .next t ∧
          t.fault = some ⟨s.w (o.pointer .xr), .read⟩ ∧
          (s.par.writeBack[wb.toFin] = none → nothingStored s t)) ∧
    (∀ o, s.par.yOps[j.toFin] = some o →
      (∀ o', s.par.xOps[i.toFin] = some o' → hazardHits s [o'.pointer .xr] = false ∧
        xPointerInside s (o'.pointer .xr) ∧ inPlace s .word (s.w (o'.pointer .xr))) →
      hazardHits s [o.pointer .y] = false → yReserved s = false → yPointerInside s (o.pointer .y) →
      ¬ inPlace s .word (s.w (o.pointer .y)) →
        ∃ t, exec (.mac m acc x y i j wb) s = .next t ∧ t.fault = some ⟨s.w (o.pointer .y), .read⟩ ∧
          (s.par.writeBack[wb.toFin] = none → nothingStored s t))

/-! ### The address error trap (60_exceptions) -/

/-- A read on the `XR` path takes the trap when the address is misaligned (a word) or unimplemented (R231, R232):
`MOV f, Wnd`; a load through a pointer in each of the five modes or through the register indexed mode (the pointer
deduced, log 13), and the read of a move from memory to memory, with either kind of operand at either end, word and
byte; with a literal offset; and POP's read, through its parameter pointer (the model's choice, log 8): plain, or
through a modulo pointer in its buffer (the correction the spec's decision D10, log 22). The mark holds the address and
`read`, every register the statement does not name is unchanged (R235); nothing is stored but by the statement's own
write at its generated address, where it has one, whose fate is open there and which never hides the trap, whatever it
would do (the model's deduction, log 25). -/
def Obligations.ReadTrapsOnABadAddress : Prop :=
  (∀ (s : State) (f : Word) (d : Reg), wordReadTraps s f →
    ∃ t, exec (.movLoad f d) s = .next t ∧ trapped s t f .read [d] ∧ nothingStored s t) ∧
  (∀ (s : State) (size : Size) (src dst : Operand) (ea : Word) (us : Updates),
    src.shares dst = false → hazardHits s src.readPointers = false → operandStep s .xr size src ea us →
    readTraps s size ea →
      ∃ t, exec (.mov size src dst) s = .next t ∧ trapped s t ea .read (src.regs ++ dst.regs) ∧
        (∀ d, dst = .reg d → nothingStored s t) ∧
        (∀ ea', storeTarget (.mov size src dst) s = some (size, ea') → nothingStoredBut s t size ea')) ∧
  (∀ (s : State) (size : Size) (p d : Reg) (k : Int) (ea : Word), hazardHits s [p] = false →
    xStep s .xr p size (.litOff k) k ea → readTraps s size ea →
      ∃ t, exec (.movLoadOff size p k d) s = .next t ∧ trapped s t ea .read [p, d] ∧
        nothingStored s t) ∧
  (∀ (s : State) (f ea q : Word), hazardHits s (List.finRange 16) = false →
    xPointer s .xr s.par.popReg .word s.par.popMode ea q → readTraps s .word ea →
      ∃ t, exec (.pop f) s = .next t ∧ trapped s t ea .read [s.par.popReg] ∧
        nothingStoredBut s t .word f)

/-- A store takes the trap when the address is misaligned (a word) or unimplemented, and stores nothing (R231,
R232, R234, R239): direct (`MOV Wns, f`), through a pointer in each mode, through the register indexed mode (the
pointer deduced, log 13) and with a literal offset, word and byte; the write of a move from memory, with either
kind of operand at either end, and POP's write to `f` (its pointer the model's choice, log 8), whose own read
meets no cause of the trap; and a MAC's write back through W13 (R126; its mode a parameter, log 7), with or
without prefetches that meet no cause. The pointers are plain, in the X buffer (the spec's decision D10, log 22),
or, of the write, bit-reversed: bit 0 of a bit-reversed pointer is kept, so an odd one traps (R194). That such a
read's own stop in the model (RAM that nothing has written, a special function register the spec does not
describe) does not hide the write's trap is the model's deduction (log 25). After a MAC's trap the registers it
names are open, its multiplicands a parameter (log 12), and the accumulator not targeted keeps its content, the
model's choice (log 2). -/
def Obligations.StoreTrapsOnABadAddress : Prop :=
  (∀ (s : State) (n : Reg) (f : Word), ¬ inPlace s .word f →
    ∃ t, exec (.movStore n f) s = .next t ∧ trapped s t f .write [n] ∧ nothingStored s t) ∧
  (∀ (s : State) (size : Size) (n : Reg) (dst : Operand) (ea : Word) (us : Updates),
    operandStep s .xw size dst ea us → ¬ inPlace s size ea →
      ∃ t, exec (.mov size (.reg n) dst) s = .next t ∧ trapped s t ea .write (n :: dst.regs) ∧
        nothingStored s t) ∧
  (∀ (s : State) (size : Size) (n p : Reg) (k : Int) (ea : Word), xStep s .xw p size (.litOff k) k ea →
    ¬ inPlace s size ea →
      ∃ t, exec (.movStoreOff size n p k) s = .next t ∧ trapped s t ea .write [n, p] ∧
        nothingStored s t) ∧
  (∀ (s : State) (size : Size) (src dst : Operand) (ea ea' : Word) (us us' : Updates),
    src.shares dst = false → dst.shares src = false → hazardHits s src.readPointers = false →
    operandStep s .xr size src ea us → operandStep s .xw size dst ea' us' →
    inPlace s size ea → ¬ inPlace s size ea' →
      ∃ t, exec (.mov size src dst) s = .next t ∧ trapped s t ea' .write (src.regs ++ dst.regs) ∧
        nothingStored s t) ∧
  (∀ (s : State) (f ea q : Word), hazardHits s (List.finRange 16) = false →
    xPointer s .xr s.par.popReg .word s.par.popMode ea q → inPlace s .word ea → ¬ inPlace s .word f →
      ∃ t, exec (.pop f) s = .next t ∧ trapped s t f .write [s.par.popReg] ∧ nothingStored s t) ∧
  (∀ (s : State) (m : BitVec 3) (acc : Acc) (x y : BitVec 2) (i j : BitVec 4) (wb : BitVec 2)
    (md : PtrMode) (ea q : Word), s.par.writeBack[wb.toFin] = some md → xPointer s .xw 13 .word md ea q →
    prefetchesTo13 s.par x y i j = false →
    (∀ o, s.par.xOps[i.toFin] = some o → hazardHits s [o.pointer .xr] = false ∧
      xPointerInside s (o.pointer .xr) ∧ inPlace s .word (s.w (o.pointer .xr))) →
    (∀ o, s.par.yOps[j.toFin] = some o → hazardHits s [o.pointer .y] = false ∧ yReserved s = false ∧
      yPointerInside s (o.pointer .y) ∧ inPlace s .word (s.w (o.pointer .y))) →
    ¬ inPlace s .word ea →
      ∃ t, exec (.mac m acc x y i j wb) s = .next t ∧
        t.fault = some ⟨ea, .write⟩ ∧
        sameRegsBut s t (macNamed s.par m x y i j wb) ∧ nothingStored s t ∧
        t.acc (otherAcc acc) = s.acc (otherAcc acc) ∧ sameFrame s t)

/-- Every instruction: when it takes the trap, what it does not name is unchanged (R235): the W registers
outside the ones it names (for POP its parameter pointer alone, log 8; for MAC the multiplicands that the
parameters give its code, which is the model's choice, log 12, and the registers of the prefetches and the write
back it has), the accumulators but the one a MAC targets (that the other keeps its content is the model's
choice, log 2), the frame, every byte of memory and control register but at the address its write
goes to; and where the trap is the write's, or it writes nothing, no byte and no control register at all (R234).
A pending REPEAT count stays or is abandoned (open in R235, log 12). -/
def Obligations.TrapLeavesWhatTheStatementDoesNotName : Prop :=
  ∀ (i : Instr) (s t : State) (e : AddressError),
    s.fault = none → exec i s = .next t → t.fault = some e →
      sameRegsBut s t (namedRegs i s.par) ∧ sameFrame s t ∧
      (∀ acc, targetAcc i ≠ some acc → t.acc acc = s.acc acc) ∧
      (e.kind = .write ∨ storeTarget i s = none → sameBytes s t ∧ sameCtrl s t ∧ t.haz = []) ∧
      (∀ size ea, storeTarget i s = some (size, ea) →
        sameBytesBut s t size ea ∧ sameCtrlBut s t ea ∧
        (region s.par ea ≠ .sfr → sameCtrl s t ∧ t.haz = [])) ∧
      (t.rep = s.rep ∨ t.rep = 0)

/-! ### Frames -/

/-- `MOV #lit,Wnd`, `MOV f,Wnd`, `MOV Ws,Wnd`, `MOV [Ws+lit10],Wnd`: every byte of memory, every control
register and both accumulators are unchanged, the hazard window ends empty; without a trap only the
destination and a pointer the source operand modifies are written, and the REPEAT count stays. -/
def Obligations.FrameOfTheRegisterForms : Prop :=
  ∀ (i : Instr) (s t : State) (d : Reg) (ps : List Reg),
    s.fault = none → registerForm i = some (d, ps) → exec i s = .next t →
      sameBytes s t ∧ sameCtrl s t ∧ sameAccs s t ∧ sameFrame s t ∧ t.haz = [] ∧
      (t.fault = none → sameRegsBut s t (d :: ps) ∧ t.rep = s.rep)

/-- `MOV Wns,f`, `MOV Ws,[Wd...]`, `MOV Wns,[Wd+lit10]`, POP: with `ea` the address the meaning stores to, every
byte outside the stored ones and every control register not at `ea` are unchanged, the accumulators too; a store
outside the SFR space leaves the hazard window empty; without a trap only the pointers the operands modify are
written, and the REPEAT count stays. That POP writes nothing but `f` and its parameter pointer is the model's
choice (log 8): the source says nothing of its pointer. -/
def Obligations.FrameOfTheStoringForms : Prop :=
  ∀ (i : Instr) (s t : State) (size : Size) (ea : Word) (ps : List Reg),
    s.fault = none → storeForm i s = some (size, ea, ps) → exec i s = .next t →
      sameBytesBut s t size ea ∧ sameCtrlBut s t ea ∧ sameAccs s t ∧ sameFrame s t ∧
      (region s.par ea ≠ .sfr → t.haz = [] ∧ sameCtrl s t) ∧
      (t.fault = none → sameRegsBut s t ps ∧ t.rep = s.rep)

/-- MAC: with no write back every byte and control register is unchanged; with one, every byte outside the
word it stores at its generated address and every control register not there; without a trap only the
destinations and pointers of its prefetches and W13 are written. The destinations, offsets and write-back modes
are parameters (log 7); that the accumulator not targeted is unchanged is the model's choice (log 2). -/
def Obligations.FrameOfMac : Prop :=
  ∀ (s t : State) (m : BitVec 3) (acc : Acc) (x y : BitVec 2) (i j : BitVec 4) (wb : BitVec 2),
    s.fault = none → exec (.mac m acc x y i j wb) s = .next t →
      (s.par.writeBack[wb.toFin] = none → sameBytes s t ∧ sameCtrl s t ∧ t.haz = []) ∧
      (∀ md, s.par.writeBack[wb.toFin] = some md →
        sameBytesBut s t .word (writeBackGen s md x y i j).ea ∧
        sameCtrlBut s t (writeBackGen s md x y i j).ea) ∧
      t.acc (otherAcc acc) = s.acc (otherAcc acc) ∧ sameFrame s t ∧
      (t.fault = none → sameRegsBut s t (macUpdates s.par x y i j wb) ∧ t.rep = s.rep)

/-! ### Where a direct access stops -/

/-- An access to the SFR space at an address that is none of the six registers is refused: what stands
there is not described (R41, R128). -/
def Obligations.OtherSfrAddressIsRefused : Prop :=
  ∀ (s : State) (f : Word) (n : Reg), region s.par f = .sfr →
    (∀ r : CtrlReg, s.par.ctrlAddr r ≠ wordAddr f) →
      exec (.movLoad f n) s = .refused (.sfrNotDescribed (wordAddr f)) ∧
      (misaligned f = false → exec (.movStore n f) s = .refused (.sfrNotDescribed f))

/-- A word of RAM that holds no value cannot be read: the model's fault for what the spec leaves without a
value (R40, log 3). -/
def Obligations.ReadOfUnwrittenRamFaults : Prop :=
  ∀ (s : State) (f : Word) (d : Reg), misaligned f = false → inRam s f → s.wordAt f = none →
    exec (.movLoad f d) s = .fault (.readOfUnwritten f)
end

