-- ==== Sys2Proof/Laws/State.lean ====
section
/-! SUPPORT. One lemma per field per update of State: what each operation on states leaves alone. -/

namespace Sys2Proof.Machine

/-! ### closeWindow -/

@[simp] theorem closeWindow_regs (s : State) : (s.closeWindow).regs = s.regs := rfl
@[simp] theorem closeWindow_modcon (s : State) : (s.closeWindow).modcon = s.modcon := rfl
@[simp] theorem closeWindow_xmodsrt (s : State) : (s.closeWindow).xmodsrt = s.xmodsrt := rfl
@[simp] theorem closeWindow_xmodend (s : State) : (s.closeWindow).xmodend = s.xmodend := rfl
@[simp] theorem closeWindow_ymodsrt (s : State) : (s.closeWindow).ymodsrt = s.ymodsrt := rfl
@[simp] theorem closeWindow_ymodend (s : State) : (s.closeWindow).ymodend = s.ymodend := rfl
@[simp] theorem closeWindow_xbrev (s : State) : (s.closeWindow).xbrev = s.xbrev := rfl
@[simp] theorem closeWindow_accA (s : State) : (s.closeWindow).accA = s.accA := rfl
@[simp] theorem closeWindow_accB (s : State) : (s.closeWindow).accB = s.accB := rfl
@[simp] theorem closeWindow_mem (s : State) : (s.closeWindow).mem = s.mem := rfl
@[simp] theorem closeWindow_fault (s : State) : (s.closeWindow).fault = s.fault := rfl
@[simp] theorem closeWindow_pc (s : State) : (s.closeWindow).pc = s.pc := rfl
@[simp] theorem closeWindow_rep (s : State) : (s.closeWindow).rep = s.rep := rfl
@[simp] theorem closeWindow_prog (s : State) : (s.closeWindow).prog = s.prog := rfl
@[simp] theorem closeWindow_par (s : State) : (s.closeWindow).par = s.par := rfl
@[simp] theorem closeWindow_draws (s : State) : (s.closeWindow).draws = s.draws := rfl

@[simp] theorem closeWindow_haz (s : State) : s.closeWindow.haz = [] := rfl

/-! ### setW -/

@[simp] theorem setW_modcon (s : State) (n : Reg) (v : Word) : (s.setW n v).modcon = s.modcon := rfl
@[simp] theorem setW_xmodsrt (s : State) (n : Reg) (v : Word) : (s.setW n v).xmodsrt = s.xmodsrt := rfl
@[simp] theorem setW_xmodend (s : State) (n : Reg) (v : Word) : (s.setW n v).xmodend = s.xmodend := rfl
@[simp] theorem setW_ymodsrt (s : State) (n : Reg) (v : Word) : (s.setW n v).ymodsrt = s.ymodsrt := rfl
@[simp] theorem setW_ymodend (s : State) (n : Reg) (v : Word) : (s.setW n v).ymodend = s.ymodend := rfl
@[simp] theorem setW_xbrev (s : State) (n : Reg) (v : Word) : (s.setW n v).xbrev = s.xbrev := rfl
@[simp] theorem setW_accA (s : State) (n : Reg) (v : Word) : (s.setW n v).accA = s.accA := rfl
@[simp] theorem setW_accB (s : State) (n : Reg) (v : Word) : (s.setW n v).accB = s.accB := rfl
@[simp] theorem setW_mem (s : State) (n : Reg) (v : Word) : (s.setW n v).mem = s.mem := rfl
@[simp] theorem setW_haz (s : State) (n : Reg) (v : Word) : (s.setW n v).haz = s.haz := rfl
@[simp] theorem setW_fault (s : State) (n : Reg) (v : Word) : (s.setW n v).fault = s.fault := rfl
@[simp] theorem setW_pc (s : State) (n : Reg) (v : Word) : (s.setW n v).pc = s.pc := rfl
@[simp] theorem setW_rep (s : State) (n : Reg) (v : Word) : (s.setW n v).rep = s.rep := rfl
@[simp] theorem setW_prog (s : State) (n : Reg) (v : Word) : (s.setW n v).prog = s.prog := rfl
@[simp] theorem setW_par (s : State) (n : Reg) (v : Word) : (s.setW n v).par = s.par := rfl
@[simp] theorem setW_draws (s : State) (n : Reg) (v : Word) : (s.setW n v).draws = s.draws := rfl

/-! ### setByte -/

@[simp] theorem setByte_regs (s : State) (a : Word) (b : Byte) : (s.setByte a b).regs = s.regs := rfl
@[simp] theorem setByte_modcon (s : State) (a : Word) (b : Byte) : (s.setByte a b).modcon = s.modcon := rfl
@[simp] theorem setByte_xmodsrt (s : State) (a : Word) (b : Byte) : (s.setByte a b).xmodsrt = s.xmodsrt := rfl
@[simp] theorem setByte_xmodend (s : State) (a : Word) (b : Byte) : (s.setByte a b).xmodend = s.xmodend := rfl
@[simp] theorem setByte_ymodsrt (s : State) (a : Word) (b : Byte) : (s.setByte a b).ymodsrt = s.ymodsrt := rfl
@[simp] theorem setByte_ymodend (s : State) (a : Word) (b : Byte) : (s.setByte a b).ymodend = s.ymodend := rfl
@[simp] theorem setByte_xbrev (s : State) (a : Word) (b : Byte) : (s.setByte a b).xbrev = s.xbrev := rfl
@[simp] theorem setByte_accA (s : State) (a : Word) (b : Byte) : (s.setByte a b).accA = s.accA := rfl
@[simp] theorem setByte_accB (s : State) (a : Word) (b : Byte) : (s.setByte a b).accB = s.accB := rfl
@[simp] theorem setByte_haz (s : State) (a : Word) (b : Byte) : (s.setByte a b).haz = s.haz := rfl
@[simp] theorem setByte_fault (s : State) (a : Word) (b : Byte) : (s.setByte a b).fault = s.fault := rfl
@[simp] theorem setByte_pc (s : State) (a : Word) (b : Byte) : (s.setByte a b).pc = s.pc := rfl
@[simp] theorem setByte_rep (s : State) (a : Word) (b : Byte) : (s.setByte a b).rep = s.rep := rfl
@[simp] theorem setByte_prog (s : State) (a : Word) (b : Byte) : (s.setByte a b).prog = s.prog := rfl
@[simp] theorem setByte_par (s : State) (a : Word) (b : Byte) : (s.setByte a b).par = s.par := rfl
@[simp] theorem setByte_draws (s : State) (a : Word) (b : Byte) : (s.setByte a b).draws = s.draws := rfl

/-! ### setWord -/

@[simp] theorem setWord_regs (s : State) (a v : Word) : (s.setWord a v).regs = s.regs := rfl
@[simp] theorem setWord_modcon (s : State) (a v : Word) : (s.setWord a v).modcon = s.modcon := rfl
@[simp] theorem setWord_xmodsrt (s : State) (a v : Word) : (s.setWord a v).xmodsrt = s.xmodsrt := rfl
@[simp] theorem setWord_xmodend (s : State) (a v : Word) : (s.setWord a v).xmodend = s.xmodend := rfl
@[simp] theorem setWord_ymodsrt (s : State) (a v : Word) : (s.setWord a v).ymodsrt = s.ymodsrt := rfl
@[simp] theorem setWord_ymodend (s : State) (a v : Word) : (s.setWord a v).ymodend = s.ymodend := rfl
@[simp] theorem setWord_xbrev (s : State) (a v : Word) : (s.setWord a v).xbrev = s.xbrev := rfl
@[simp] theorem setWord_accA (s : State) (a v : Word) : (s.setWord a v).accA = s.accA := rfl
@[simp] theorem setWord_accB (s : State) (a v : Word) : (s.setWord a v).accB = s.accB := rfl
@[simp] theorem setWord_haz (s : State) (a v : Word) : (s.setWord a v).haz = s.haz := rfl
@[simp] theorem setWord_fault (s : State) (a v : Word) : (s.setWord a v).fault = s.fault := rfl
@[simp] theorem setWord_pc (s : State) (a v : Word) : (s.setWord a v).pc = s.pc := rfl
@[simp] theorem setWord_rep (s : State) (a v : Word) : (s.setWord a v).rep = s.rep := rfl
@[simp] theorem setWord_prog (s : State) (a v : Word) : (s.setWord a v).prog = s.prog := rfl
@[simp] theorem setWord_par (s : State) (a v : Word) : (s.setWord a v).par = s.par := rfl
@[simp] theorem setWord_draws (s : State) (a v : Word) : (s.setWord a v).draws = s.draws := rfl

/-! ### setCtrl -/

@[simp] theorem setCtrl_regs (s : State) (r : CtrlReg) (v : Word) : (s.setCtrl r v).regs = s.regs := by cases r <;> rfl
@[simp] theorem setCtrl_accA (s : State) (r : CtrlReg) (v : Word) : (s.setCtrl r v).accA = s.accA := by cases r <;> rfl
@[simp] theorem setCtrl_accB (s : State) (r : CtrlReg) (v : Word) : (s.setCtrl r v).accB = s.accB := by cases r <;> rfl
@[simp] theorem setCtrl_mem (s : State) (r : CtrlReg) (v : Word) : (s.setCtrl r v).mem = s.mem := by cases r <;> rfl
@[simp] theorem setCtrl_haz (s : State) (r : CtrlReg) (v : Word) : (s.setCtrl r v).haz = s.haz := by cases r <;> rfl
@[simp] theorem setCtrl_fault (s : State) (r : CtrlReg) (v : Word) : (s.setCtrl r v).fault = s.fault := by cases r <;> rfl
@[simp] theorem setCtrl_pc (s : State) (r : CtrlReg) (v : Word) : (s.setCtrl r v).pc = s.pc := by cases r <;> rfl
@[simp] theorem setCtrl_rep (s : State) (r : CtrlReg) (v : Word) : (s.setCtrl r v).rep = s.rep := by cases r <;> rfl
@[simp] theorem setCtrl_prog (s : State) (r : CtrlReg) (v : Word) : (s.setCtrl r v).prog = s.prog := by cases r <;> rfl
@[simp] theorem setCtrl_par (s : State) (r : CtrlReg) (v : Word) : (s.setCtrl r v).par = s.par := by cases r <;> rfl
@[simp] theorem setCtrl_draws (s : State) (r : CtrlReg) (v : Word) : (s.setCtrl r v).draws = s.draws := by cases r <;> rfl

/-! ### writeCtrl -/

@[simp] theorem writeCtrl_regs (s : State) (r : CtrlReg) (v : Word) : (s.writeCtrl r v).regs = s.regs := by cases r <;> rfl
@[simp] theorem writeCtrl_accA (s : State) (r : CtrlReg) (v : Word) : (s.writeCtrl r v).accA = s.accA := by cases r <;> rfl
@[simp] theorem writeCtrl_accB (s : State) (r : CtrlReg) (v : Word) : (s.writeCtrl r v).accB = s.accB := by cases r <;> rfl
@[simp] theorem writeCtrl_mem (s : State) (r : CtrlReg) (v : Word) : (s.writeCtrl r v).mem = s.mem := by cases r <;> rfl
@[simp] theorem writeCtrl_fault (s : State) (r : CtrlReg) (v : Word) : (s.writeCtrl r v).fault = s.fault := by cases r <;> rfl
@[simp] theorem writeCtrl_pc (s : State) (r : CtrlReg) (v : Word) : (s.writeCtrl r v).pc = s.pc := by cases r <;> rfl
@[simp] theorem writeCtrl_rep (s : State) (r : CtrlReg) (v : Word) : (s.writeCtrl r v).rep = s.rep := by cases r <;> rfl
@[simp] theorem writeCtrl_prog (s : State) (r : CtrlReg) (v : Word) : (s.writeCtrl r v).prog = s.prog := by cases r <;> rfl
@[simp] theorem writeCtrl_par (s : State) (r : CtrlReg) (v : Word) : (s.writeCtrl r v).par = s.par := by cases r <;> rfl
@[simp] theorem writeCtrl_draws (s : State) (r : CtrlReg) (v : Word) : (s.writeCtrl r v).draws = s.draws := by cases r <;> rfl

@[simp] theorem writeCtrl_haz (s : State) (r : CtrlReg) (v : Word) :
    (s.writeCtrl r v).haz = hazEntry s r :: s.haz := rfl

@[simp] theorem setCtrl_ctrl_same (s : State) (r : CtrlReg) (v : Word) :
    (s.setCtrl r v).ctrl r = r.fix v := by cases r <;> rfl

theorem setCtrl_ctrl_other (s : State) (r r' : CtrlReg) (v : Word) (h : r' ≠ r) :
    (s.setCtrl r v).ctrl r' = s.ctrl r' := by
  cases r <;> cases r' <;> first | rfl | exact absurd rfl h

@[simp] theorem writeCtrl_ctrl (s : State) (r r' : CtrlReg) (v : Word) :
    (s.writeCtrl r v).ctrl r' = (s.setCtrl r v).ctrl r' := by cases r' <;> rfl

/-! ### setAcc -/

@[simp] theorem setAcc_regs (s : State) (x : Acc) (v : Nat) : (s.setAcc x v).regs = s.regs := by cases x <;> rfl
@[simp] theorem setAcc_modcon (s : State) (x : Acc) (v : Nat) : (s.setAcc x v).modcon = s.modcon := by cases x <;> rfl
@[simp] theorem setAcc_xmodsrt (s : State) (x : Acc) (v : Nat) : (s.setAcc x v).xmodsrt = s.xmodsrt := by cases x <;> rfl
@[simp] theorem setAcc_xmodend (s : State) (x : Acc) (v : Nat) : (s.setAcc x v).xmodend = s.xmodend := by cases x <;> rfl
@[simp] theorem setAcc_ymodsrt (s : State) (x : Acc) (v : Nat) : (s.setAcc x v).ymodsrt = s.ymodsrt := by cases x <;> rfl
@[simp] theorem setAcc_ymodend (s : State) (x : Acc) (v : Nat) : (s.setAcc x v).ymodend = s.ymodend := by cases x <;> rfl
@[simp] theorem setAcc_xbrev (s : State) (x : Acc) (v : Nat) : (s.setAcc x v).xbrev = s.xbrev := by cases x <;> rfl
@[simp] theorem setAcc_mem (s : State) (x : Acc) (v : Nat) : (s.setAcc x v).mem = s.mem := by cases x <;> rfl
@[simp] theorem setAcc_haz (s : State) (x : Acc) (v : Nat) : (s.setAcc x v).haz = s.haz := by cases x <;> rfl
@[simp] theorem setAcc_fault (s : State) (x : Acc) (v : Nat) : (s.setAcc x v).fault = s.fault := by cases x <;> rfl
@[simp] theorem setAcc_pc (s : State) (x : Acc) (v : Nat) : (s.setAcc x v).pc = s.pc := by cases x <;> rfl
@[simp] theorem setAcc_rep (s : State) (x : Acc) (v : Nat) : (s.setAcc x v).rep = s.rep := by cases x <;> rfl
@[simp] theorem setAcc_prog (s : State) (x : Acc) (v : Nat) : (s.setAcc x v).prog = s.prog := by cases x <;> rfl
@[simp] theorem setAcc_par (s : State) (x : Acc) (v : Nat) : (s.setAcc x v).par = s.par := by cases x <;> rfl
@[simp] theorem setAcc_draws (s : State) (x : Acc) (v : Nat) : (s.setAcc x v).draws = s.draws := by cases x <;> rfl

@[simp] theorem setAcc_acc_same (s : State) (x : Acc) (v : Nat) : (s.setAcc x v).acc x = v := by
  cases x <;> rfl

@[simp] theorem setAcc_acc_other (s : State) (x : Acc) (v : Nat) :
    (s.setAcc x v).acc (otherAcc x) = s.acc (otherAcc x) := by cases x <;> rfl

/-! ### W registers -/

@[simp] theorem setW_w_same (s : State) (n : Reg) (v : Word) : (s.setW n v).w n = v := by
  simp [State.setW, State.w]

theorem setW_w_other (s : State) (n m : Reg) (v : Word) (h : n ≠ m) : (s.setW n v).w m = s.w m := by
  have h' : n.val ≠ m.val := fun e => h (Fin.ext e)
  simp [State.setW, State.w, h']

theorem setW_w (s : State) (n m : Reg) (v : Word) :
    (s.setW n v).w m = if n = m then v else s.w m := by
  by_cases h : n = m
  · subst h; simp
  · simp [setW_w_other s n m v h, h]

@[simp] theorem closeWindow_w (s : State) (n : Reg) : s.closeWindow.w n = s.w n := rfl

@[simp] theorem setByte_w (s : State) (a : Word) (b : Byte) (n : Reg) :
    (s.setByte a b).w n = s.w n := rfl

@[simp] theorem setWord_w (s : State) (a v : Word) (n : Reg) : (s.setWord a v).w n = s.w n := rfl

@[simp] theorem writeCtrl_w (s : State) (r : CtrlReg) (v : Word) (n : Reg) :
    (s.writeCtrl r v).w n = s.w n := by cases r <;> rfl

@[simp] theorem setAcc_w (s : State) (x : Acc) (v : Nat) (n : Reg) : (s.setAcc x v).w n = s.w n := by
  cases x <;> rfl

/-! ### Control registers through the updates that are no control register write -/

@[simp] theorem closeWindow_ctrl (s : State) (r : CtrlReg) : s.closeWindow.ctrl r = s.ctrl r := by
  cases r <;> rfl

@[simp] theorem setW_ctrl (s : State) (n : Reg) (v : Word) (r : CtrlReg) :
    (s.setW n v).ctrl r = s.ctrl r := by cases r <;> rfl

@[simp] theorem setByte_ctrl (s : State) (a : Word) (b : Byte) (r : CtrlReg) :
    (s.setByte a b).ctrl r = s.ctrl r := by cases r <;> rfl

@[simp] theorem setWord_ctrl (s : State) (a v : Word) (r : CtrlReg) :
    (s.setWord a v).ctrl r = s.ctrl r := by cases r <;> rfl

@[simp] theorem setAcc_ctrl (s : State) (x : Acc) (v : Nat) (r : CtrlReg) :
    (s.setAcc x v).ctrl r = s.ctrl r := by cases x <;> cases r <;> rfl

/-! ### Writing a list of registers: `commit` and `trapRegs` -/

/-- Writing registers one after another changes the register file alone. -/
theorem foldl_setW_eq (us : List α) (n : α → Reg) (v : α → Word) (s : State) :
    us.foldl (fun t u => t.setW (n u) (v u)) s =
      { s with regs := (us.foldl (fun t u => t.setW (n u) (v u)) s).regs } := by
  induction us generalizing s with
  | nil => rfl
  | cons u us ih => rw [List.foldl_cons, ih]; rfl

/-- Writing registers one after another leaves a register outside the list alone. -/
theorem foldl_setW_other (us : List α) (n : α → Reg) (v : α → Word) (s : State) (m : Reg)
    (h : ∀ u ∈ us, n u ≠ m) :
    (us.foldl (fun t u => t.setW (n u) (v u)) s).w m = s.w m := by
  induction us generalizing s with
  | nil => rfl
  | cons u us ih =>
    rw [List.foldl_cons, ih _ fun x hx => h x (List.mem_cons_of_mem _ hx)]
    exact setW_w_other _ _ _ _ (h u List.mem_cons_self)

/-- `commit` changes the register file alone. -/
theorem commit_eq (s : State) (us : Updates) : commit s us = { s with regs := (commit s us).regs } :=
  foldl_setW_eq us _ _ s

/-- `commit` leaves a register it has no update for alone. -/
theorem commit_w_other (s : State) (us : Updates) (m : Reg) (h : ∀ u ∈ us, u.1 ≠ m) :
    (commit s us).w m = s.w m := foldl_setW_other us _ _ s m h

@[simp] theorem commit_nil (s : State) : commit s [] = s := rfl

@[simp] theorem commit_one (s : State) (n : Reg) (v : Word) : commit s [(n, v)] = s.setW n v := by
  simp [commit]

/-- Two updates of different registers are both made. -/
theorem commit_two (s : State) (n m : Reg) (v x : Word) (h : n ≠ m) :
    commit s [(n, v), (m, x)] = (s.setW n v).setW m x := by
  simp [commit, h, h.symm]

/-- `trapRegs` changes the register file alone. -/
theorem trapRegs_eq (s : State) (ns : List Reg) :
    trapRegs s ns = { s with regs := (trapRegs s ns).regs } := foldl_setW_eq ns _ _ s

/-- `trapRegs` leaves a register that is not named alone. -/
theorem trapRegs_w_other (s : State) (ns : List Reg) (m : Reg) (h : m ∉ ns) :
    (trapRegs s ns).w m = s.w m :=
  foldl_setW_other ns _ _ s m fun _ hu e => h (e ▸ hu)

/-! ### commit -/

@[simp] theorem commit_modcon (s : State) (us : Updates) : (commit s us).modcon = s.modcon := by rw [commit_eq]
@[simp] theorem commit_xmodsrt (s : State) (us : Updates) : (commit s us).xmodsrt = s.xmodsrt := by rw [commit_eq]
@[simp] theorem commit_xmodend (s : State) (us : Updates) : (commit s us).xmodend = s.xmodend := by rw [commit_eq]
@[simp] theorem commit_ymodsrt (s : State) (us : Updates) : (commit s us).ymodsrt = s.ymodsrt := by rw [commit_eq]
@[simp] theorem commit_ymodend (s : State) (us : Updates) : (commit s us).ymodend = s.ymodend := by rw [commit_eq]
@[simp] theorem commit_xbrev (s : State) (us : Updates) : (commit s us).xbrev = s.xbrev := by rw [commit_eq]
@[simp] theorem commit_accA (s : State) (us : Updates) : (commit s us).accA = s.accA := by rw [commit_eq]
@[simp] theorem commit_accB (s : State) (us : Updates) : (commit s us).accB = s.accB := by rw [commit_eq]
@[simp] theorem commit_mem (s : State) (us : Updates) : (commit s us).mem = s.mem := by rw [commit_eq]
@[simp] theorem commit_haz (s : State) (us : Updates) : (commit s us).haz = s.haz := by rw [commit_eq]
@[simp] theorem commit_fault (s : State) (us : Updates) : (commit s us).fault = s.fault := by rw [commit_eq]
@[simp] theorem commit_pc (s : State) (us : Updates) : (commit s us).pc = s.pc := by rw [commit_eq]
@[simp] theorem commit_rep (s : State) (us : Updates) : (commit s us).rep = s.rep := by rw [commit_eq]
@[simp] theorem commit_prog (s : State) (us : Updates) : (commit s us).prog = s.prog := by rw [commit_eq]
@[simp] theorem commit_par (s : State) (us : Updates) : (commit s us).par = s.par := by rw [commit_eq]
@[simp] theorem commit_draws (s : State) (us : Updates) : (commit s us).draws = s.draws := by rw [commit_eq]

/-! ### trapRegs -/

@[simp] theorem trapRegs_modcon (s : State) (ns : List Reg) : (trapRegs s ns).modcon = s.modcon := by rw [trapRegs_eq]
@[simp] theorem trapRegs_xmodsrt (s : State) (ns : List Reg) : (trapRegs s ns).xmodsrt = s.xmodsrt := by rw [trapRegs_eq]
@[simp] theorem trapRegs_xmodend (s : State) (ns : List Reg) : (trapRegs s ns).xmodend = s.xmodend := by rw [trapRegs_eq]
@[simp] theorem trapRegs_ymodsrt (s : State) (ns : List Reg) : (trapRegs s ns).ymodsrt = s.ymodsrt := by rw [trapRegs_eq]
@[simp] theorem trapRegs_ymodend (s : State) (ns : List Reg) : (trapRegs s ns).ymodend = s.ymodend := by rw [trapRegs_eq]
@[simp] theorem trapRegs_xbrev (s : State) (ns : List Reg) : (trapRegs s ns).xbrev = s.xbrev := by rw [trapRegs_eq]
@[simp] theorem trapRegs_accA (s : State) (ns : List Reg) : (trapRegs s ns).accA = s.accA := by rw [trapRegs_eq]
@[simp] theorem trapRegs_accB (s : State) (ns : List Reg) : (trapRegs s ns).accB = s.accB := by rw [trapRegs_eq]
@[simp] theorem trapRegs_mem (s : State) (ns : List Reg) : (trapRegs s ns).mem = s.mem := by rw [trapRegs_eq]
@[simp] theorem trapRegs_haz (s : State) (ns : List Reg) : (trapRegs s ns).haz = s.haz := by rw [trapRegs_eq]
@[simp] theorem trapRegs_fault (s : State) (ns : List Reg) : (trapRegs s ns).fault = s.fault := by rw [trapRegs_eq]
@[simp] theorem trapRegs_pc (s : State) (ns : List Reg) : (trapRegs s ns).pc = s.pc := by rw [trapRegs_eq]
@[simp] theorem trapRegs_rep (s : State) (ns : List Reg) : (trapRegs s ns).rep = s.rep := by rw [trapRegs_eq]
@[simp] theorem trapRegs_prog (s : State) (ns : List Reg) : (trapRegs s ns).prog = s.prog := by rw [trapRegs_eq]
@[simp] theorem trapRegs_par (s : State) (ns : List Reg) : (trapRegs s ns).par = s.par := by rw [trapRegs_eq]
@[simp] theorem trapRegs_draws (s : State) (ns : List Reg) : (trapRegs s ns).draws = s.draws := by rw [trapRegs_eq]

/-! ### raiseAddressError -/

@[simp] theorem raise_modcon (s : State) (e : AddressError) (ns : List Reg) :
    (raiseAddressError s e ns).modcon = s.modcon := trapRegs_modcon s ns
@[simp] theorem raise_xmodsrt (s : State) (e : AddressError) (ns : List Reg) :
    (raiseAddressError s e ns).xmodsrt = s.xmodsrt := trapRegs_xmodsrt s ns
@[simp] theorem raise_xmodend (s : State) (e : AddressError) (ns : List Reg) :
    (raiseAddressError s e ns).xmodend = s.xmodend := trapRegs_xmodend s ns
@[simp] theorem raise_ymodsrt (s : State) (e : AddressError) (ns : List Reg) :
    (raiseAddressError s e ns).ymodsrt = s.ymodsrt := trapRegs_ymodsrt s ns
@[simp] theorem raise_ymodend (s : State) (e : AddressError) (ns : List Reg) :
    (raiseAddressError s e ns).ymodend = s.ymodend := trapRegs_ymodend s ns
@[simp] theorem raise_xbrev (s : State) (e : AddressError) (ns : List Reg) :
    (raiseAddressError s e ns).xbrev = s.xbrev := trapRegs_xbrev s ns
@[simp] theorem raise_accA (s : State) (e : AddressError) (ns : List Reg) :
    (raiseAddressError s e ns).accA = s.accA := trapRegs_accA s ns
@[simp] theorem raise_accB (s : State) (e : AddressError) (ns : List Reg) :
    (raiseAddressError s e ns).accB = s.accB := trapRegs_accB s ns
@[simp] theorem raise_mem (s : State) (e : AddressError) (ns : List Reg) :
    (raiseAddressError s e ns).mem = s.mem := trapRegs_mem s ns
@[simp] theorem raise_haz (s : State) (e : AddressError) (ns : List Reg) :
    (raiseAddressError s e ns).haz = s.haz := trapRegs_haz s ns
@[simp] theorem raise_pc (s : State) (e : AddressError) (ns : List Reg) :
    (raiseAddressError s e ns).pc = s.pc := trapRegs_pc s ns
@[simp] theorem raise_prog (s : State) (e : AddressError) (ns : List Reg) :
    (raiseAddressError s e ns).prog = s.prog := trapRegs_prog s ns
@[simp] theorem raise_par (s : State) (e : AddressError) (ns : List Reg) :
    (raiseAddressError s e ns).par = s.par := trapRegs_par s ns
@[simp] theorem raise_draws (s : State) (e : AddressError) (ns : List Reg) :
    (raiseAddressError s e ns).draws = s.draws := trapRegs_draws s ns

@[simp] theorem raise_fault (s : State) (e : AddressError) (ns : List Reg) :
    (raiseAddressError s e ns).fault = some e := rfl

theorem raise_rep (s : State) (e : AddressError) (ns : List Reg) :
    (raiseAddressError s e ns).rep = 0 ∨ (raiseAddressError s e ns).rep = s.rep := by
  simp only [raiseAddressError]; split <;> simp

theorem raise_w_other (s : State) (e : AddressError) (ns : List Reg) (m : Reg) (h : m ∉ ns) :
    (raiseAddressError s e ns).w m = s.w m := trapRegs_w_other s ns m h

/-! ### advance -/

@[simp] theorem advance_draws (s t : State) : (advance s t).draws = s.draws + 1 := by
  unfold advance; split <;> [rfl; (split <;> rfl)]

@[simp] theorem advance_regs (s t : State) : (advance s t).regs = t.regs := by
  unfold advance; split <;> [rfl; (split <;> rfl)]
@[simp] theorem advance_modcon (s t : State) : (advance s t).modcon = t.modcon := by
  unfold advance; split <;> [rfl; (split <;> rfl)]
@[simp] theorem advance_xmodsrt (s t : State) : (advance s t).xmodsrt = t.xmodsrt := by
  unfold advance; split <;> [rfl; (split <;> rfl)]
@[simp] theorem advance_xmodend (s t : State) : (advance s t).xmodend = t.xmodend := by
  unfold advance; split <;> [rfl; (split <;> rfl)]
@[simp] theorem advance_ymodsrt (s t : State) : (advance s t).ymodsrt = t.ymodsrt := by
  unfold advance; split <;> [rfl; (split <;> rfl)]
@[simp] theorem advance_ymodend (s t : State) : (advance s t).ymodend = t.ymodend := by
  unfold advance; split <;> [rfl; (split <;> rfl)]
@[simp] theorem advance_xbrev (s t : State) : (advance s t).xbrev = t.xbrev := by
  unfold advance; split <;> [rfl; (split <;> rfl)]
@[simp] theorem advance_accA (s t : State) : (advance s t).accA = t.accA := by
  unfold advance; split <;> [rfl; (split <;> rfl)]
@[simp] theorem advance_accB (s t : State) : (advance s t).accB = t.accB := by
  unfold advance; split <;> [rfl; (split <;> rfl)]
@[simp] theorem advance_mem (s t : State) : (advance s t).mem = t.mem := by
  unfold advance; split <;> [rfl; (split <;> rfl)]
@[simp] theorem advance_haz (s t : State) : (advance s t).haz = t.haz := by
  unfold advance; split <;> [rfl; (split <;> rfl)]
@[simp] theorem advance_fault (s t : State) : (advance s t).fault = t.fault := by
  unfold advance; split <;> [rfl; (split <;> rfl)]
@[simp] theorem advance_prog (s t : State) : (advance s t).prog = t.prog := by
  unfold advance; split <;> [rfl; (split <;> rfl)]
@[simp] theorem advance_par (s t : State) : (advance s t).par = t.par := by
  unfold advance; split <;> [rfl; (split <;> rfl)]

/-! ### The control registers after the register updates and around a trap -/

@[simp] theorem commit_ctrl (s : State) (us : Updates) (r : CtrlReg) :
    (commit s us).ctrl r = s.ctrl r := by
  rw [commit_eq]; cases r <;> rfl

@[simp] theorem raise_ctrl (s : State) (e : AddressError) (ns : List Reg) (r : CtrlReg) :
    (raiseAddressError s e ns).ctrl r = s.ctrl r := by
  cases r <;> simp [State.ctrl]

@[simp] theorem advance_ctrl (s t : State) (r : CtrlReg) :
    (advance s t).ctrl r = t.ctrl r := by
  cases r <;> simp [State.ctrl]

end Sys2Proof.Machine
end

