-- ==== Sys2Proof/Laws/Memory.lean ====
section
/-! SUPPORT. Data memory as a list of cells: a read after a write, and every memory operation keeps the
canonical form. -/

namespace Sys2Proof.Machine

@[simp] theorem Memory.read_write_same (m : Memory) (a : Nat) (b : Byte) :
    (m.write a b).read a = some b := by
  induction m with
  | nil => simp [Memory.write, Memory.read]
  | cons c m ih =>
    simp only [Memory.write]
    split
    · simp [Memory.read]
    · split
      · simp [Memory.read]
      · simp only [Memory.read]
        rw [if_neg (by omega), ih]

theorem Memory.read_write_other (m : Memory) (a k : Nat) (b : Byte) (h : k ≠ a) :
    (m.write a b).read k = m.read k := by
  induction m with
  | nil => simp [Memory.write, Memory.read, h.symm]
  | cons c m ih =>
    simp only [Memory.write]
    split
    · simp [Memory.read, h.symm]
    · split
      · next h' => simp [Memory.read, h.symm, ← h']
      · simp [Memory.read, ih]

/-- A cell of the memory after a write is the new one or an old one. -/
theorem Memory.mem_write (m : Memory) (a : Nat) (b : Byte) (c : Host.Cell) (h : c ∈ m.write a b) :
    c = (a, b) ∨ c ∈ m := by
  induction m with
  | nil => simpa [Memory.write] using h
  | cons x m ih =>
    simp only [Memory.write] at h
    split at h
    · simpa using h
    · split at h
      · rcases List.mem_cons.1 h with h | h
        · exact .inl h
        · exact .inr (List.mem_cons_of_mem _ h)
      · rcases List.mem_cons.1 h with h | h
        · exact .inr (h ▸ List.mem_cons_self)
        · exact (ih h).imp id (List.mem_cons_of_mem _)

/-- A write keeps the canonical form. -/
theorem Memory.wf_write (m : Memory) (a : Nat) (b : Byte) (h : m.wf) : (m.write a b).wf := by
  induction m with
  | nil => simp [Memory.write, Memory.wf]
  | cons c m ih =>
    obtain ⟨hc, hm⟩ := List.pairwise_cons.1 h
    simp only [Memory.write]
    split
    · next h' =>
      refine List.pairwise_cons.2 ⟨fun x hx => ?_, h⟩
      rcases List.mem_cons.1 hx with rfl | hx
      · exact h'
      · exact lt_trans h' (hc x hx)
    · split
      · next h' => exact List.pairwise_cons.2 ⟨fun x hx => h' ▸ hc x hx, hm⟩
      · refine List.pairwise_cons.2 ⟨fun x hx => ?_, ih hm⟩
        rcases Memory.mem_write m a b x hx with rfl | hx
        · simp only; omega
        · exact hc x hx

theorem wf_setByte (s : State) (a : Word) (b : Byte) (h : s.mem.wf) : (s.setByte a b).mem.wf :=
  Memory.wf_write _ _ _ h

theorem wf_setWord (s : State) (a v : Word) (h : s.mem.wf) : (s.setWord a v).mem.wf :=
  Memory.wf_write _ _ _ (Memory.wf_write _ _ _ h)

theorem wf_reset : State.reset.mem.wf := by simp [State.reset, Memory.wf]

@[simp] theorem byteAt_setByte_same (s : State) (a : Word) (b : Byte) :
    (s.setByte a b).byteAt a = some b := Memory.read_write_same _ _ _

theorem byteAt_setByte_other (s : State) (a k : Word) (b : Byte) (h : k ≠ a) :
    (s.setByte a b).byteAt k = s.byteAt k :=
  Memory.read_write_other _ _ _ _ fun e => h (BitVec.eq_of_toNat_eq e)

/-- An even address has a successor: no wrap. -/
theorem toNat_succ_of_aligned (a : Word) (h : misaligned a = false) :
    (a + 1#16).toNat = a.toNat + 1 := by
  have h2 : a.toNat % 2 = 0 := by
    have : a.getLsbD 0 = false := h
    simpa [BitVec.getLsbD, Nat.testBit] using this
  have := a.isLt
  rw [BitVec.toNat_add]
  simp only [BitVec.toNat_ofNat]
  omega

/-- The two bytes of a word make it up again (20_memory R64). -/
theorem bytes_join (v : Word) : v.extractLsb' 8 8 ++ v.extractLsb' 0 8 = v := by
  apply BitVec.eq_of_toNat_eq
  rw [BitVec.toNat_append, BitVec.extractLsb'_toNat, BitVec.extractLsb'_toNat,
    ← Nat.shiftLeft_add_eq_or_of_lt (Nat.mod_lt _ (by decide))]
  have := v.isLt
  simp only [Nat.shiftLeft_eq, Nat.shiftRight_eq_div_pow]
  omega

theorem wordAt_setWord_same (s : State) (a v : Word) : (s.setWord a v).wordAt a = some v := by
  simp only [State.wordAt, State.setWord]
  rw [Memory.read_write_other _ _ _ _ (by omega), Memory.read_write_same,
    Memory.read_write_same]
  exact congrArg some (bytes_join v)

theorem byteAt_setWord_other (s : State) (a v k : Word) (ha : misaligned a = false) (h : k ≠ a)
    (h' : k ≠ a + 1#16) : (s.setWord a v).byteAt k = s.byteAt k := by
  have e : k.toNat ≠ a.toNat + 1 := fun e =>
    h' (BitVec.eq_of_toNat_eq (by rw [toNat_succ_of_aligned a ha]; exact e))
  have e' : k.toNat ≠ a.toNat := fun e => h (BitVec.eq_of_toNat_eq e)
  simp only [State.byteAt, State.setWord]
  rw [Memory.read_write_other _ _ _ _ e, Memory.read_write_other _ _ _ _ e']

end Sys2Proof.Machine
end

