-- ==== Sys2Proof/Laws/Ops.lean ====
section
/-! SUPPORT. What each shared operation over registers and memory can do, said once. -/

namespace Sys2Proof.Machine

/-! ### andThen -/

@[simp] theorem andThen_next {α β : Type} (a : α) (f : α → Part β) :
    andThen (.next a) f = f a := rfl

@[simp] theorem andThen_fault {α β : Type} (r : Fault) (f : α → Part β) :
    andThen (.fault r) f = .fault r := rfl

@[simp] theorem andThen_refused {α β : Type} (r : Refusal) (f : α → Part β) :
    andThen (.refused r) f = .refused r := rfl

/-- A statement that completes does so through a part that completed. -/
theorem andThen_eq_next {α β : Type} {p : Part α} {f : α → Part β} {b : β}
    (h : andThen p f = .next b) : ∃ a, p = .next a ∧ f a = .next b := by
  cases p with
  | next a => exact ⟨a, rfl, h⟩
  | fault r => cases h
  | refused r => cases h

/-! ### Regions and control registers -/

theorem inY_impl (p : Params) (a : Word) (h : p.inY a = true) : p.impl a = true := by
  simp only [Params.impl, h, Bool.or_true]

/-- Y is one block: what lies between two addresses of it is in it (R8). -/
theorem inY_block (p : Params) {a b c : Word} (ha : p.inY a = true) (hc : p.inY c = true)
    (hab : a ≤ b) (hbc : b ≤ c) : p.inY b = true := by
  simp only [Params.inY, Bool.and_eq_true, decide_eq_true_eq] at *
  exact ⟨⟨BitVec.le_trans ha.1.1 hab, BitVec.le_trans ha.1.2 hab⟩, BitVec.le_trans hbc hc.2⟩

/-- X RAM starts at 0x0800 and Y follows it: from 0x0800 to the end of the X block the region is X, in the Y
block it is Y, elsewhere it is X or unimplemented as the rest of the map says, in a gap between the blocks too
(R8, R127, 20_memory R74). -/
theorem region_ram (p : Params) (h : p.mapOk = true) (ea : Word) (h0 : 0x0800#16 ≤ wordAddr ea) :
    region p ea =
      if wordAddr ea ≤ p.map.xEnd then .x
      else if p.map.yStart ≤ wordAddr ea ∧ wordAddr ea ≤ p.map.yEnd then .y
      else if p.map.rest.any fun b => b.lo ≤ wordAddr ea && wordAddr ea ≤ b.hi then .x
      else .unimpl := by
  simp only [Params.mapOk, Bool.and_eq_true, decide_eq_true_eq] at h
  obtain ⟨-, -, h2, -⟩ := h
  have hs : ¬ wordAddr ea ≤ 0x07FE#16 := by
    simp only [BitVec.le_def] at *; simp at *; omega
  unfold region
  by_cases hx : wordAddr ea ≤ p.map.xEnd
  · have : ¬ p.map.yStart ≤ wordAddr ea := BitVec.not_le.2
      (BitVec.not_le.1 fun h => absurd h2 (BitVec.not_lt.2 (BitVec.le_trans h hx)))
    simp [hs, Params.inY, Params.impl, h0, hx, this]
  · by_cases hy : p.map.yStart ≤ wordAddr ea ∧ wordAddr ea ≤ p.map.yEnd
    · simp [hs, Params.inY, h0, hx, hy]
    · have : p.inY (wordAddr ea) = false := by
        simp only [Params.inY, Bool.and_eq_false_iff, decide_eq_false_iff_not]
        tauto
      simp [hs, Params.impl, this, h0, hx, hy]

/-- Every device that R8 admits has a map: any `Impl` at the addresses of the RAM, contiguous or not, and any
block of it as Y data space. -/
theorem exists_ramMap (p : Params) (impl inY : Word → Bool) (lo hi : Word)
    (hy : ∀ a, inY a = true ↔ lo ≤ a ∧ a ≤ hi) (hi' : ∀ a, inY a = true → impl a = true)
    (h0 : impl 0x0800#16 = true) :
    ∃ m : RamMap, ∀ a, 0x0800#16 ≤ a →
      Params.impl { p with map := m } a = impl a ∧ Params.inY { p with map := m } a = inY a := by
  refine ⟨⟨0x0800#16, lo, hi,
    (((List.finRange 65536).map BitVec.ofFin).filter impl).map fun a => ⟨a, a⟩⟩, fun a ha => ?_⟩
  have hY : Params.inY { p with map := ⟨0x0800#16, lo, hi,
      (((List.finRange 65536).map BitVec.ofFin).filter impl).map fun a => ⟨a, a⟩⟩ } a = inY a := by
    rw [Bool.eq_iff_iff, hy]; simp [Params.inY, ha]
  refine ⟨?_, hY⟩
  rw [Bool.eq_iff_iff, Params.impl, hY]
  simp only [Bool.or_eq_true, Bool.and_eq_true, decide_eq_true_eq, List.any_eq_true, List.mem_map,
    List.mem_filter, ha, true_and]
  constructor
  · rintro ((h | ⟨b, ⟨c, ⟨-, hc⟩, rfl⟩, h1, h2⟩) | h)
    · rwa [BitVec.le_antisymm h ha]
    · rwa [← BitVec.le_antisymm h1 h2]
    · exact hi' a h
  · exact fun h => .inl (.inr ⟨_, ⟨a, ⟨⟨a.toFin, List.mem_finRange _, rfl⟩, h⟩, rfl⟩, BitVec.le_refl a,
      BitVec.le_refl a⟩)

/-- An address of RAM lies at or above 0x0800 and its word is provided. -/
theorem impl_of_inRam {s : State} {ea : Word} (h : inRam s ea) :
    0x0800 ≤ (wordAddr ea).toNat ∧ s.par.impl (wordAddr ea) = true := by
  have heven : (wordAddr ea).toNat % 2 = 0 := by
    have : (wordAddr ea).getLsbD 0 = false := by simp [wordAddr]
    simpa [BitVec.getLsbD, Nat.testBit] using this
  unfold inRam region at h
  by_cases h0 : wordAddr ea ≤ 0x07FE#16
  · simp [h0] at h
  · have hlt : 0x07FE < (wordAddr ea).toNat := by
      simpa [BitVec.le_def] using h0
    refine ⟨by omega, ?_⟩
    by_cases hy : s.par.inY (wordAddr ea) = true
    · exact inY_impl _ _ hy
    · by_cases hx : s.par.impl (wordAddr ea) = true
      · exact hx
      · simp [h0, hy, hx] at h

/-- The register found at an address has that address. -/
theorem ctrlAddr_of_ctrlAt {p : Params} {a : Word} {r : CtrlReg} (h : p.ctrlAt a = some r) :
    p.ctrlAddr r = a := by
  have := List.find?_some h
  simpa using this

/-- At an address that is no register's there is none. -/
theorem ctrlAt_none {p : Params} {a : Word} (h : ∀ r, p.ctrlAddr r ≠ a) : p.ctrlAt a = none := by
  simp [Params.ctrlAt, h]

/-- With the addresses as the spec requires them, each register is at its own. -/
theorem ctrlAt_ctrlAddr {p : Params} (h : p.addrsOk = true) (r : CtrlReg) :
    p.ctrlAt (p.ctrlAddr r) = some r := by
  simp only [Params.addrsOk, Bool.and_eq_true, decide_eq_true_eq] at h
  have hn := h.2
  simp only [CtrlReg.list, List.map_cons, List.map_nil, List.nodup_cons, List.mem_cons,
    List.not_mem_nil, or_false, not_or] at hn
  obtain ⟨⟨h1, h2, h3, h4, h5⟩, ⟨h6, h7, h8, h9⟩, ⟨h10, h11, h12⟩, ⟨h13, h14⟩, h15, -⟩ := hn
  cases r <;> simp [Params.ctrlAt, *]

theorem ctrlAddr_props {p : Params} (h : p.addrsOk = true) (r : CtrlReg) :
    p.ctrlAddr r ≤ 0x07FE#16 ∧ (p.ctrlAddr r).getLsbD 0 = false := by
  simp only [Params.addrsOk, Bool.and_eq_true, decide_eq_true_eq, List.all_eq_true,
    Bool.not_eq_true', CtrlReg.list] at h
  exact h.1 r (by cases r <;> simp)

/-- Clearing bit 0 of an even address changes nothing. -/
theorem wordAddr_of_aligned {a : Word} (h : misaligned a = false) : wordAddr a = a := by
  have h0 : a.getLsbD 0 = false := h
  apply BitVec.eq_of_getLsbD_eq
  intro i hi
  simp only [wordAddr, BitVec.getLsbD_and]
  rcases i with _ | i
  · rw [h0]; rfl
  · have : (0xFFFE#16).getLsbD (i + 1) = true := by
      have hb : ∀ j : Fin 15, (0xFFFE#16).getLsbD (j.val + 1) = true := by decide
      exact hb ⟨i, by omega⟩
    rw [this, Bool.and_true]

/-- The byte after an even address lies in the same word. -/
theorem wordAddr_succ_of_aligned {a : Word} (h : misaligned a = false) :
    wordAddr (a + 1#16) = a ∧ misaligned (a + 1#16) = true := by
  have h0 : a.toNat % 2 = 0 := by
    have : a.getLsbD 0 = false := h
    simpa [BitVec.getLsbD, Nat.testBit] using this
  have ho : a + 1#16 = a ||| 1#16 := by
    rw [BitVec.add_eq_or_of_and_eq_zero]
    apply BitVec.eq_of_getLsbD_eq
    intro i hi
    simp only [BitVec.getLsbD_and, BitVec.getLsbD_zero]
    rcases i with _ | i
    · have : a.getLsbD 0 = false := h
      rw [this]; rfl
    · have : (1#16).getLsbD (i + 1) = false := by simp
      rw [this, Bool.and_false]
  rw [ho]
  refine ⟨?_, by simp [misaligned]⟩
  have e : wordAddr (a ||| 1#16) = wordAddr a := by
    unfold wordAddr
    rw [BitVec.and_comm, BitVec.and_or_distrib_left, BitVec.and_comm _ a]
    simp
  rw [e, wordAddr_of_aligned h]

theorem region_ctrlAddr {p : Params} (h : p.addrsOk = true) (r : CtrlReg) :
    region p (p.ctrlAddr r) = .sfr ∧ misaligned (p.ctrlAddr r) = false := by
  obtain ⟨h1, h2⟩ := ctrlAddr_props h r
  refine ⟨?_, h2⟩
  unfold region
  simp only [wordAddr_of_aligned (show misaligned (p.ctrlAddr r) = false from h2), h1, if_true]

/-- The region depends on the word alone. -/
theorem region_congr (p : Params) {a b : Word} (h : wordAddr a = wordAddr b) :
    region p a = region p b := by
  unfold region; rw [h]

/-! ### Reads -/

theorem rdW_holdsWord {s : State} {a v : Word} (h : holdsWord s a v) :
    rdW s a = .next ⟨v, false⟩ := by
  obtain ⟨hm, hr, hv⟩ := h
  rcases hr with hr | hr <;> simp [rdW, hr, ramWord, wordAddr_of_aligned hm, hv, hm]

theorem rdB_holdsByte {s : State} {a : Word} {b : Byte} (h : holdsByte s a b) :
    rdB s a = .next ⟨b.setWidth 16, false⟩ := by
  obtain ⟨hr, hv⟩ := h
  rcases hr with hr | hr <;> simp [rdB, hr, ramByte, hv]

theorem rdW_unimpl {s : State} {a : Word} (h : region s.par a = .unimpl) :
    rdW s a = .next ⟨0#16, true⟩ := by simp [rdW, h]

theorem rdW_ctrl {s : State} (h : s.par.addrsOk = true) (r : CtrlReg) :
    rdW s (s.par.ctrlAddr r) = .next ⟨s.ctrl r, false⟩ := by
  obtain ⟨h1, h2⟩ := region_ctrlAddr h r
  simp [rdW, h1, sfrReadW, wordAddr_of_aligned h2, ctrlAt_ctrlAddr h r, h2]

/-- An MCU class word read of RAM or of a control register (R120). -/
theorem rdW_deliversWord {s : State} {a v : Word} (h : deliversWord s a v) :
    rdW s a = .next ⟨v, false⟩ := by
  rcases h with h | ⟨r, h, rfl, rfl⟩
  · exact rdW_holdsWord h
  · exact rdW_ctrl h r

/-- An MCU class byte read of RAM or of a control register (R121). -/
theorem rdB_deliversByte {s : State} {a : Word} {b : Byte} (h : deliversByte s a b) :
    rdB s a = .next ⟨b.setWidth 16, false⟩ := by
  rcases h with h | ⟨r, h, h'⟩
  · exact rdB_holdsByte h
  · obtain ⟨h1, h2⟩ := region_ctrlAddr h r
    obtain ⟨h3, h4⟩ := wordAddr_succ_of_aligned h2
    rcases h' with ⟨rfl, rfl⟩ | ⟨rfl, rfl⟩
    · simp [rdB, h1, sfrReadB, wordAddr_of_aligned h2, ctrlAt_ctrlAddr h r, byteOf, h2]
    · have h5 := region_congr s.par (h3.trans (wordAddr_of_aligned h2).symm)
      simp [rdB, h5, h1, sfrReadB, h3, ctrlAt_ctrlAddr h r, byteOf, h4]

/-- An MCU class read of either size (00_scope R11): a byte arrives in the low half. -/
theorem rdMcu_delivers {s : State} {size : Size} {a v : Word} (h : delivers s size a v) :
    ∃ u : Word, (size = .word → u = v) ∧ u.extractLsb' 0 8 = v.extractLsb' 0 8 ∧
      rdMcu s size a = .next ⟨u, false⟩ := by
  cases size with
  | word => exact ⟨v, fun _ => rfl, rfl, rdW_deliversWord h⟩
  | byte =>
    refine ⟨(v.extractLsb' 0 8).setWidth 16, nofun, ?_, rdB_deliversByte h⟩
    apply BitVec.eq_of_toNat_eq
    simp only [BitVec.extractLsb'_toNat, BitVec.toNat_setWidth, Nat.shiftRight_zero]
    omega

theorem ctrlAt_isSome {p : Params} {a : Word} {r : CtrlReg} (h : p.ctrlAddr r = a) :
    (p.ctrlAt a).isSome = true := by
  rw [Params.ctrlAt, List.find?_isSome]
  exact ⟨r, by cases r <;> simp, by simpa using h⟩

/-- A word read that meets a cause of the trap completes and traps (R120, R231, R232). -/
theorem rdW_wordReadTraps {s : State} {a : Word} (h : wordReadTraps s a) :
    ∃ v, rdW s a = .next ⟨v, true⟩ := by
  rcases h with h | ⟨hm, h⟩
  · exact ⟨_, rdW_unimpl h⟩
  · cases hr : region s.par a with
    | x => simp only [rdW, hr, ramWord, hm]; split <;> exact ⟨_, rfl⟩
    | y => simp only [rdW, hr, ramWord, hm]; split <;> exact ⟨_, rfl⟩
    | unimpl => exact ⟨_, rdW_unimpl hr⟩
    | sfr =>
      obtain ⟨r, hc⟩ := h.resolve_left (fun h => h hr)
      obtain ⟨c, hc⟩ := Option.isSome_iff_exists.1 (ctrlAt_isSome hc)
      exact ⟨s.ctrl c, by simp only [rdW, hr, sfrReadW, hc, hm]⟩

/-- A read of either size that meets a cause of the trap completes and traps. -/
theorem rdMcu_readTraps {s : State} {size : Size} {a : Word} (h : readTraps s size a) :
    ∃ v, rdMcu s size a = .next ⟨v, true⟩ := by
  cases size with
  | word => exact rdW_wordReadTraps h
  | byte =>
    have hr : region s.par a = .unimpl := h
    exact ⟨0#16, by simp [rdMcu, rdB, hr]⟩

/-- A read that meets no cause of the trap raises none (R231, R232). -/
theorem rdMcu_inPlace {s : State} {size : Size} {a : Word} (h : inPlace s size a) {r : Got}
    (hr : rdMcu s size a = .next r) : r.trap = false := by
  obtain ⟨hm, hu⟩ := h
  cases size with
  | word =>
    have hm := hm rfl
    simp only [rdMcu, rdW] at hr
    split at hr
    · simp only [sfrReadW] at hr; split at hr <;> cases hr; exact hm
    · simp only [ramWord, hm] at hr; split at hr <;> cases hr; rfl
    · simp only [ramWord, hm] at hr; split at hr <;> cases hr; rfl
    · next h => exact absurd h hu
  | byte =>
    simp only [rdMcu, rdB] at hr
    split at hr
    · simp only [sfrReadB] at hr; split at hr <;> cases hr; rfl
    · simp only [ramByte] at hr; split at hr <;> cases hr; rfl
    · simp only [ramByte] at hr; split at hr <;> cases hr; rfl
    · next h => exact absurd h hu

theorem rdX_dspXReads {s : State} {a v : Word} (h : dspXReads s a v) :
    rdX s a = .next ⟨v, false⟩ := by
  obtain ⟨hm, ⟨hr, hv⟩ | ⟨hr, rfl⟩⟩ | ⟨r, h, rfl, rfl⟩ := h
  · simp [rdX, hr, ramWord, wordAddr_of_aligned hm, hv, hm]
  · simp [rdX, hr, hm]
  · obtain ⟨h1, h2⟩ := region_ctrlAddr h r
    simp [rdX, h1, sfrReadW, wordAddr_of_aligned h2, ctrlAt_ctrlAddr h r, h2]

theorem rdY_dspYReads {s : State} {a v : Word} (h : dspYReads s a v) :
    rdY s a = .next ⟨v, false⟩ := by
  obtain ⟨hm, ⟨hr, hv⟩ | ⟨hr | hr, rfl⟩⟩ := h
  · simp [rdY, hr, ramWord, wordAddr_of_aligned hm, hv, hm]
  · simp [rdY, hr, hm]
  · simp [rdY, hr, hm]

/-! ### Writes -/

/-- A word write that completes changed nothing and traps, or stored a word of RAM, or wrote the control
register at the address. -/
theorem wrW_cases {s : State} {ea v : Word} {r : Put} (h : wrW s ea v = .next r) :
    (r = ⟨s, true⟩ ∧ (misaligned ea = true ∨ region s.par ea = .unimpl)) ∨
    (misaligned ea = false ∧ inRam s ea ∧ r = ⟨s.setWord ea v, false⟩) ∨
    (misaligned ea = false ∧ region s.par ea = .sfr ∧
      ∃ c, s.par.ctrlAddr c = wordAddr ea ∧ r = ⟨s.writeCtrl c v, false⟩) := by
  unfold wrW at h
  cases hm : misaligned ea with
  | true => simp only [hm, if_true] at h; cases h; exact .inl ⟨rfl, .inl rfl⟩
  | false =>
    simp only [hm, Bool.false_eq_true, if_false] at h
    cases hr : region s.par ea with
    | x => simp only [hr] at h; cases h; exact .inr (.inl ⟨rfl, .inl hr, rfl⟩)
    | y => simp only [hr] at h; cases h; exact .inr (.inl ⟨rfl, .inr hr, rfl⟩)
    | unimpl => simp only [hr] at h; cases h; exact .inl ⟨rfl, .inr rfl⟩
    | sfr =>
      simp only [hr, sfrWriteW] at h
      split at h
      · next c hc =>
        cases h
        exact .inr (.inr ⟨rfl, rfl, c, by rw [wordAddr_of_aligned hm, ctrlAddr_of_ctrlAt hc], rfl⟩)
      · cases h

/-- The same of a byte write. -/
theorem wrB_cases {s : State} {ea : Word} {b : Byte} {r : Put} (h : wrB s ea b = .next r) :
    (r = ⟨s, true⟩ ∧ region s.par ea = .unimpl) ∨
    (inRam s ea ∧ r = ⟨s.setByte ea b, false⟩) ∨
    (region s.par ea = .sfr ∧
      ∃ c v, s.par.ctrlAddr c = wordAddr ea ∧ r = ⟨s.writeCtrl c v, false⟩) := by
  unfold wrB at h
  cases hr : region s.par ea with
  | x => simp only [hr] at h; cases h; exact .inr (.inl ⟨.inl hr, rfl⟩)
  | y => simp only [hr] at h; cases h; exact .inr (.inl ⟨.inr hr, rfl⟩)
  | unimpl => simp only [hr] at h; cases h; exact .inl ⟨rfl, rfl⟩
  | sfr =>
    simp only [hr, sfrWriteB] at h
    split at h
    · next c hc => cases h; exact .inr (.inr ⟨rfl, c, _, ctrlAddr_of_ctrlAt hc, rfl⟩)
    · cases h

/-- What a write of either size leaves when it completes: nothing changed and a trap, or one store in RAM,
or one control register written. -/
theorem wr_cases {s : State} {size : Size} {ea v : Word} {r : Put} (h : wr s size ea v = .next r) :
    r = ⟨s, true⟩ ∨
    (inRam s ea ∧ ((size = .word ∧ misaligned ea = false ∧ r = ⟨s.setWord ea v, false⟩) ∨
      (size = .byte ∧ r = ⟨s.setByte ea (v.extractLsb' 0 8), false⟩))) ∨
    (region s.par ea = .sfr ∧
      ∃ c x, s.par.ctrlAddr c = wordAddr ea ∧ r = ⟨s.writeCtrl c x, false⟩) := by
  cases size with
  | word =>
    rcases wrW_cases h with ⟨h, -⟩ | ⟨hm, hr, h⟩ | ⟨-, hr, c, hc, h⟩
    · exact .inl h
    · exact .inr (.inl ⟨hr, .inl ⟨rfl, hm, h⟩⟩)
    · exact .inr (.inr ⟨hr, c, v, hc, h⟩)
  | byte =>
    rcases wrB_cases h with ⟨h, -⟩ | ⟨hr, h⟩ | ⟨hr, c, x, hc, h⟩
    · exact .inl h
    · exact .inr (.inl ⟨hr, .inr ⟨rfl, h⟩⟩)
    · exact .inr (.inr ⟨hr, c, x, hc, h⟩)

theorem wrW_inRam {s : State} {ea v : Word} (hm : misaligned ea = false) (hr : inRam s ea) :
    wrW s ea v = .next ⟨s.setWord ea v, false⟩ := by
  rcases hr with hr | hr <;> simp [wrW, hm, hr]

theorem wrB_inRam {s : State} {ea : Word} {b : Byte} (hr : inRam s ea) :
    wrB s ea b = .next ⟨s.setByte ea b, false⟩ := by
  rcases hr with hr | hr <;> simp [wrB, hr]

theorem wrW_ctrl {s : State} (h : s.par.addrsOk = true) (r : CtrlReg) (v : Word) :
    wrW s (s.par.ctrlAddr r) v = .next ⟨s.writeCtrl r v, false⟩ := by
  obtain ⟨h1, h2⟩ := region_ctrlAddr h r
  simp [wrW, h1, h2, sfrWriteW, ctrlAt_ctrlAddr h r]

/-- A write that meets no cause of the trap at an address the spec describes (R122, R123). -/
theorem wr_storesWord {s t : State} {a v : Word} (h : storesWord s a v t) :
    wr s .word a v = .next ⟨t, false⟩ := by
  rcases h with ⟨hm, hr, rfl⟩ | ⟨r, h, rfl, rfl⟩
  · exact wrW_inRam hm hr
  · exact wrW_ctrl h r v

theorem wr_storesByte {s t : State} {a v : Word} (h : storesByte s a (v.extractLsb' 0 8) t) :
    wr s .byte a v = .next ⟨t, false⟩ := by
  rcases h with ⟨hr, rfl⟩ | ⟨r, h, h'⟩
  · exact wrB_inRam hr
  · obtain ⟨h1, h2⟩ := region_ctrlAddr h r
    obtain ⟨h3, h4⟩ := wordAddr_succ_of_aligned h2
    rcases h' with ⟨rfl, rfl⟩ | ⟨rfl, rfl⟩
    · simp [wr, wrB, h1, sfrWriteB, wordAddr_of_aligned h2, ctrlAt_ctrlAddr h r, withByte, h2]
    · have h5 := region_congr s.par (h3.trans (wordAddr_of_aligned h2).symm)
      simp [wr, wrB, h5, h1, sfrWriteB, h3, ctrlAt_ctrlAddr h r, withByte, h4]

theorem wr_stores {s t : State} {size : Size} {a v : Word} (h : stores s size a v t) :
    wr s size a v = .next ⟨t, false⟩ := by
  cases size with
  | word => exact wr_storesWord h
  | byte => exact wr_storesByte h

/-- A byte write takes the low byte alone. -/
theorem wr_congr (s : State) {size : Size} (ea : Word) {u v : Word} (h : size = .word → u = v)
    (h' : u.extractLsb' 0 8 = v.extractLsb' 0 8) : wr s size ea u = wr s size ea v := by
  cases size with
  | word => rw [h rfl]
  | byte => simp only [wr, h']

/-- A write takes its trap exactly where it meets a cause (R231, R232). -/
theorem writeTraps_iff (s : State) (size : Size) (ea : Word) :
    writeTraps s size ea = true ↔ ¬ inPlace s size ea := by
  unfold writeTraps inPlace
  cases size <;> cases misaligned ea <;> simp

/-- What a write that is made leaves alone. -/
theorem storesWord_keeps {s t : State} {a v : Word} (h : storesWord s a v t) :
    t.regs = s.regs ∧ t.accA = s.accA ∧ t.accB = s.accB ∧ t.draws = s.draws := by
  rcases h with ⟨-, -, rfl⟩ | ⟨r, -, -, rfl⟩ <;> simp

theorem storesByte_keeps {s t : State} {a : Word} {b : Byte} (h : storesByte s a b t) :
    t.regs = s.regs ∧ t.accA = s.accA ∧ t.accB = s.accB ∧ t.draws = s.draws := by
  rcases h with ⟨-, rfl⟩ | ⟨r, -, ⟨-, rfl⟩ | ⟨-, rfl⟩⟩ <;> simp

/-! ### The hazard window -/

@[simp] theorem hazardHits_nil {s : State} (h : s.haz = []) (ptrs : List Reg) :
    hazardHits s ptrs = false := by simp [hazardHits, h]

/-- After one write of a control register the window holds that register alone. -/
theorem hazardHits_writeCtrl (s : State) (r : CtrlReg) (v : Word) (ptrs : List Reg) :
    hazardHits (s.closeWindow.writeCtrl r v) ptrs =
      (hazEntry s r).hits (s.closeWindow.writeCtrl r v) ptrs := by
  simp [hazardHits]
  rfl

/-- The selected register is the active one. -/
theorem xSelected_eq (s : State) (n : Reg) : (xSelected s == some n) = xModActive s n := by
  unfold xSelected
  by_cases h : xModActive s s.xwm = true
  · simp only [h, if_true]
    by_cases e : s.xwm = n
    · subst e; simp [h]
    · have eb : (s.xwm == n) = false := by simpa using e
      simp [xModActive, eb]
  · have hn : xModActive s n = false := by
      by_cases e : s.xwm = n
      · subst e; simpa using h
      · have eb : (s.xwm == n) = false := by simpa using e
        simp [xModActive, eb]
    simp [h, hn]

theorem ySelected_eq (s : State) (n : Reg) : (ySelected s == some n) = yModActive s n := by
  unfold ySelected
  by_cases h : yModActive s s.ywm = true
  · simp only [h, if_true]
    by_cases e : s.ywm = n
    · subst e; simp [h]
    · have eb : (s.ywm == n) = false := by simpa using e
      simp [yModActive, eb]
  · have hn : yModActive s n = false := by
      by_cases e : s.ywm = n
      · subst e; simpa using h
      · have eb : (s.ywm == n) = false := by simpa using e
        simp [yModActive, eb]
    simp [h, hn]

theorem brSelected_eq (s : State) (n : Reg) : (brSelected s == some n) = bitRevActive s n := by
  unfold brSelected
  by_cases h : bitRevActive s s.bwm = true
  · simp only [h, if_true]
    by_cases e : s.bwm = n
    · subst e; simp [h]
    · have eb : (s.bwm == n) = false := by simpa using e
      simp [bitRevActive, eb]
  · have hn : bitRevActive s n = false := by
      by_cases e : s.bwm = n
      · subst e; simpa using h
      · have eb : (s.bwm == n) = false := by simpa using e
        simp [bitRevActive, eb]
    simp [h, hn]

/-! ### The step -/

/-- A step that answers a next state ran one decoded instruction and moved on. -/
theorem step_eq_next {s t : State} (h : step s = .next t) :
    s.fault = none ∧ ∃ w i u, s.fetch = some w ∧ decode w = .ok i ∧ exec i s = .next u ∧
      t = advance s u := by
  unfold step trapOutcome at h
  cases hf : s.fault with
  | some e => rw [hf] at h; cases h
  | none =>
    rw [hf] at h
    simp only [Option.map_none, runCurrent] at h
    refine ⟨rfl, ?_⟩
    cases hw : s.fetch with
    | none => rw [hw] at h; cases h
    | some w =>
      rw [hw] at h
      simp only at h
      cases hd : decode w with
      | error e => rw [hd] at h; cases e; cases h
      | ok i =>
        rw [hd] at h
        obtain ⟨u, hu, ht⟩ := andThen_eq_next h
        cases ht
        exact ⟨w, i, u, rfl, hd, hu, rfl⟩

end Sys2Proof.Machine
end

