-- ==== Sys2Proof/Laws/Operands.lean ====
section
/-! SUPPORT. What the operand forms and the completion of a statement can do, said once. -/

namespace Sys2Proof.Machine

/-! ### Address generation under plain addressing -/

@[simp] theorem pick_some (s : State) (t : Draw) (v : Word) : pick s t (some v) = v := rfl

@[simp] theorem pick_none (s : State) (t : Draw) :
    pick s t none = Config.freeWord t s.draws := rfl

/-- Bit-reversed addressing acts on the `XW` path alone (R192). -/
@[simp] theorem bitReverses_xr (s : State) (n : Reg) (size : Size) (mode : Mode) :
    bitReverses s .xr n size mode = false := rfl

@[simp] theorem bitReverses_y (s : State) (n : Reg) (size : Size) (mode : Mode) :
    bitReverses s .y n size mode = false := rfl

theorem bitReverses_of_inactive {s : State} {n : Reg} (h : bitRevActive s n = false) (path : Path)
    (size : Size) (mode : Mode) : bitReverses s path n size mode = false := by
  simp [bitReverses, h]

/-- It never acts on a byte access, nor in a mode other than the two incrementing ones (R192). -/
@[simp] theorem bitReverses_byte (s : State) (path : Path) (n : Reg) (mode : Mode) :
    bitReverses s path n .byte mode = false := by simp [bitReverses]

theorem bitReverses_of_mode {mode : Mode} (h : mode.increments = false) (s : State) (path : Path)
    (n : Reg) (size : Size) : bitReverses s path n size mode = false := by simp [bitReverses, h]

/-- The buffer of the X paths and of the Y path (R153). -/
theorem moduloBuffer_x (s : State) {path : Path} (hp : path ≠ .y) (n : Reg) :
    moduloBuffer s path n = if xModActive s n then some (s.xmodsrt, s.xmodend) else none := by
  cases path
  · rfl
  · rfl
  · exact absurd rfl hp

theorem moduloBuffer_y (s : State) (n : Reg) :
    moduloBuffer s .y n = if yModActive s n then some (s.ymodsrt, s.ymodend) else none := rfl

/-- A register in no buffer is never outside one. -/
theorem outsideBuffer_none {s : State} {path : Path} {n : Reg} (h : moduloBuffer s path n = none)
    (size : Size) (mode : Mode) : outsideBuffer s path n size mode = false := by
  simp [outsideBuffer, h]

/-- Nor is a pointer whose value lies in its buffer. -/
theorem outsideBuffer_inside {s : State} {path : Path} {n : Reg} {b : Word × Word}
    (h : moduloBuffer s path n = some b) (h1 : b.1 ≤ s.w n) (h2 : s.w n ≤ b.2) (size : Size)
    (mode : Mode) : outsideBuffer s path n size mode = false := by
  simp [outsideBuffer, h, h1, h2]

/-- Nor is the pointer of an access that bit-reversed addressing takes (R199). -/
theorem outsideBuffer_bitReverses {s : State} {path : Path} {n : Reg} {size : Size} {mode : Mode}
    (h : bitReverses s path n size mode = true) : outsideBuffer s path n size mode = false := by
  simp [outsideBuffer, h]

/-- No correction acts on the path's accesses through the register. -/
def uncorrected (s : State) (path : Path) (n : Reg) : Prop :=
  moduloBuffer s path n = none ∧ (path = .xw → bitRevActive s n = false) ∧
    (path = .y → yReserved s = false)

theorem uncorrected_read {s : State} {n : Reg} (h : plainRead s n) : uncorrected s .xr n :=
  ⟨by simp [moduloBuffer, plainRead.eq_1 s n ▸ h], by simp, by simp⟩

theorem uncorrected_y {s : State} {n : Reg} (h : yReserved s = false) (h' : yModActive s n = false) :
    uncorrected s .y n := ⟨by simp [moduloBuffer, h'], by simp, fun _ => h⟩

/-- Without a correction `Adjust` is the plain sum (R153, last line). -/
theorem adjust_plain {s : State} {path : Path} {n : Reg} (h : uncorrected s path n) (p : Word) (d : Int)
    (size : Size) (mode : Mode) : adjust s path n p d size mode = some (p + BitVec.ofInt 16 d) := by
  obtain ⟨h1, h2, h3⟩ := h
  cases path with
  | xr => simp [adjust, h1]
  | xw => simp [adjust, h1, h2 rfl, bitReverses_of_inactive (h2 rfl)]
  | y => simp [adjust, h1, h3 rfl]

/-- DSP post-modification under plain addressing (R150). -/
theorem eaGen_postMod {s : State} {path : Path} {n : Reg} (h : uncorrected s path n) (size : Size)
    (d : Int) :
    eaGen s path (.postMod d) n size false = ⟨s.w n, some (s.w n + BitVec.ofInt 16 d)⟩ := by
  simp [eaGen, adjust_plain h, outsideBuffer_none h.1]

/-- A modulo pointer outside its buffer: the address and the pointer are free in the post-modification modes
as in the others (R174). -/
theorem eaGen_outside {s : State} {path : Path} {n : Reg} {size : Size} {m : PtrMode}
    (h : outsideBuffer s path n size (.ptr m) = true) (o : Bool) :
    (eaGen s path (.ptr m) n size o).ea = Config.freeWord (.ea path) s.draws := by
  cases m <;> simp [eaGen, h]

/-- An address generation updates a pointer just in the modifying modes. -/
theorem eaGen_upd_ptr (s : State) (path : Path) (n : Reg) (size : Size) (m : PtrMode) (o : Bool) :
    (eaGen s path (.ptr m) n size o).upd.isSome = (Operand.ptr m n).modifies.isSome := by
  cases m <;> rfl

@[simp] theorem eaGen_upd_regOff (s : State) (path : Path) (n b : Reg) (size : Size) (o : Bool) :
    (eaGen s path (.regOff b) n size o).upd = none := rfl

@[simp] theorem eaGen_upd_litOff (s : State) (path : Path) (n : Reg) (k : Int) (size : Size)
    (o : Bool) : (eaGen s path (.litOff k) n size o).upd = none := rfl

/-- The registers a pointer operand's update names. -/
theorem eaGen_ups_ptr (s : State) (path : Path) (n : Reg) (size : Size) (m : PtrMode) (o : Bool)
    (u : Reg × Word) (h : u ∈ (eaGen s path (.ptr m) n size o).ups n) :
    u.1 ∈ (Operand.ptr m n).modifies.toList := by
  cases m <;> simp_all [Gen.ups, eaGen, Operand.modifies]

@[simp] theorem gen_ups_none (ea : Word) (n : Reg) : (Gen.mk ea none).ups n = [] := rfl

@[simp] theorem gen_ups_some (ea v : Word) (n : Reg) : (Gen.mk ea (some v)).ups n = [(n, v)] := rfl

/-! ### Modulo and bit-reversed addressing -/

/-- `leastPow` is the least power of two not below the length (R165). -/
theorem leastPow_eq {l k : Nat} (h : leastPowerFor l k) (hk : k ≤ 16) : leastPow l = k := by
  have : (List.range 17).find? (fun k => decide (l ≤ 2 ^ k)) = some k := by
    rw [List.find?_range_eq_some]
    exact ⟨by simpa using h.1, by simp; omega, fun j hj => by simpa using h.2 j hj⟩
  simp [leastPow, this]

/-- The least power of two is found for every length a buffer can have. -/
theorem leastPow_eq_of_le {l k : Nat} (h : leastPowerFor l k) (hl : l ≤ 2 ^ 16) : leastPow l = k := by
  refine leastPow_eq h (Nat.not_lt.1 fun hk => ?_)
  have := h.2 16 hk
  omega

/-- Inside its contract the modulo correction is the buffer's step (R170). -/
theorem modAdj_of_moduloStep {srt fin p q : Word} {d : Int} (h : moduloStep srt fin p d q) :
    modAdj srt fin p d = some q := by
  obtain ⟨h1, h2, h3, h4, h5, k, hk, h⟩ := h
  have hf := fin.isLt
  have hq := q.isLt
  have hlp : leastPow ((fin.toNat : Int) - srt.toNat + 1).toNat = k := by
    have e : ((fin.toNat : Int) - srt.toNat + 1).toNat = fin.toNat - srt.toNat + 1 := by omega
    rw [e]; exact leastPow_eq_of_le hk (by omega)
  have ofq : ∀ z : Int, (q.toNat : Int) = z → BitVec.ofInt 16 z = q := by
    intro z hz; rw [← hz]; simp
  have c1 : (srt.toNat : Int) < fin.toNat ∧ (srt.toNat : Int) ≤ p.toNat ∧
      (p.toNat : Int) ≤ fin.toNat ∧ 0 ≤ (p.toNat : Int) + d ∧ (p.toNat : Int) + d ≤ 0xFFFF := by
    omega
  have up : ∀ m : Nat, ((srt.toNat : Int) % 2 ^ m = 0) ↔ srt.toNat % 2 ^ m = 0 := by
    intro m; exact_mod_cast Iff.rfl
  have down : ∀ m : Nat, (((fin.toNat : Int) + 1) % 2 ^ m = 0) ↔ (fin.toNat + 1) % 2 ^ m = 0 := by
    intro m; exact_mod_cast Iff.rfl
  simp only [modAdj, hlp, c1, not_true, and_self, if_false, up, down]
  rcases h with ⟨a1, a2, a3, a4⟩ | ⟨a1, a2, a3, a4⟩
  · rw [if_pos ⟨a1, a2, a3⟩, ofq _ a4]
  · by_cases c : 0 ≤ d ∧ srt.toNat % 2 ^ k = 0 ∧
      (p.toNat : Int) + d - fin.toNat ≤ (fin.toNat : Int) - srt.toNat + 1
    · have hd : d = 0 := by omega
      rw [if_pos c, ofq]
      split at a4 <;> split <;> omega
    · rw [if_neg c, if_pos ⟨a1, a2, a3⟩, ofq _ a4]

/-- Where the correction fixes no value, the buffer has no step (R173). -/
theorem not_moduloStep {srt fin p : Word} {d : Int} (h : modAdj srt fin p d = none) (q : Word) :
    ¬ moduloStep srt fin p d q := fun hq => by rw [modAdj_of_moduloStep hq] at h; cases h

/-- A step of no offset stays (R170). -/
theorem moduloStep_zero {srt fin p q : Word} (h : moduloStep srt fin p 0 q) : q = p := by
  obtain ⟨-, h2, h3, -, -, k, -, h⟩ := h
  have n1 : ¬ (fin.toNat : Int) < (p.toNat : Int) + 0 := by omega
  have n2 : ¬ (p.toNat : Int) + 0 < srt.toNat := by omega
  apply BitVec.eq_of_toNat_eq
  rcases h with ⟨-, -, -, h⟩ | ⟨-, -, -, h⟩
  · rw [if_neg n1] at h; omega
  · rw [if_neg n2] at h; omega

/-- The listed modifiers are the single set bits (R197). -/
theorem listedXb_pow {j : Nat} (h : j < 15) : listedXb (BitVec.ofNat 15 (2 ^ j)) = true := by
  have : ∀ j : Fin 15, listedXb (BitVec.ofNat 15 (2 ^ j.val)) = true := by decide
  exact this ⟨j, h⟩

/-- Bit-reversed addressing takes the accesses that `bitReversedWrite` says (R192). -/
theorem bitReverses_iff (s : State) (path : Path) (n : Reg) (size : Size) (mode : Mode) :
    bitReverses s path n size mode = true ↔ bitReversedWrite s path n size mode := by
  have hm : mode.increments = true ↔ mode = .ptr .postInc ∨ mode = .ptr .preInc := by
    cases mode with
    | ptr m => cases m <;> simp [Mode.increments]
    | regOff b => simp [Mode.increments]
    | litOff k => simp [Mode.increments]
    | postMod d => simp [Mode.increments]
  simp [bitReverses, bitReversedWrite, hm, and_assoc]

/-- What the spec fixes of a step on an X path, `Adjust` gives, and the pointer is in no buffer or inside it
(R153, R170, R194). -/
theorem adjust_xStep {s : State} {path : Path} {n : Reg} {size : Size} {mode : Mode} {d : Int} {q : Word}
    (hp : path ≠ .y) (h : xStep s path n size mode d q) :
    adjust s path n (s.w n) d size mode = some q ∧ outsideBuffer s path n size mode = false := by
  rcases h with ⟨hb, ⟨j, hj, hx⟩, rfl⟩ | ⟨hb, h⟩
  · rw [← bitReverses_iff] at hb
    have hl : listedXb s.xb = true := by rw [hx]; exact listedXb_pow hj
    exact ⟨by simp [adjust, hb, hl], outsideBuffer_bitReverses hb⟩
  · rw [← bitReverses_iff, Bool.not_eq_true] at hb
    rcases h with ⟨hm, rfl⟩ | ⟨hm, hw, hq⟩
    · have hn : moduloBuffer s path n = none := by rw [moduloBuffer_x s hp, hm]; rfl
      exact ⟨by simp [adjust, hb, hm, hn, hp], outsideBuffer_none hn _ _⟩
    · have hn : moduloBuffer s path n = some (s.xmodsrt, s.xmodend) := by
        rw [moduloBuffer_x s hp, hm]; rfl
      have hw' : ¬ (path = .xw ∧ bitRevActive s n = true ∧ xModActive s n = true ∧ d ≠ 0) := by
        rintro ⟨rfl, h2, -, h3⟩
        rcases hw with h | h | h
        · cases h
        · rw [h] at h2; cases h2
        · exact h3 h
      exact ⟨by rw [adjust, if_neg (by simp [hb]), if_neg hw', if_neg (by simp [hp]), hn]
                exact modAdj_of_moduloStep hq,
        outsideBuffer_inside hn (by simpa [BitVec.le_def] using hq.2.1)
          (by simpa [BitVec.le_def] using hq.2.2.1) _ _⟩

/-- A step of no offset in a mode that does not increment stays. -/
theorem xStep_zero {s : State} {path : Path} {n : Reg} {size : Size} {q : Word}
    (h : xStep s path n size (.ptr .ind) 0 q) : q = s.w n := by
  rcases h with ⟨⟨-, -, -, h | h⟩, -⟩ | ⟨-, ⟨-, h⟩ | ⟨-, -, h⟩⟩
  · cases h
  · cases h
  · simpa using h
  · exact moduloStep_zero h

/-- The five pointer modes on an X path, as the spec fixes them (R141, R143 to R147). -/
theorem eaGen_xPointer {s : State} {path : Path} {n : Reg} {size : Size} {m : PtrMode} {ea q : Word}
    (hp : path ≠ .y) (h : xPointer s path n size m ea q) :
    eaGen s path (.ptr m) n size false = ⟨ea, if m = .ind then none else some q⟩ ∧
      (m = .ind → q = s.w n) := by
  obtain ⟨h, rfl⟩ := h
  have h0 : m = .ind → q = s.w n := by rintro rfl; exact xStep_zero h
  obtain ⟨ha, ho⟩ := adjust_xStep hp h
  refine ⟨?_, h0⟩
  cases m <;> simp only [PtrMode.delta] at ha <;> simp [eaGen, ho, ha, PtrMode.usedEa]
  exact h0 rfl

/-- The literal offset mode on an X path (R149). -/
theorem eaGen_litOff {s : State} {path : Path} {n : Reg} {size : Size} {k : Int} {q : Word}
    (hp : path ≠ .y) (h : xStep s path n size (.litOff k) k q) :
    eaGen s path (.litOff k) n size false = ⟨q, none⟩ := by
  obtain ⟨ha, ho⟩ := adjust_xStep hp h
  simp [eaGen, ho, ha]

/-- The register indexed mode on an X path (R148). -/
theorem eaGen_regOff {s : State} {path : Path} {n b : Reg} {size : Size} {q : Word} (hp : path ≠ .y)
    (hb : xModActive s b = true → xModActive s n = true)
    (h : xStep s path n size (.regOff b) (s.w b).toInt q) :
    eaGen s path (.regOff b) n size false = ⟨q, none⟩ := by
  obtain ⟨ha, ho⟩ := adjust_xStep hp h
  have : (xModActive s b && !xModActive s n) = false := by
    cases hx : xModActive s b with
    | false => rfl
    | true => simp [hb hx]
  simp [eaGen, ho, ha, this]

/-- Plain addressing in the five pointer modes, reading and writing (R143 to R147, R192). -/
theorem xPointer_plain {s : State} {path : Path} {n : Reg} {size : Size} {m : PtrMode}
    (hx : xModActive s n = false) (hb : ¬ bitReversedWrite s path n size (.ptr m)) :
    xPointer s path n size m (m.plainEa (s.w n) size.step) (m.plainNext (s.w n) size.step) := by
  have e : m.plainNext (s.w n) size.step = s.w n + BitVec.ofInt 16 (m.delta size.bytes) := by
    cases m <;> cases size <;>
      simp [PtrMode.plainNext, PtrMode.delta, Size.step, Size.bytes, BitVec.sub_eq_add_neg]
  refine ⟨.inr ⟨hb, .inl ⟨hx, e⟩⟩, ?_⟩
  cases m <;> rfl

theorem xPointer_plainRead {s : State} {n : Reg} (h : plainRead s n) (size : Size) (m : PtrMode) :
    xPointer s .xr n size m (m.plainEa (s.w n) size.step) (m.plainNext (s.w n) size.step) :=
  xPointer_plain h (by rintro ⟨h, -⟩; cases h)

theorem xPointer_plainWrite {s : State} {n : Reg} {size : Size} {m : PtrMode}
    (h : plainWrite s n size m) :
    xPointer s .xw n size m (m.plainEa (s.w n) size.step) (m.plainNext (s.w n) size.step) := by
  refine xPointer_plain h.1 ?_
  rintro ⟨-, h2, h3, h4⟩
  rcases h.2 with h | h | ⟨h, h'⟩
  · rw [h] at h2; cases h2
  · rw [h] at h3; cases h3
  · rcases h4 with h4 | h4
    · exact h (by cases h4; rfl)
    · exact h' (by cases h4; rfl)

/-- The X buffer in the five pointer modes (R170), reading and, where bit-reversed addressing is off for the
pointer or the mode is `[Wn]`, writing (R200). -/
theorem xPointer_modulo {s : State} {path : Path} {n : Reg} {size : Size} {m : PtrMode} {q : Word}
    (hx : xModActive s n = true) (hw : path = .xr ∨ bitRevActive s n = false ∨ m = .ind)
    (hq : moduloStep s.xmodsrt s.xmodend (s.w n) (m.delta size.bytes) q) :
    xPointer s path n size m (m.usedEa (s.w n) q) q := by
  refine ⟨.inr ⟨?_, .inr ⟨hx, hw.imp id (Or.imp id fun h => by rw [h]; rfl), hq⟩⟩, rfl⟩
  rintro ⟨rfl, h2, -, h4⟩
  rcases hw with h | h | rfl
  · cases h
  · rw [h] at h2; cases h2
  · rcases h4 with h | h <;> cases h

/-- The reverse-carry sum in the two incrementing modes (R193, R199). -/
theorem xPointer_reversed {s : State} {n : Reg} {m : PtrMode} (hb : bitRevActive s n = true)
    (hx : listedModifier s) (hm : m = .postInc ∨ m = .preInc) :
    xPointer s .xw n .word m (m.usedEa (s.w n) (revAdd (s.w n) s.xb)) (revAdd (s.w n) s.xb) :=
  ⟨.inl ⟨⟨rfl, hb, rfl, hm.imp (congrArg _) (congrArg _)⟩, hx, rfl⟩, rfl⟩

/-! ### Register results -/

/-- The low byte of a word put together from two bytes. -/
theorem low_of_append (x b : Byte) : (x ++ b : Word).extractLsb' 0 8 = b := by
  apply BitVec.eq_of_toNat_eq
  rw [BitVec.extractLsb'_toNat, BitVec.toNat_append, ← Nat.shiftLeft_add_eq_or_of_lt b.isLt]
  have := b.isLt
  simp [Nat.shiftLeft_eq]
  omega

/-- A byte move leaves the byte in the low half (20_memory R66). -/
theorem regResult_byte_low (s : State) (v : Word) :
    (regResult s .byte v).extractLsb' 0 8 = v.extractLsb' 0 8 := low_of_append _ _

/-- The byte on the lower 8 bits of the bus. -/
theorem low_of_setWidth (b : Byte) : (b.setWidth 16 : Word).extractLsb' 0 8 = b := by
  apply BitVec.eq_of_toNat_eq
  have := b.isLt
  simp only [BitVec.extractLsb'_toNat, BitVec.toNat_setWidth, Nat.shiftRight_zero]
  omega

/-- A register that the statement updates holds `v` where every update of it leaves `v`: its own value when it
is the only one, a free value when there are two (U15). -/
theorem commit_w_of (c : State) (us : Updates) (n : Reg) (v : Word) (hm : ∃ u ∈ us, u.1 = n)
    (h : ∀ u ∈ us, u.1 = n →
      (if us.countP (fun u' => u'.1 == n) ≤ 1 then u.2 else Config.freeWord (.twice n) c.draws) = v) :
    (commit c us).w n = v := by
  have hit : ∀ (us : Updates) (f : Reg → Word → Word) (c : State), (∀ u ∈ us, u.1 = n → f n u.2 = v) →
      ((∃ u ∈ us, u.1 = n) ∨ c.w n = v) →
      (us.foldl (fun t u => t.setW u.1 (f u.1 u.2)) c).w n = v := by
    intro us f
    induction us with
    | nil => intro c _ h; simpa using h
    | cons a us ih =>
      intro c hf h
      refine ih _ (fun u hu => hf u (.tail _ hu)) ?_
      by_cases ha : a.1 = n
      · exact .inr (by rw [← hf a (.head _) ha]; simp [ha])
      · rcases h with ⟨u, hu, e⟩ | h
        · rcases List.mem_cons.1 hu with rfl | hu
          · exact absurd e ha
          · exact .inl ⟨u, hu, e⟩
        · exact .inr ((setW_w_other _ _ _ _ ha).trans h)
  exact hit us (fun m x => if us.countP (fun u => u.1 == m) ≤ 1 then x
    else Config.freeWord (.twice m) c.draws) c h (.inl hm)

/-- A register that the statement updates once holds the value of that update. -/
theorem commit_w_mem (c : State) (us : Updates) (n : Reg) (v : Word) (hd : (us.map (·.1)).Nodup)
    (h : (n, v) ∈ us) : (commit c us).w n = v := by
  have hc : us.countP (fun u => u.1 == n) ≤ 1 := by
    have := List.nodup_iff_count_le_one.1 hd n
    rwa [List.count, List.countP_map] at this
  refine commit_w_of c us n v ⟨_, h, rfl⟩ fun u hu e => ?_
  rw [if_pos hc, List.inj_on_of_nodup_map hd hu h e]

/-- Updates of different registers are written as they are. -/
theorem commit_nodup (c : State) (us : Updates) (h : (us.map (·.1)).Nodup) : commit c us = c.setRegs us := by
  have one : ∀ u ∈ us, us.countP (fun u' => u'.1 == u.1) ≤ 1 := fun u _ => by
    have := List.nodup_iff_count_le_one.1 h u.1
    rwa [List.count, List.countP_map] at this
  have go : ∀ (vs : Updates) (t : State), (∀ u ∈ vs, u ∈ us) →
      vs.foldl (fun t u => t.setW u.1 (if us.countP (fun u' => u'.1 == u.1) ≤ 1 then u.2
        else Config.freeWord (.twice u.1) c.draws)) t = t.setRegs vs := by
    intro vs
    induction vs with
    | nil => intro t _; rfl
    | cons u vs ih =>
      intro t hv
      rw [List.foldl_cons, if_pos (one u (hv u (.head _))), ih _ fun w hw => hv w (.tail _ hw)]
      rfl
  exact go us c fun _ h => h

@[simp] theorem setRegs_nil (s : State) : s.setRegs [] = s := rfl

@[simp] theorem setRegs_cons (s : State) (u : Reg × Word) (us : Updates) :
    s.setRegs (u :: us) = (s.setW u.1 u.2).setRegs us := rfl

theorem setRegs_append (s : State) (us us' : Updates) :
    s.setRegs (us ++ us') = (s.setRegs us).setRegs us' := List.foldl_append

/-- The update of a pointer mode is written, or was the pointer's content. -/
theorem setRegs_pointer {s c : State} {m : PtrMode} {n : Reg} {q : Word} (h : m = .ind → q = s.w n)
    (hc : c.regs = s.regs) : c.setRegs (if m = .ind then [] else [(n, q)]) = c.setW n q := by
  by_cases hm : m = .ind
  · rw [if_pos hm, h hm]; simp [State.setW, State.w, ← hc]
  · rw [if_neg hm]; rfl

/-! ### Sharing a register (R213) -/

/-- Operands that name different registers share none. -/
theorem shares_reg (n d : Reg) (m : PtrMode) (h : n ≠ d ∨ m = .ind) :
    (Operand.reg n).shares (.ptr m d) = false := by
  rcases h with h | rfl
  · cases m <;> simp [Operand.shares, Operand.modifies, Operand.regs, h.symm]
  · rfl

theorem shares_ptr (n d : Reg) (m m' : PtrMode) (h : n ≠ d) :
    (Operand.ptr m n).shares (.ptr m' d) = false := by
  cases m' <;> simp [Operand.shares, Operand.modifies, Operand.regs, h.symm]

/-- An operand that modifies no register leaves the other's alone. -/
@[simp] theorem shares_of_reg (o : Operand) (d : Reg) : o.shares (.reg d) = false := rfl

@[simp] theorem shares_of_idx (o : Operand) (d b : Reg) : o.shares (.idx d b) = false := rfl

/-! ### Reads through a pointer -/

/-- A read through a generated address that completes: its value and its trap are the read's. -/
theorem fetchMcu_cases {s : State} {size : Size} {n : Reg} {g : Gen} {f : Fetched}
    (h : fetchMcu s size n g = .next f) :
    ∃ r, rdMcu s size g.ea = .next r ∧ f = ⟨r.v, readError g.ea r.trap, g.ups n⟩ := by
  obtain ⟨r, hr, hf⟩ := andThen_eq_next h
  exact ⟨r, hr, by cases hf; rfl⟩

/-- The trap a fetched operand carries is a read's. -/
theorem readError_kind {ea : Word} {b : Bool} {e : AddressError} (h : readError ea b = some e) :
    e = ⟨ea, .read⟩ ∧ b = true := by
  unfold readError at h
  cases b with
  | true => simp only [if_true, Option.some.injEq] at h; exact ⟨h.symm, rfl⟩
  | false => simp at h

/-- A source operand that completes updates only the pointer it modifies, and a trap it carries is a
read's. -/
theorem fetchSource_cases {s : State} {size : Size} {src : Operand} {b : Bool} {f : Fetched}
    (h : fetchSource s size src b = .next f) :
    (∀ u ∈ f.ups, u.1 ∈ src.modifies.toList) ∧ (∀ e, f.err = some e → e.kind = .read) := by
  cases src with
  | reg n => simp only [fetchSource] at h; cases h; simp
  | ptr m n =>
    obtain ⟨r, -, rfl⟩ := fetchMcu_cases h
    exact ⟨fun u hu => eaGen_ups_ptr _ _ _ _ _ _ u hu, fun e he => (readError_kind he).1 ▸ rfl⟩
  | idx n k =>
    obtain ⟨r, -, rfl⟩ := fetchMcu_cases h
    exact ⟨by simp [Gen.ups], fun e he => (readError_kind he).1 ▸ rfl⟩

/-- A read through a generated address that meets a cause of the trap (R231, R232). -/
theorem fetchMcu_readTraps {s : State} {size : Size} {n : Reg} {g : Gen} (h : readTraps s size g.ea) :
    ∃ v, fetchMcu s size n g = .next ⟨v, some ⟨g.ea, .read⟩, g.ups n⟩ := by
  obtain ⟨v, hv⟩ := rdMcu_readTraps h
  exact ⟨v, by simp [fetchMcu, hv, readError]⟩

/-- One that meets none carries none, whatever it delivers. -/
theorem trapOf_fetchMcu_inPlace {s : State} {size : Size} {n : Reg} {g : Gen} (h : inPlace s size g.ea) :
    trapOf (fetchMcu s size n g) = none := by
  cases hf : fetchMcu s size n g with
  | next f =>
    obtain ⟨r, hr, rfl⟩ := fetchMcu_cases hf
    simp [trapOf, readError, rdMcu_inPlace h hr]
  | fault r => rfl
  | refused r => rfl

/-- A read through a generated address that delivers. -/
theorem fetchMcu_delivers {s : State} {size : Size} {n : Reg} {g : Gen} {v : Word}
    (h : delivers s size g.ea v) :
    ∃ u : Word, (size = .word → u = v) ∧ u.extractLsb' 0 8 = v.extractLsb' 0 8 ∧
      fetchMcu s size n g = .next ⟨u, none, g.ups n⟩ := by
  obtain ⟨u, h1, h2, h3⟩ := rdMcu_delivers h
  exact ⟨u, h1, h2, by simp [fetchMcu, h3, readError]⟩

/-! ### The operands of MOV -/

/-- The pointers an operand updates are those it modifies. -/
theorem operandStep_regs {s : State} {path : Path} {size : Size} {o : Operand} {ea : Word} {us : Updates}
    (h : operandStep s path size o ea us) : us.map (·.1) = o.modifies.toList := by
  cases o with
  | reg n => exact h.elim
  | ptr m n => obtain ⟨q, -, rfl⟩ := h; cases m <;> rfl
  | idx n b => obtain ⟨-, -, rfl⟩ := h; rfl

/-- Two operands that share no register update different ones (R213). -/
theorem modifies_nodup {src dst : Operand} (h : dst.shares src = false) :
    (src.modifies.toList ++ dst.modifies.toList).Nodup := by
  unfold Operand.shares at h
  cases hs : src.modifies with
  | none => cases hd : dst.modifies <;> simp
  | some n =>
    rw [hs] at h
    cases hd : dst.modifies with
    | none => simp
    | some d =>
      have : d ∈ dst.regs := by
        cases dst with
        | reg e => cases hd
        | ptr m e => cases m <;> simp_all [Operand.modifies, Operand.regs]
        | idx e b => cases hd
      have hn : n ≠ d := by rintro rfl; simp_all
      simpa using hn

/-- The read phase at a source operand's address (R213, R258). -/
theorem fetchSource_operandStep {s : State} {size : Size} {src : Operand} {ea : Word} {us : Updates}
    (hz : hazardHits s src.readPointers = false) (h : operandStep s .xr size src ea us) :
    ∃ (n : Reg) (g : Gen), g.ea = ea ∧ g.ups n = us ∧ fetchSource s size src false = fetchMcu s size n g := by
  cases src with
  | reg n => exact h.elim
  | ptr m n =>
    obtain ⟨q, hq, rfl⟩ := h
    obtain ⟨hg, -⟩ := eaGen_xPointer (by simp) hq
    have hz : hazardHits s [n] = false := hz
    refine ⟨n, ⟨ea, if m = .ind then none else some q⟩, rfl, ?_, by simp [fetchSource, Operand.regs, hz, hg]⟩
    by_cases hm : m = .ind <;> simp [hm]
  | idx n b =>
    obtain ⟨hb, hq, rfl⟩ := h
    have hz : hazardHits s [n, b] = false := hz
    exact ⟨n, ⟨ea, none⟩, rfl, rfl, by
      simp [fetchSource, Operand.regs, hz, eaGen_regOff (show Path.xr ≠ .y by simp) hb hq]⟩

/-- A source operand that gives a value (R213). -/
theorem fetchSource_sourceStep {s : State} {size : Size} {src : Operand} {v : Word} {us : Updates}
    (h : sourceStep s size src v us) :
    ∃ u : Word, (size = .word → u = v) ∧ u.extractLsb' 0 8 = v.extractLsb' 0 8 ∧
      fetchSource s size src false = .next ⟨u, none, us⟩ := by
  have mem : ∀ ea, hazardHits s src.readPointers = false → operandStep s .xr size src ea us →
      delivers s size ea v → ∃ u : Word, (size = .word → u = v) ∧
        u.extractLsb' 0 8 = v.extractLsb' 0 8 ∧ fetchSource s size src false = .next ⟨u, none, us⟩ := by
    intro ea hz ho hd
    obtain ⟨n, g, rfl, rfl, hf⟩ := fetchSource_operandStep hz ho
    obtain ⟨u, h1, h2, h3⟩ := fetchMcu_delivers (n := n) hd
    exact ⟨u, h1, h2, hf.trans h3⟩
  cases src with
  | reg n => obtain ⟨rfl, rfl⟩ := h; exact ⟨_, fun _ => rfl, rfl, rfl⟩
  | ptr m n => obtain ⟨hz, ea, ho, hd⟩ := h; exact mem ea hz ho hd
  | idx n b => obtain ⟨hz, ea, ho, hd⟩ := h; exact mem ea hz ho hd

/-- The pointers a source operand updates are those it modifies. -/
theorem sourceStep_regs {s : State} {size : Size} {src : Operand} {v : Word} {us : Updates}
    (h : sourceStep s size src v us) : us.map (·.1) = src.modifies.toList := by
  cases src with
  | reg n => obtain ⟨-, rfl⟩ := h; rfl
  | ptr m n => obtain ⟨-, ea, ho, -⟩ := h; exact operandStep_regs ho
  | idx n b => obtain ⟨-, ea, ho, -⟩ := h; exact operandStep_regs ho

/-- `MOV` to a memory operand whose address the spec fixes writes there (R213). -/
theorem execMov_operandStep {s : State} {size : Size} {src dst : Operand} {ea : Word} {us : Updates}
    (hs : dst.shares src = false) (h : operandStep s .xw size dst ea us) :
    execMov size src dst s =
      finishStore s.closeWindow size ea (fetchSource s size src (src.shares dst)) us
        (src.regs ++ dst.regs) := by
  cases dst with
  | reg d => exact h.elim
  | ptr m d =>
    obtain ⟨q, hq, rfl⟩ := h
    obtain ⟨hg, -⟩ := eaGen_xPointer (by simp) hq
    simp only [execMov, hs, hg]
    by_cases hm : m = .ind <;> simp [hm]
  | idx d b =>
    obtain ⟨hb, hq, rfl⟩ := h
    simp only [execMov, hs, eaGen_regOff (by simp) hb hq, gen_ups_none]

/-! ### What a write leaves alone -/

/-- What a write leaves alone: registers, accumulators, the fault mark, the REPEAT count, index, text,
parameters and draw counter. -/
theorem wr_keeps {s : State} {size : Size} {ea v : Word} {r : Put} (h : wr s size ea v = .next r) :
    r.s.regs = s.regs ∧ r.s.accA = s.accA ∧ r.s.accB = s.accB ∧ r.s.fault = s.fault ∧
      r.s.rep = s.rep ∧ sameFrame s r.s := by
  rcases wr_cases h with rfl | ⟨-, ⟨-, -, rfl⟩ | ⟨-, rfl⟩⟩ | ⟨-, c, x, -, rfl⟩ <;>
    simp [sameFrame]

/-- A write changes no byte outside those it stores and no control register outside its word; outside the
SFR space it changes no control register and does not touch the hazard window. -/
theorem wr_effect {s : State} {size : Size} {ea v : Word} {r : Put} (h : wr s size ea v = .next r) :
    sameBytesBut s r.s size ea ∧ sameCtrlBut s r.s ea ∧
      (region s.par ea ≠ .sfr → r.s.haz = s.haz ∧ sameCtrl s r.s) := by
  rcases wr_cases h with rfl | ⟨-, ⟨rfl, hm, rfl⟩ | ⟨rfl, rfl⟩⟩ | ⟨hr, c, x, hc, rfl⟩
  · exact ⟨fun _ _ _ => rfl, fun _ _ => rfl, fun _ => ⟨rfl, fun _ => rfl⟩⟩
  · exact ⟨fun a h1 h2 => byteAt_setWord_other _ _ _ _ hm h1 (h2 rfl), fun _ _ => by simp,
      fun _ => ⟨rfl, fun _ => by simp⟩⟩
  · exact ⟨fun a h1 _ => byteAt_setByte_other _ _ _ _ h1, fun _ _ => by simp,
      fun _ => ⟨rfl, fun _ => by simp⟩⟩
  · refine ⟨fun a _ _ => by simp [State.byteAt], fun r' hr' => ?_, fun hn => absurd hr hn⟩
    have : r' ≠ c := fun e => hr' (e ▸ hc)
    simp [this, setCtrl_ctrl_other]

/-! ### Completing a statement -/

/-- Taking the trap leaves what the statement does not name (R235). -/
theorem raise_trapped (s : State) (ea : Word) (kind : AccessKind) (ns : List Reg) :
    trapped s (raiseAddressError s.closeWindow ⟨ea, kind⟩ ns) ea kind ns ∧
      nothingStored s (raiseAddressError s.closeWindow ⟨ea, kind⟩ ns) :=
  ⟨⟨rfl, fun n hn => by rw [raise_w_other _ _ _ _ hn]; rfl, by simp [sameAccs], by simp [sameFrame]⟩,
    fun a => by simp [State.byteAt], fun r => by rw [raise_ctrl]; simp⟩

/-- A register destination either commits its updates or takes the trap of the read. -/
theorem finishRegs_cases {s t : State} {f : Fetched} {us : Updates} {ns : List Reg}
    (h : finishRegs s f us ns = .next t) :
    (f.err = none ∧ t = commit s (f.ups ++ us)) ∨
      ∃ e, f.err = some e ∧ t = raiseAddressError s e ns := by
  unfold finishRegs at h
  cases he : f.err with
  | none => rw [he] at h; cases h; exact .inl ⟨rfl, rfl⟩
  | some e => rw [he] at h; cases h; exact .inr ⟨e, rfl, rfl⟩

/-- A write takes its trap exactly where `writeTraps` says, and then changes nothing (R234). -/
theorem wr_of_writeTraps {s : State} {size : Size} {ea : Word} (h : writeTraps s size ea = true)
    (v : Word) : wr s size ea v = .next ⟨s, true⟩ := by
  unfold writeTraps at h
  cases size with
  | word =>
    simp only [beq_self_eq_true, Bool.true_and, Bool.or_eq_true, beq_iff_eq] at h
    simp only [wr, wrW]
    rcases h with h | h
    · simp [h]
    · simp [h]
  | byte =>
    have h' : region s.par ea = .unimpl := by simpa using h
    simp [wr, wrB, h']

/-- After a trap of the read the state is as before it, or the write has been made. -/
theorem writeAfterTrap_cases (s : State) (size : Size) (ea v : Word) :
    writeAfterTrap s size ea v = s ∨ ∃ r, wr s size ea v = .next r ∧ writeAfterTrap s size ea v = r.s := by
  unfold writeAfterTrap
  split
  · split
    · next r hr => exact .inr ⟨r, hr, rfl⟩
    · exact .inl rfl
    · exact .inl rfl
  · exact .inl rfl

/-- A storing statement whose read delivered and whose write is made completes with its updates. -/
theorem finishStore_stores {s t : State} {size : Size} {ea u v : Word} {fu us : Updates} (ns : List Reg)
    (h1 : size = .word → u = v) (h2 : u.extractLsb' 0 8 = v.extractLsb' 0 8)
    (h : stores s size ea v t) (hd : ((fu ++ us).map (·.1)).Nodup) :
    finishStore s size ea (.next ⟨u, none, fu⟩) us ns = .next (t.setRegs (fu ++ us)) := by
  simp [finishStore, wr_congr s ea h1 h2, wr_stores h, commit_nodup t _ hd]

/-- A statement whose read traps always takes the trap, whatever its write would do (R231, R232). -/
theorem finishStore_trap {s : State} {size : Size} {ea : Word} {f : Fetched} {us : Updates}
    {ns : List Reg} {e : AddressError} (h : f.err = some e) :
    finishStore s size ea (.next f) us ns =
      .next (raiseAddressError (writeAfterTrap s size ea f.v) e ns) := by simp [finishStore, h]

/-- And what that leaves: nothing is stored but by its own write, if that was made (R234, R235). -/
theorem finishStore_trapped {s : State} {size : Size} {ea : Word} {f : Fetched} {us : Updates}
    {ns : List Reg} {a : Word} (h : f.err = some ⟨a, .read⟩) :
    ∃ t, finishStore s.closeWindow size ea (.next f) us ns = .next t ∧ trapped s t a .read ns ∧
      nothingStoredBut s t size ea := by
  refine ⟨_, finishStore_trap h, ?_⟩
  rcases writeAfterTrap_cases s.closeWindow size ea f.v with hw | ⟨r, hr, hw⟩ <;> rw [hw]
  · obtain ⟨h1, h2, h3⟩ := raise_trapped s a .read ns
    exact ⟨h1, fun b _ _ => h2 b, fun c _ => h3 c⟩
  · obtain ⟨k1, k2, k3, -, -, k4, k5, k6, k7⟩ := wr_keeps hr
    obtain ⟨e1, e2, -⟩ := wr_effect hr
    refine ⟨⟨rfl, fun n hn => ?_, by simp [sameAccs, k2, k3], by simp [sameFrame, k4, k5, k6, k7]⟩,
      fun b h1 h2 => ?_, fun c h1 => ?_⟩
    · rw [raise_w_other _ _ _ _ hn]; simp [State.w, k1]
    · have := e1 b h1 h2
      simpa [State.byteAt] using this
    · rw [raise_ctrl, e2 c h1]; simp

/-- A storing statement commits after its write, or takes the write's trap with nothing stored, or takes the
read's trap with the write made or not. -/
theorem finishStore_cases {s t : State} {size : Size} {ea : Word} {p : Part Fetched} {us : Updates}
    {ns : List Reg} (h : finishStore s size ea p us ns = .next t) :
    (∃ f, p = .next f ∧ f.err = none ∧ ∃ r, wr s size ea f.v = .next r ∧ r.trap = false ∧
      t = commit r.s (f.ups ++ us)) ∨
    t = raiseAddressError s ⟨ea, .write⟩ ns ∨
    (∃ f e, p = .next f ∧ f.err = some e ∧ (t = raiseAddressError s e ns ∨
      ∃ r, wr s size ea f.v = .next r ∧ t = raiseAddressError r.s e ns)) := by
  cases p with
  | fault r => simp only [finishStore, writeTrapOr] at h; split at h <;> cases h; exact .inr (.inl rfl)
  | refused r => simp only [finishStore, writeTrapOr] at h; split at h <;> cases h; exact .inr (.inl rfl)
  | next f =>
    cases he : f.err with
    | none =>
      simp only [finishStore, he] at h
      obtain ⟨r, hr, ht⟩ := andThen_eq_next h
      cases hb : r.trap with
      | false => simp only [hb] at ht; cases ht; exact .inl ⟨f, rfl, he, r, hr, hb, rfl⟩
      | true =>
        simp only [hb, if_true] at ht
        cases ht
        rcases wr_cases hr with rfl | ⟨-, ⟨-, -, rfl⟩ | ⟨-, rfl⟩⟩ | ⟨-, c, x, -, rfl⟩
        · exact .inr (.inl rfl)
        all_goals simp at hb
    | some e =>
      rw [finishStore_trap he] at h
      cases h
      refine .inr (.inr ⟨f, e, rfl, he, ?_⟩)
      rcases writeAfterTrap_cases s size ea f.v with hw | ⟨r, hr, hw⟩
      · exact .inl (by rw [hw])
      · exact .inr ⟨r, hr, by rw [hw]⟩

/-- Whatever the read phase gave, a write that traps ends the statement in the trap of the read, if that
trapped, or in its own (R231, R232, R239). -/
theorem finishStore_writeTraps {s : State} {size : Size} {ea : Word} (h : writeTraps s size ea = true)
    (p : Part Fetched) (us : Updates) (ns : List Reg) :
    finishStore s size ea p us ns =
      .next (raiseAddressError s ((trapOf p).getD ⟨ea, .write⟩) ns) := by
  have hw := wr_of_writeTraps h
  cases p with
  | next f =>
    cases he : f.err with
    | none => simp [finishStore, trapOf, he, hw]
    | some e => simp [finishStore_trap he, trapOf, he, writeAfterTrap, hw]
  | fault r => simp [finishStore, writeTrapOr, trapOf, h]
  | refused r => simp [finishStore, writeTrapOr, trapOf, h]

/-! ### The read phase of MAC -/

/-- The read phase of a DSP class statement that goes on: both reads delivered, or one trapped and its trap,
the first, is the one carried. -/
theorem bothReads_cases {x y : Part Fetched} {v : Word} {f : Fetched} (h : bothReads x y v = .next f) :
    f.v = v ∧ ((∃ e, f.err = some e ∧ (trapOf x).or (trapOf y) = some e) ∨
      (f.err = none ∧ ∃ fx fy, x = .next fx ∧ y = .next fy ∧ f.ups = fx.ups ++ fy.ups)) := by
  unfold bothReads at h
  cases he : (trapOf x).or (trapOf y) with
  | some e => rw [he] at h; cases h; exact ⟨rfl, .inl ⟨e, rfl, rfl⟩⟩
  | none =>
    rw [he] at h
    obtain ⟨fx, hx, h⟩ := andThen_eq_next h
    obtain ⟨fy, hy, h⟩ := andThen_eq_next h
    cases h
    exact ⟨rfl, .inr ⟨rfl, fx, fy, hx, hy, rfl⟩⟩

/-- A trap of the X read is taken whatever the Y read does, one of the Y read unless the X read trapped
(R231, R232, R239). -/
theorem bothReads_trap {x y : Part Fetched} {e : AddressError} (h : (trapOf x).or (trapOf y) = some e)
    (v : Word) : bothReads x y v = .next ⟨v, some e, []⟩ := by simp [bothReads, h]

/-- Two reads that deliver without a trap. -/
theorem bothReads_next {fx fy : Fetched} (hx : fx.err = none) (hy : fy.err = none) (v : Word) :
    bothReads (.next fx) (.next fy) v = .next ⟨v, none, fx.ups ++ fy.ups⟩ := by
  simp [bothReads, trapOf, hx, hy]

end Sys2Proof.Machine
end

