-- ==== Sys2Proof/Laws/Exec.lean ====
section
/-! SUPPORT. What one statement can do, said once for all fourteen instructions: `exec_cases` and, from it,
what a completed statement leaves of the frame. -/

namespace Sys2Proof.Machine

/-- The registers a statement writes when it takes no trap: its destinations and the pointers it modifies. -/
def updatedRegs (i : Instr) (p : Params) : List Reg :=
  match i with
  | .movLit _ d => [d]
  | .movLoad _ d => [d]
  | .movStore _ _ => []
  | .mov _ src (.reg d) => src.modifies.toList ++ [d]
  | .mov _ src (.ptr m d) => src.modifies.toList ++ (Operand.ptr m d).modifies.toList
  | .mov _ src (.idx _ _) => src.modifies.toList
  | .movLoadOff _ _ _ d => [d]
  | .movStoreOff _ _ _ _ => []
  | .nop => []
  | .repeatLit _ => []
  | .pop _ => (Operand.ptr p.popMode p.popReg).modifies.toList
  | .ret => []
  | .retfie => []
  | .retlw _ _ _ => []
  | .ulnk => []
  | .mac _ _ x y i j wb => macUpdates p x y i j wb

/-- What a read phase can carry: a trap of a read, and updates of registers of a list. -/
def readPhase (f : Fetched) (ns : List Reg) : Prop :=
  (∀ e, f.err = some e → e.kind = .read) ∧ ∀ u ∈ f.ups, u.1 ∈ ns

/-- The registers a prefetch writes. -/
def prefetchUpdates (path : Path) (op : Option PrefetchOp) (d : Reg) : List Reg :=
  match op with
  | some o => [d, o.pointer path]
  | none => []

/-- A prefetch that completes writes its destination and its pointer (R150, R222). -/
theorem prefetch_cases {s : State} {path : Path} {op : Option PrefetchOp} {d : Reg} {f : Fetched}
    (h : prefetch s path op d = .next f) :
    readPhase f (prefetchUpdates path op d) := by
  cases op with
  | none => cases h; exact ⟨by simp, by simp⟩
  | some o =>
    obtain ⟨r, -, hf⟩ := andThen_eq_next h
    cases hf
    refine ⟨fun e he => (readError_kind he).1 ▸ rfl, ?_⟩
    simp [Gen.ups, prefetchGen, eaGen, prefetchUpdates]

/-- The trap a prefetch carries is a read's. -/
theorem trapOf_prefetch {s : State} {path : Path} {op : Option PrefetchOp} {d : Reg} {e : AddressError}
    (h : trapOf (prefetch s path op d) = some e) : e.kind = .read := by
  cases hp : prefetch s path op d with
  | next f => rw [hp] at h; exact (prefetch_cases hp).1 e h
  | fault r => rw [hp] at h; cases h
  | refused r => rw [hp] at h; cases h

/-- The read phase of MAC. -/
theorem macReads_cases {s : State} {x y : BitVec 2} {i j : BitVec 4} {v : Word} {f : Fetched}
    (h : bothReads (prefetch s .xr s.par.xOps[i.toFin] s.par.xDest[x.toFin])
      (prefetch s .y s.par.yOps[j.toFin] s.par.yDest[y.toFin]) v = .next f) (wb : BitVec 2) :
    (∀ e, f.err = some e → e.kind = .read) ∧
      (f.err = none → ∀ u ∈ f.ups, u.1 ∈ macUpdates s.par x y i j wb) := by
  rcases bothReads_cases h with ⟨-, ⟨e, he, ho⟩ | ⟨he, fx, fy, hx, hy, hu⟩⟩
  · refine ⟨fun e' h' => ?_, fun h' => by rw [he] at h'; cases h'⟩
    rw [he] at h'; cases h'
    cases hx : trapOf (prefetch s .xr s.par.xOps[i.toFin] s.par.xDest[x.toFin]) with
    | some e' => rw [hx] at ho; cases ho; exact trapOf_prefetch hx
    | none => rw [hx] at ho; exact trapOf_prefetch ho
  · refine ⟨fun e h' => (by rw [he] at h'; cases h'), fun _ u h' => ?_⟩
    rw [hu, List.mem_append] at h'
    simp only [macUpdates, List.mem_append]
    rcases h' with h' | h'
    · exact .inl (.inl ((prefetch_cases hx).2 u h'))
    · exact .inl (.inr ((prefetch_cases hy).2 u h'))

/-- The state a statement writes: the hazard window emptied, and for MAC its accumulator's new content. -/
def afterReads (i : Instr) (s c : State) : Prop :=
  (targetAcc i = none ∧ c = s.closeWindow) ∨
    ∃ acc v, targetAcc i = some acc ∧ c = s.closeWindow.setAcc acc v

/-- What the reads of a statement leave alone: everything but the hazard window and a MAC's accumulator. -/
theorem afterReads_keeps {i : Instr} {s c : State} (h : afterReads i s c) :
    c.regs = s.regs ∧ c.mem = s.mem ∧ sameCtrl s c ∧ c.haz = [] ∧ c.fault = s.fault ∧ c.rep = s.rep ∧
      sameFrame s c ∧ ∀ acc, targetAcc i ≠ some acc → c.acc acc = s.acc acc := by
  rcases h with ⟨-, rfl⟩ | ⟨acc, v, ht, rfl⟩
  · exact ⟨rfl, rfl, fun _ => by simp, rfl, rfl, rfl, by simp [sameFrame], fun acc _ => by cases acc <;> rfl⟩
  · refine ⟨by simp, by simp, fun _ => by simp, by simp, by simp, by simp, by simp [sameFrame],
      fun acc' ha => ?_⟩
    rw [ht] at ha
    cases acc <;> cases acc' <;> first | rfl | exact absurd rfl ha

/-- What a statement that answers a next state did: it loaded a literal, emptied the hazard window, armed the
count, or completed a register form or a storing form over the state after its reads. -/
theorem exec_cases {i : Instr} {s t : State} (h : exec i s = .next t) :
    (∃ lit d, i = .movLit lit d ∧ t = s.closeWindow.setW d lit) ∨
    (i = .nop ∧ t = s.closeWindow) ∨
    (∃ lit, i = .repeatLit lit ∧ s.rep = 0 ∧ t = { s.closeWindow with rep := lit.toNat }) ∨
    ∃ c us, afterReads i s c ∧ (∀ u ∈ us, u.1 ∈ updatedRegs i s.par) ∧
      ((storeTarget i s = none ∧ ∃ f, finishRegs c f us (namedRegs i s.par) = .next t ∧
          (∀ e, f.err = some e → e.kind = .read) ∧
          (f.err = none → ∀ u ∈ f.ups, u.1 ∈ updatedRegs i s.par)) ∨
        ∃ size ea p, storeTarget i s = some (size, ea) ∧
          finishStore c size ea p us (namedRegs i s.par) = .next t ∧
          ∀ f, p = .next f → (∀ e, f.err = some e → e.kind = .read) ∧
            (f.err = none → ∀ u ∈ f.ups, u.1 ∈ updatedRegs i s.par)) := by
  cases i with
  | movLit lit d => cases h; exact .inl ⟨lit, d, rfl, rfl⟩
  | movLoad f d =>
    obtain ⟨r, -, h⟩ := andThen_eq_next h
    exact .inr (.inr (.inr ⟨_, _, .inl ⟨rfl, rfl⟩, by simp [updatedRegs], .inl ⟨rfl, _, h,
      fun e he => (readError_kind he).1 ▸ rfl, by simp⟩⟩))
  | movStore n f =>
    simp only [exec, execMovStore] at h
    exact .inr (.inr (.inr ⟨_, [], .inl ⟨rfl, rfl⟩, by simp, .inr ⟨_, _, _, rfl, h,
      fun f hf => by cases hf; simp⟩⟩))
  | mov size src dst =>
    simp only [exec, execMov] at h
    cases dst with
    | reg d =>
      obtain ⟨f, hf, h⟩ := andThen_eq_next h
      obtain ⟨h1, h2⟩ := fetchSource_cases hf
      exact .inr (.inr (.inr ⟨_, _, .inl ⟨rfl, rfl⟩, by simp [updatedRegs], .inl ⟨rfl, _, h, h2,
        fun _ u hu => List.mem_append_left _ (h1 u hu)⟩⟩))
    | ptr m d =>
      refine .inr (.inr (.inr ⟨_, _, .inl ⟨rfl, rfl⟩, fun u hu => ?_, .inr ⟨_, _, _, rfl, h,
        fun f hf => ?_⟩⟩))
      · exact List.mem_append_right _ (eaGen_ups_ptr _ _ _ _ _ _ u hu)
      · obtain ⟨h1, h2⟩ := fetchSource_cases hf
        exact ⟨h2, fun _ u hu => List.mem_append_left _ (h1 u hu)⟩
    | idx d b =>
      refine .inr (.inr (.inr ⟨_, _, .inl ⟨rfl, rfl⟩, by simp [Gen.ups], .inr ⟨_, _, _, rfl, h,
        fun f hf => ?_⟩⟩))
      obtain ⟨h1, h2⟩ := fetchSource_cases hf
      exact ⟨h2, fun _ u hu => h1 u hu⟩
  | movLoadOff size p k d =>
    obtain ⟨f, hf, h⟩ := andThen_eq_next h
    obtain ⟨r, -, rfl⟩ := fetchMcu_cases hf
    exact .inr (.inr (.inr ⟨_, _, .inl ⟨rfl, rfl⟩, by simp [updatedRegs], .inl ⟨rfl, _, h,
      fun e he => (readError_kind he).1 ▸ rfl, by simp [Gen.ups]⟩⟩))
  | movStoreOff size n p k =>
    simp only [exec, execMovStoreOff] at h
    exact .inr (.inr (.inr ⟨_, [], .inl ⟨rfl, rfl⟩, by simp, .inr ⟨_, _, _, rfl, h,
      fun f hf => by cases hf; simp⟩⟩))
  | nop => cases h; exact .inr (.inl ⟨rfl, rfl⟩)
  | repeatLit lit =>
    simp only [exec, execRepeat] at h
    split at h
    · next hr => cases h; exact .inr (.inr (.inl ⟨lit, rfl, hr, rfl⟩))
    · cases h
  | pop f =>
    refine .inr (.inr (.inr ⟨_, _, .inl ⟨rfl, rfl⟩, by simp, .inr ⟨_, _, _, rfl, h, fun g hg => ?_⟩⟩))
    obtain ⟨r, -, rfl⟩ := fetchMcu_cases hg
    exact ⟨fun e he => (readError_kind he).1 ▸ rfl, fun _ u hu => eaGen_ups_ptr _ _ _ _ _ _ u hu⟩
  | ret => cases h
  | retfie => cases h
  | retlw size lit d => cases h
  | ulnk => cases h
  | mac m acc x y i j wb =>
    simp only [exec, execMac, finishMac] at h
    cases hw : s.par.writeBack[wb.toFin] with
    | none =>
      rw [hw] at h
      obtain ⟨f, hf, h⟩ := andThen_eq_next h
      exact .inr (.inr (.inr ⟨_, _, .inr ⟨acc, _, rfl, rfl⟩, by simp,
        .inl ⟨by simp [storeTarget, hw], _, h, macReads_cases hf wb⟩⟩))
    | some md =>
      rw [hw] at h
      refine .inr (.inr (.inr ⟨_, _, .inr ⟨acc, _, rfl, rfl⟩, fun u hu => ?_,
        .inr ⟨_, _, _, by simp only [storeTarget, hw]; rfl, h, fun f hf => macReads_cases hf wb⟩⟩))
      have := eaGen_ups_ptr _ _ _ _ _ _ u hu
      simp only [updatedRegs, macUpdates, hw]
      exact List.mem_append_right _ this

end Sys2Proof.Machine
end

