-- ==== Sys2Proof/Laws/Mac.lean ====
section
/-! SUPPORT. Reads whose address the spec does not fix, the register updates of a statement, and the accesses of
MAC, each said once. -/

namespace Sys2Proof.Machine

/-! ### Addresses the spec does not fix -/

theorem outsideBuffer_x {s : State} {n : Reg} (h : xModActive s n = true) (h' : ¬ xPointerInside s n)
    (size : Size) (mode : Mode) : outsideBuffer s .xr n size mode = true := by
  have : ¬ (s.xmodsrt ≤ s.w n ∧ s.w n ≤ s.xmodend) := fun hw => h' fun _ => hw
  rw [Decidable.not_and_iff_or_not, BitVec.not_le, BitVec.not_le] at this
  simpa [outsideBuffer, moduloBuffer, h] using this

theorem outsideBuffer_y {s : State} {n : Reg} (h : yModActive s n = true) (h' : ¬ yPointerInside s n)
    (size : Size) (mode : Mode) : outsideBuffer s .y n size mode = true := by
  have : ¬ (s.ymodsrt ≤ s.w n ∧ s.w n ≤ s.ymodend) := fun hw => h' fun _ => hw
  rw [Decidable.not_and_iff_or_not, BitVec.not_le, BitVec.not_le] at this
  simpa [outsideBuffer, moduloBuffer, h] using this

/-- A pointer inside its buffer, or in none. -/
theorem outsideBuffer_xInside {s : State} {n : Reg} (h : xPointerInside s n) (size : Size) (mode : Mode) :
    outsideBuffer s .xr n size mode = false := by
  cases hx : xModActive s n with
  | false => exact outsideBuffer_none (by simp [moduloBuffer, hx]) _ _
  | true =>
    exact outsideBuffer_inside (b := (s.xmodsrt, s.xmodend)) (by simp [moduloBuffer, hx]) (h hx).1 (h hx).2
      _ _

theorem outsideBuffer_yInside {s : State} {n : Reg} (h : yPointerInside s n) (size : Size) (mode : Mode) :
    outsideBuffer s .y n size mode = false := by
  cases hy : yModActive s n with
  | false => exact outsideBuffer_none (by simp [moduloBuffer, hy]) _ _
  | true =>
    exact outsideBuffer_inside (b := (s.ymodsrt, s.ymodend)) (by simp [moduloBuffer, hy]) (h hy).1 (h hy).2
      _ _

/-- What address generation gives where the address is open, in every mode (R258 d, R174). -/
theorem eaGen_open {s : State} {path : Path} {n : Reg} {size : Size} {mode : Mode} {o : Bool}
    (h : (o || outsideBuffer s path n size mode) = true) :
    eaGen s path mode n size o =
      match mode with
      | .ptr m => ⟨openEa s path, openUpd m s path⟩
      | .regOff _ => ⟨openEa s path, none⟩
      | .litOff _ => ⟨openEa s path, none⟩
      | .postMod _ => ⟨openEa s path, some (Config.freeWord (.ptr path) s.draws)⟩ := by
  cases mode with
  | ptr m => cases m <;> simp [eaGen, h, openEa, openUpd]
  | regOff b => simp [eaGen, h, openEa]
  | litOff k => simp [eaGen, h, openEa]
  | postMod d => simp [eaGen, h, openEa]

/-- An open read on the `XR` path, in every mode. -/
theorem isOpen_of_xReadOpen {s : State} {n : Reg} {ptrs : List Reg} (h : xReadOpen s n ptrs) (size : Size)
    (mode : Mode) : (hazardHits s ptrs || outsideBuffer s .xr n size mode) = true := by
  rcases h with h | ⟨h, h'⟩
  · simp [h]
  · simp [outsideBuffer_x h h']

/-- The index alone selected for modulo addressing leaves the address open (R148). -/
theorem eaGen_index {s : State} {path : Path} {n b : Reg} (hb : xModActive s b = true)
    (hn : xModActive s n = false) (size : Size) (o : Bool) :
    eaGen s path (.regOff b) n size o = ⟨openEa s path, none⟩ := by simp [eaGen, hb, hn, openEa]

/-! ### Register updates -/

/-- Committing updates leaves the registers that `registersAfter` says. -/
theorem registersAfter_commit {s c : State} (hr : c.regs = s.regs) (hd : c.draws = s.draws) (us : Updates) :
    registersAfter s (commit c us) us := by
  refine ⟨fun n hn => ?_, fun u hu => ?_⟩
  · rw [commit_w_other _ _ _ fun u hu e => hn (List.mem_map.2 ⟨u, hu, e⟩)]
    simp [State.w, hr]
  · refine commit_w_of c us u.1 _ ⟨u, hu, rfl⟩ fun v hv e => ?_
    by_cases hc : us.countP (fun u' => u'.1 == u.1) ≤ 1
    · rw [if_pos hc, if_pos hc]
      rw [List.countP_eq_length_filter] at hc
      have h1 : u ∈ us.filter fun u' => u'.1 == u.1 := List.mem_filter.2 ⟨hu, by simp⟩
      have h2 : v ∈ us.filter fun u' => u'.1 == u.1 := List.mem_filter.2 ⟨hv, by simp [e]⟩
      obtain ⟨w, hw⟩ := List.length_eq_one_iff.1 (Nat.le_antisymm hc (List.length_pos_of_mem h1))
      rw [hw, List.mem_singleton] at h1 h2
      rw [h1, h2]
    · rw [if_neg hc, if_neg hc, hd]

/-! ### The accesses of MAC -/

/-- DSP post-modification in a modulo buffer (R150, R170). -/
theorem eaGen_postMod_modulo {s : State} {path : Path} {n : Reg} {d : Int} {q : Word} {b : Word × Word}
    (hb : moduloBuffer s path n = some b) (hx : path ≠ .xw) (hy : path = .y → yReserved s = false)
    (hq : moduloStep b.1 b.2 (s.w n) d q) :
    eaGen s path (.postMod d) n .word false = ⟨s.w n, some q⟩ := by
  have ho := outsideBuffer_inside hb (by simpa [BitVec.le_def] using hq.2.1)
    (by simpa [BitVec.le_def] using hq.2.2.1) .word (.postMod d)
  have := modAdj_of_moduloStep hq
  cases path with
  | xr => simp [eaGen, ho, adjust, hb, this]
  | xw => exact absurd rfl hx
  | y => simp [eaGen, ho, adjust, hb, this, hy rfl]

/-- An X prefetch under no hazard. -/
theorem prefetch_xPrefetches {s : State} {op : Option PrefetchOp} {dest : Reg} {us : Updates}
    (h : xPrefetches s op dest us) : ∃ v, prefetch s .xr op dest = .next ⟨v, none, us⟩ := by
  cases op with
  | none => cases h; exact ⟨_, rfl⟩
  | some o =>
    obtain ⟨v, q, rfl, hz, hv, hq⟩ := h
    have g : prefetchGen s .xr o = ⟨s.w (o.pointer .xr), some q⟩ := by
      have e : prefetchOffset s .xr o = prefetchDelta o s .xr := rfl
      simp only [prefetchGen, hz, e]
      rcases hq with ⟨hm, rfl⟩ | ⟨hm, hq⟩
      · exact eaGen_postMod (uncorrected_read hm) _ _
      · exact eaGen_postMod_modulo (b := (s.xmodsrt, s.xmodend)) (by simp [moduloBuffer, hm]) (by simp)
          (by simp) hq
    exact ⟨v, by simp [prefetch, g, rdDsp, rdX_dspXReads hv, readError]⟩

/-- A Y prefetch under no hazard. -/
theorem prefetch_yPrefetches {s : State} {op : Option PrefetchOp} {dest : Reg} {us : Updates}
    (h : yPrefetches s op dest us) : ∃ v, prefetch s .y op dest = .next ⟨v, none, us⟩ := by
  cases op with
  | none => cases h; exact ⟨_, rfl⟩
  | some o =>
    obtain ⟨v, q, rfl, hz, hr, hv, hq⟩ := h
    have g : prefetchGen s .y o = ⟨s.w (o.pointer .y), some q⟩ := by
      have e : prefetchOffset s .y o = prefetchDelta o s .y := rfl
      simp only [prefetchGen, hz, e, hr]
      rcases hq with ⟨hm, rfl⟩ | ⟨hm, hq⟩
      · exact eaGen_postMod (uncorrected_y hr hm) _ _
      · exact eaGen_postMod_modulo (b := (s.ymodsrt, s.ymodend)) (by simp [moduloBuffer, hm]) (by simp)
          (fun _ => hr) hq
    exact ⟨v, by simp [prefetch, g, rdDsp, rdY_dspYReads hv, readError]⟩

/-- Where a prefetch under no hazard reads, its pointer inside its buffer. -/
theorem prefetchGen_xEa {s : State} {o : PrefetchOp} (hz : hazardHits s [o.pointer .xr] = false)
    (hi : xPointerInside s (o.pointer .xr)) : (prefetchGen s .xr o).ea = s.w (o.pointer .xr) := by
  simp [prefetchGen, hz, eaGen, outsideBuffer_xInside hi]

theorem prefetchGen_yEa {s : State} {o : PrefetchOp} (hz : hazardHits s [o.pointer .y] = false)
    (hr : yReserved s = false) (hi : yPointerInside s (o.pointer .y)) :
    (prefetchGen s .y o).ea = s.w (o.pointer .y) := by
  simp [prefetchGen, hz, hr, eaGen, outsideBuffer_yInside hi]

/-- A DSP read that meets no cause of the trap raises none. -/
theorem rdX_inPlace {s : State} {a : Word} (h : inPlace s .word a) {r : Got} (hr : rdX s a = .next r) :
    r.trap = false := by
  have hm := h.1 rfl
  simp only [rdX] at hr
  split at hr
  · simp only [sfrReadW] at hr; split at hr <;> cases hr; exact hm
  · simp only [ramWord, hm] at hr; split at hr <;> cases hr; rfl
  · cases hr; exact hm
  · next hu => exact absurd hu h.2

theorem rdY_inPlace {s : State} {a : Word} (h : inPlace s .word a) {r : Got} (hr : rdY s a = .next r) :
    r.trap = false := by
  have hm := h.1 rfl
  simp only [rdY] at hr
  split at hr
  · cases hr; exact hm
  · cases hr; exact hm
  · simp only [ramWord, hm] at hr; split at hr <;> cases hr; rfl
  · next hu => exact absurd hu h.2

/-- One that meets a cause completes and traps (R124, R125, R231, R232). -/
theorem rdX_wordReadTraps {s : State} {a : Word} (h : wordReadTraps s a) :
    ∃ v, rdX s a = .next ⟨v, true⟩ := by
  rcases h with h | ⟨hm, h⟩
  · exact ⟨0#16, by simp [rdX, h]⟩
  · cases hr : region s.par a with
    | x => simp only [rdX, hr, ramWord, hm]; split <;> exact ⟨_, rfl⟩
    | y => exact ⟨0#16, by simp [rdX, hr, hm]⟩
    | unimpl => exact ⟨0#16, by simp [rdX, hr]⟩
    | sfr =>
      obtain ⟨r, hc⟩ := h.resolve_left fun h => h hr
      obtain ⟨c, hc⟩ := Option.isSome_iff_exists.1 (ctrlAt_isSome hc)
      exact ⟨s.ctrl c, by simp only [rdX, hr, sfrReadW, hc, hm]⟩

theorem rdY_traps {s : State} {a : Word} (h : ¬ inPlace s .word a) : ∃ v, rdY s a = .next ⟨v, true⟩ := by
  simp only [inPlace, true_implies, not_and_or, not_not, Bool.not_eq_false] at h
  cases hr : region s.par a with
  | unimpl => exact ⟨0#16, by simp [rdY, hr]⟩
  | x => simp [hr] at h; exact ⟨0#16, by simp [rdY, hr, h]⟩
  | sfr => simp [hr] at h; exact ⟨0#16, by simp [rdY, hr, h]⟩
  | y => simp [hr] at h; simp only [rdY, hr, ramWord, h]; split <;> exact ⟨_, rfl⟩

/-- The trap an X prefetch carries: none in place, whatever it delivers. -/
theorem trapOf_prefetch_xInPlace {s : State} {op : Option PrefetchOp} (dest : Reg)
    (h : ∀ o, op = some o → hazardHits s [o.pointer .xr] = false ∧ xPointerInside s (o.pointer .xr) ∧
      inPlace s .word (s.w (o.pointer .xr))) : trapOf (prefetch s .xr op dest) = none := by
  cases op with
  | none => rfl
  | some o =>
    obtain ⟨hz, hi, hp⟩ := h o rfl
    simp only [prefetch, prefetchGen_xEa hz hi, rdDsp]
    cases hr : rdX s (s.w (o.pointer .xr)) with
    | next r => simp [trapOf, rdX_inPlace hp hr, readError]
    | fault r => rfl
    | refused r => rfl

theorem trapOf_prefetch_yInPlace {s : State} {op : Option PrefetchOp} (dest : Reg)
    (h : ∀ o, op = some o → hazardHits s [o.pointer .y] = false ∧ yReserved s = false ∧
      yPointerInside s (o.pointer .y) ∧ inPlace s .word (s.w (o.pointer .y))) :
    trapOf (prefetch s .y op dest) = none := by
  cases op with
  | none => rfl
  | some o =>
    obtain ⟨hz, hv, hi, hp⟩ := h o rfl
    simp only [prefetch, prefetchGen_yEa hz hv hi, rdDsp]
    cases hr : rdY s (s.w (o.pointer .y)) with
    | next r => simp [trapOf, rdY_inPlace hp hr, readError]
    | fault r => rfl
    | refused r => rfl

end Sys2Proof.Machine
end

