-- ==== Sys2Proof/Laws/PerInstr.lean ====
section
/-! SUPPORT. Per instruction: the encoder's word has the fixed bits of a row of the table. -/

namespace Sys2Proof

/-- A field of a word as a number. -/
theorem fieldAt_toNat (w : InsnWord) (lo len : Nat) :
    (fieldAt w lo len).toNat = w.toNat / 2 ^ lo % 2 ^ len := by
  simp [fieldAt, BitVec.extractLsb'_toNat, Nat.shiftRight_eq_div_pow]

/-- A word has a row's fixed bits when each of its fixed fields holds its value. -/
theorem row_fits_iff (r : Row) (w : InsnWord) :
    r.fits w = true ↔ ∀ f ∈ r.fixed, w.toNat / 2 ^ f.1 % 2 ^ f.2.1 = f.2.2 := by
  simp [Row.fits, List.all_eq_true, fieldAt_toNat]

end Sys2Proof

namespace Sys2Proof.Laws

/-- The word of every instruction has the fixed bits of some row (30_encoding R108). -/
def EncodeHasRow.Statement (i : Instr) : Prop := rows.any (fun r => r.fits (encode i)) = true

/-- One row suffices. -/
theorem statement_of_row {i : Instr} (k : Nat) (r : Row) (hk : rows[k]? = some r)
    (h : ∀ f ∈ r.fixed, (encode i).toNat / 2 ^ f.1 % 2 ^ f.2.1 = f.2.2) :
    EncodeHasRow.Statement i :=
  List.any_eq_true.2 ⟨r, List.mem_of_getElem? hk, (row_fits_iff r _).2 h⟩

theorem EncodeHasRow.movLit (lit : Word) (d : Reg) : EncodeHasRow.Statement (.movLit lit d) :=
  statement_of_row 0 _ rfl (by simp [encode, packFields]; omega)

theorem EncodeHasRow.movLoad (f : Word) (d : Reg) : EncodeHasRow.Statement (.movLoad f d) :=
  statement_of_row 1 _ rfl (by
    have := (fieldOfAddr f).isLt
    simp [encode, packFields]; omega)

theorem EncodeHasRow.movStore (s : Reg) (f : Word) : EncodeHasRow.Statement (.movStore s f) :=
  statement_of_row 2 _ rfl (by
    have := (fieldOfAddr f).isLt
    simp [encode, packFields]; omega)

theorem EncodeHasRow.mov (size : Size) (src dst : Operand) :
    EncodeHasRow.Statement (.mov size src dst) :=
  statement_of_row 3 _ rfl (by
    have := (bitOfSize size).isLt
    have := dst.code.isLt
    have := src.code.isLt
    simp [encode, packFields]; omega)

theorem EncodeHasRow.movLoadOff (size : Size) (s : Reg) (k : Int) (d : Reg) :
    EncodeHasRow.Statement (.movLoadOff size s k d) :=
  statement_of_row 4 _ rfl (by
    have := (bitOfSize size).isLt
    have h1 : (fieldOfOffset size k).toNat / 64 < 16 := by omega
    have h2 : (fieldOfOffset size k).toNat / 8 % 8 < 8 := by omega
    have h3 : (fieldOfOffset size k).toNat % 8 < 8 := by omega
    simp only [encode, encodeOff, packFields]
    generalize (fieldOfOffset size k).toNat / 64 = x at h1 ⊢
    generalize (fieldOfOffset size k).toNat / 8 % 8 = y at h2 ⊢
    generalize (fieldOfOffset size k).toNat % 8 = z at h3 ⊢
    simp; omega)

theorem EncodeHasRow.movStoreOff (size : Size) (s d : Reg) (k : Int) :
    EncodeHasRow.Statement (.movStoreOff size s d k) :=
  statement_of_row 5 _ rfl (by
    have := (bitOfSize size).isLt
    have h1 : (fieldOfOffset size k).toNat / 64 < 16 := by omega
    have h2 : (fieldOfOffset size k).toNat / 8 % 8 < 8 := by omega
    have h3 : (fieldOfOffset size k).toNat % 8 < 8 := by omega
    simp only [encode, encodeOff, packFields]
    generalize (fieldOfOffset size k).toNat / 64 = x at h1 ⊢
    generalize (fieldOfOffset size k).toNat / 8 % 8 = y at h2 ⊢
    generalize (fieldOfOffset size k).toNat % 8 = z at h3 ⊢
    simp; omega)

theorem EncodeHasRow.nop : EncodeHasRow.Statement .nop := by unfold EncodeHasRow.Statement; decide

theorem EncodeHasRow.repeatLit (lit : BitVec 14) : EncodeHasRow.Statement (.repeatLit lit) :=
  statement_of_row 7 _ rfl (by simp [encode, packFields]; omega)

theorem EncodeHasRow.pop (f : Word) : EncodeHasRow.Statement (.pop f) :=
  statement_of_row 8 _ rfl (by
    have := (fieldOfAddr f).isLt
    simp [encode, packFields]; omega)

theorem EncodeHasRow.ret : EncodeHasRow.Statement .ret := by unfold EncodeHasRow.Statement; decide

theorem EncodeHasRow.retfie : EncodeHasRow.Statement .retfie := by
  unfold EncodeHasRow.Statement; decide

theorem EncodeHasRow.retlw (size : Size) (lit : BitVec 10) (d : Reg) :
    EncodeHasRow.Statement (.retlw size lit d) :=
  statement_of_row 11 _ rfl (by
    have := (bitOfSize size).isLt
    simp [encode, packFields]; omega)

theorem EncodeHasRow.ulnk : EncodeHasRow.Statement .ulnk := by unfold EncodeHasRow.Statement; decide

theorem EncodeHasRow.mac (m : BitVec 3) (acc : Acc) (x y : BitVec 2) (i j : BitVec 4)
    (wb : BitVec 2) : EncodeHasRow.Statement (.mac m acc x y i j wb) :=
  statement_of_row 13 _ rfl (by
    have := (bitOfAcc acc).isLt
    simp [encode, packFields]; omega)

end Sys2Proof.Laws
end

