-- ==== Sys2Proof/Tests/Slice0.lean ====
section
/-! SUPPORT. Tests. Expected values come from 95_test_vectors (T, V and P numbers), from the encodings of
30_encoding R108, or by hand from the rule named. The `witness_` theorems show a state and operands that
meet the hypotheses of a statement of Certificates/Slice0/Obligations.lean. -/

namespace Sys2Proof.Tests

open Sys2Proof Sys2Proof.Machine

/-! ### Helpers -/

/-- Reset of the test device TD of 95_test_vectors section 0: RAM 0x0800 to 0x27FF, Y from 0x1800. -/
def td : State := { State.reset with par := familyParams ⟨0x17FE#16, 0x1800#16, 0x27FE#16, []⟩ }

/-- The same with some registers and words of RAM set. -/
def start (ws : List (Reg × Word)) (cells : List (Word × Word)) : State :=
  cells.foldl (fun s c => s.setWord c.1 c.2) (ws.foldl (fun s w => s.setW w.1 w.2) td)

/-- The state an instruction leaves, if it completes. -/
def after (i : Instr) (s : State) : Option State :=
  match exec i s with
  | .next t => some t
  | .fault _ => none
  | .refused _ => none

/-- The state a step leaves. -/
def stepped (s : State) : Option State :=
  match step s with
  | .next t => some t
  | .fault _ => none
  | .refused _ => none

/-- What a read delivers. -/
def got (p : Machine.Part Got) : Option (Word × Bool) :=
  match p with
  | .next r => some (r.v, r.trap)
  | .fault _ => none
  | .refused _ => none

/-- What a write leaves at a word, and whether it traps. -/
def put (p : Machine.Part Put) (a : Word) : Option (Option Word × Bool) :=
  match p with
  | .next r => some (r.s.wordAt a, r.trap)
  | .fault _ => none
  | .refused _ => none

/-- What a decoder answer gives. -/
def gives (w : InsnWord) : Option Instr := (decode w).toOption

/-! ### WellFormed: an ill-formed term for each check (30_encoding R108, R109) -/

theorem test_wf_odd_load : (Instr.movLoad 0x0901#16 0).wellFormed = false := by decide
theorem test_wf_odd_store : (Instr.movStore 0 0x0901#16).wellFormed = false := by decide
theorem test_wf_odd_pop : (Instr.pop 0x0047#16).wellFormed = false := by decide
theorem test_wf_two_offsets :
    (Instr.mov .word (.idx 1 3) (.idx 2 4)).wellFormed = false := by decide
theorem test_wf_offset_odd : (Instr.movLoadOff .word 1 3 2).wellFormed = false := by decide
theorem test_wf_offset_high : (Instr.movLoadOff .word 1 1024 2).wellFormed = false := by decide
theorem test_wf_offset_byte : (Instr.movStoreOff .byte 1 2 512).wellFormed = false := by decide
theorem test_wf_accepts :
    (Instr.mov .word (.idx 1 3) (.idx 2 3)).wellFormed = true ∧
      (Instr.movLoadOff .word 1 (-1024) 2).wellFormed = true ∧
      (Instr.movStoreOff .byte 1 2 511).wellFormed = true := by decide

/-! ### Decoding: words written out from R108, or printed in 95_test_vectors -/

/-- Two fixed fields disagree on a bit they share. -/
def clash (f g : Nat × Nat × Nat) : Bool :=
  (List.range 24).any fun b =>
    decide (f.1 ≤ b ∧ b < f.1 + f.2.1 ∧ g.1 ≤ b ∧ b < g.1 + g.2.1) &&
      (f.2.2.testBit (b - f.1) != g.2.2.testBit (b - g.1))

/-- No two rows of the table share a word. -/
theorem test_rows_disjoint :
    (rows.map Row.fixed).Pairwise fun a b => (a.any fun f => b.any fun g => clash f g) = true := by
  decide

/-- P1 statement 0: `MOV #0x8FF4, W0`. -/
theorem test_decode_movLit : gives 0x28FF40#24 = some (.movLit 0x8FF4#16 0) := by decide
/-- `MOV 0x0046, W3`: 1000 0fff ffff ffff ffff dddd. -/
theorem test_decode_movLoad :
    gives 0b100000000000001000110011#24 = some (.movLoad 0x0046#16 3) := by decide
/-- P1 statement 1: `MOV W0, MODCON`. -/
theorem test_decode_movStore : gives 0x880230#24 = some (.movStore 0 0x0046#16) := by decide
/-- P2 statement 7: `MOV [W0++], [W1++]`. -/
theorem test_decode_mov :
    gives 0x7818B0#24 = some (.mov .word (.ptr .postInc 0) (.ptr .postInc 1)) := by decide
/-- `MOV [W1+W3], W2`: 0111 1www wBhh hddd dggg ssss with g = 110, and with g = 111. -/
theorem test_decode_mov_indexed :
    gives 0b011110011000000101100001#24 = some (.mov .word (.idx 1 3) (.reg 2)) ∧
      gives 0b011110011000000101110001#24 = some (.mov .word (.idx 1 3) (.reg 2)) := by decide
/-- `MOV [W4+8], W5` (stored 4) and `MOV.B [W4-2], W5`: 1001 0kkk kBkk kddd dkkk ssss. -/
theorem test_decode_movLoadOff :
    gives 0b100100000000001011000100#24 = some (.movLoadOff .word 4 8 5) ∧
      gives 0b100101111111101011100100#24 = some (.movLoadOff .byte 4 (-2) 5) := by decide
/-- `MOV W0, [W15-1024]` (stored -512): 1001 1kkk kBkk kddd dkkk ssss. -/
theorem test_decode_movStoreOff :
    gives 0b100111000000011110000000#24 = some (.movStoreOff .word 0 15 (-1024)) := by decide
/-- NOP's low sixteen bits are don't care. -/
theorem test_decode_nop : gives 0x000000#24 = some .nop ∧ gives 0x00ABCD#24 = some .nop := by
  decide
/-- P2 statement 6: `REPEAT #15`. -/
theorem test_decode_repeat : gives 0x09000F#24 = some (.repeatLit 15#14) := by decide
/-- `POP 0x0046`: 1111 1001 ffff ffff ffff fff0. -/
theorem test_decode_pop : gives 0b111110010000000001000110#24 = some (.pop 0x0046#16) := by decide
theorem test_decode_return : gives 0b000001100000000000000000#24 = some .ret := by decide
theorem test_decode_retfie : gives 0b000001100100000000000000#24 = some .retfie := by decide
/-- `RETLW.B #0x3FF, W7`: 0000 0101 0Bkk kkkk kkkk dddd. -/
theorem test_decode_retlw :
    gives 0b000001010111111111110111#24 = some (.retlw .byte 0x3FF#10 7) := by decide
theorem test_decode_ulnk : gives 0b111110101000000000000000#24 = some .ulnk := by decide
/-- MAC with m = 5, A = 1, x = 2, y = 1, i = 9, j = 6, a = 3: 1100 0mmm A0xx yyii iijj jjaa. -/
theorem test_decode_mac :
    gives 0b110001011010011001011011#24 = some (.mac 5#3 .b 2#2 1#2 9#4 6#4 3#2) := by decide
/-- Words that no row has: POP with bit 0 set, REPEAT with bit 14 set, all ones. -/
theorem test_decode_rejects :
    gives 0xF90001#24 = none ∧ gives 0x094000#24 = none ∧ gives 0xFFFFFF#24 = none := by decide
theorem test_decode_table_word :
    decodeTableWord 24 0x7802B4 = some (.mov .word (.ptr .postInc 4) (.reg 5)) := by decide

/-! ### Operations -/

/-- Start memory of V1. -/
def v1 : State :=
  start [] [(0x0900#16, 0x1234#16), (0x17FE#16, 0x0F0F#16), (0x1800#16, 0x5555#16),
    (0x27FE#16, 0xA5A5#16)]

/-- V1.1 to V1.9. -/
theorem test_rdW :
    [0x0900#16, 0x0901#16, 0x1800#16, 0x27FE#16, 0x2800#16, 0xFFFF#16, 0x0046#16, 0x004A#16,
      0x07FE#16].map (fun a => got (rdW v1 a)) =
    [some (0x1234#16, false), some (0x1234#16, true), some (0x5555#16, false),
      some (0xA5A5#16, false), some (0#16, true), some (0#16, true), some (0#16, false),
      some (1#16, false), none] := by decide

/-- V1.10 to V1.12. -/
theorem test_rdB :
    [0x0900#16, 0x0901#16, 0x2801#16, 0x004A#16, 0x004B#16].map (fun a => got (rdB v1 a)) =
    [some (0x34#16, false), some (0x12#16, false), some (0#16, true), some (1#16, false),
      some (0#16, false)] := by decide

/-- V1.13 to V1.16, V1.19. -/
theorem test_writes :
    put (wrW v1 0x0A10#16 0xBEEF#16) 0x0A10#16 = some (some 0xBEEF#16, false) ∧
      put (wrW v1 0x0A11#16 0xBEEF#16) 0x0A10#16 = some (none, true) ∧
      put (wrW v1 0x2800#16 0x1111#16) 0x2800#16 = some (none, true) ∧
      put (wrW v1 0x1800#16 0x1111#16) 0x1800#16 = some (some 0x1111#16, false) ∧
      put (wrB v1 0x27FF#16 0x7F#8) 0x27FE#16 = some (some 0x7FA5#16, false) := by decide

/-- V1.21 to V1.26. -/
theorem test_rdX :
    [0x0900#16, 0x17FE#16, 0x1800#16, 0x2800#16, 0x0901#16, 0x004A#16].map
      (fun a => got (rdX v1 a)) =
    [some (0x1234#16, false), some (0x0F0F#16, false), some (0#16, false), some (0#16, true),
      some (0x1234#16, true), some (1#16, false)] := by decide

/-- V1.27 to V1.31. -/
theorem test_rdY :
    [0x1800#16, 0x0900#16, 0x0046#16, 0x2800#16, 0x1801#16].map (fun a => got (rdY v1 a)) =
    [some (0x5555#16, false), some (0#16, false), some (0#16, false), some (0#16, true),
      some (0x5555#16, true)] := by decide

/-- V4.2, V4.3, V4.6, V4.7, V4.9, V4.10, V4.11 (buffer A and a start off its boundary). -/
theorem test_modAdj_incrementing :
    modAdj 0x1100#16 0x1163#16 0x1162#16 2 = some 0x1100#16 ∧
      modAdj 0x1100#16 0x1163#16 0x1150#16 0x20 = some 0x110C#16 ∧
      modAdj 0x1100#16 0x1163#16 0x1162#16 101 = some 0x1163#16 ∧
      modAdj 0x1100#16 0x1163#16 0x1162#16 102 = none ∧
      modAdj 0x1100#16 0x1163#16 0x1102#16 (-2) = none ∧
      modAdj 0x1100#16 0x1163#16 0x1164#16 2 = none ∧
      modAdj 0x1110#16 0x1173#16 0x1110#16 2 = none := by decide

/-- V4.13, V4.14, V4.16, V4.18 (buffer B). -/
theorem test_modAdj_decrementing :
    modAdj 0x11E0#16 0x11FF#16 0x11E0#16 (-2) = some 0x11FE#16 ∧
      modAdj 0x11E0#16 0x11FF#16 0x11E0#16 (-1) = some 0x11FF#16 ∧
      modAdj 0x11E0#16 0x11FF#16 0x11E0#16 (-34) = none ∧
      modAdj 0x11E0#16 0x11FF#16 0x11FE#16 2 = some 0x11E0#16 := by decide

/-- V4.21, V4.23, V4.26, V4.28: against the direction of buffer C, on the last byte of D, past the address space,
and no buffer. -/
theorem test_modAdj_contract :
    modAdj 0x119C#16 0x11FF#16 0x119C#16 2 = none ∧
      modAdj 0x1200#16 0x12FF#16 0x12FE#16 1 = some 0x12FF#16 ∧
      modAdj 0xFF00#16 0xFFFF#16 0xFFFE#16 2 = none ∧ modAdj 0x1102#16 0x1101#16 0x1102#16 0 = none := by
  decide

set_option maxRecDepth 4000 in
/-- T3, Example 3-5 of the source. -/
theorem test_revAdd :
    [0x0000#16, 0x0010#16, 0x0008#16, 0x0018#16, 0x0004#16].map (fun p => revAdd p 8#15) =
    [0x0010#16, 0x0008#16, 0x0018#16, 0x0004#16, 0x0014#16] := by decide

/-- V2.1, V2.4, V2.6, V2.7, V2.8, V2.9. -/
theorem test_fixed_bits :
    CtrlReg.modcon.fix 0xFFFF#16 = 0xCFFF#16 ∧ CtrlReg.xmodsrt.fix 0x1201#16 = 0x1200#16 ∧
      CtrlReg.xmodend.fix 0x12FE#16 = 0x12FF#16 ∧ CtrlReg.ymodsrt.fix 0x1801#16 = 0x1800#16 ∧
      CtrlReg.ymodend.fix 0x181E#16 = 0x181F#16 ∧ CtrlReg.xbrev.fix 0xFFFF#16 = 0xFFFF#16 := by
  decide

/-! ### Instructions: one step each -/

/-- R210's example. -/
theorem test_movLit :
    (after (.movLit 0x1200#16 4) State.reset).map (fun t => t.w 4) = some 0x1200#16 := by decide

/-- V1.1 through MOV f; XMODEND at POR (V1.8). -/
theorem test_movLoad :
    (after (.movLoad 0x0900#16 3) v1).map (fun t => t.w 3) = some 0x1234#16 ∧
      (after (.movLoad 0x004A#16 3) v1).map (fun t => t.w 3) = some 1#16 := by decide

/-- R211's example, and the window it opens. -/
theorem test_movStore :
    (after (.movStore 0 0x0046#16) (start [(0, 0x8FF4#16)] [])).map
      (fun t => (t.modcon, t.xmoden, t.xwm, t.haz.length)) = some (0x8FF4#16, true, 4, 1) := by
  decide

/-- R213's example (P1 statement 7 without the set-up). -/
theorem test_mov_load :
    (after (.mov .word (.ptr .postInc 4) (.reg 5))
      (start [(4, 0x1200#16)] [(0x1200#16, 0xCAFE#16)])).map (fun t => (t.w 4, t.w 5)) =
      some (0x1202#16, 0xCAFE#16) := by decide

/-- The first execution of P2 statement 7 under XBREV = 0x8008, MODCON = 0x01FF. -/
theorem test_mov_bit_reversed :
    (after (.mov .word (.ptr .postInc 0) (.ptr .postInc 1))
      (((start [(0, 0x0902#16), (1, 0x0A10#16)] [(0x0902#16, 0x1001#16)]).setCtrl .xbrev
        0x8008#16).setCtrl .modcon 0x01FF#16)).map
      (fun t => (t.w 0, t.w 1, t.wordAt 0x0A10#16)) =
      some (0x0904#16, 0x0A08#16, some 0x1001#16) := by decide

/-- R214's example; V3.12. -/
theorem test_movLoadOff :
    (after (.movLoadOff .word 4 8 5) (start [(4, 0x1200#16)] [(0x1208#16, 0xBEEF#16)])).map
      (fun t => (t.w 4, t.w 5)) = some (0x1200#16, 0xBEEF#16) := by decide

theorem test_movStoreOff :
    (after (.movStoreOff .word 0 4 (-2)) (start [(4, 0x1200#16), (0, 0xABCD#16)] [])).map
      (fun t => (t.w 4, t.wordAt 0x11FE#16)) = some (0x1200#16, some 0xABCD#16) := by decide

/-- R215: the window ends. -/
theorem test_nop :
    (after .nop (State.reset.writeCtrl .modcon 0x8FF4#16)).map (fun t => (t.modcon, t.haz)) =
      some (0x8FF4#16, []) := by decide

/-- R216: REPEAT #15, sixteen executions, fifteen after the first. -/
theorem test_repeat : (after (.repeatLit 15#14) State.reset).map State.rep = some 15 := by decide

/-- R217 with the parameters of reset: `[--W15]`. -/
theorem test_pop :
    (after (.pop 0x0A00#16) (start [(15, 0x0902#16)] [(0x0900#16, 0x7777#16)])).map
      (fun t => (t.w 15, t.wordAt 0x0A00#16)) = some (0x0900#16, some 0x7777#16) := by decide

/-- R222's example: X through W8 into W4, Y through W10 into W5, offsets +2. -/
theorem test_mac :
    (after (.mac 0 .a 0 1 1 1 2)
      (start [(8, 0x0900#16), (10, 0x1800#16)]
        [(0x0900#16, 0x1234#16), (0x1800#16, 0x5555#16)])).map
      (fun t => (t.w 4, t.w 5, t.w 8, t.w 10, t.accB)) =
      some (0x1234#16, 0x5555#16, 0x0902#16, 0x1802#16, 1) := by decide

/-- V7.5: both pointers in the wrong space, zeros and no fault; write back through `[W13]+=2`. -/
theorem test_mac_wrong_space :
    (after (.mac 0 .a 0 1 0 0 1)
      (start [(8, 0x1800#16), (10, 0x0900#16), (13, 0x0A20#16), (4, 7), (5, 7)] [])).map
      (fun t => (t.w 4, t.w 5, t.w 13, (t.byteAt 0x0A21#16).isSome, t.fault)) =
      some (0#16, 0#16, 0x0A22#16, true, none) := by decide

/-- V7.1, V7.4: the address error trap. -/
theorem test_trap :
    (after (.mov .word (.ptr .ind 1) (.reg 2))
      (start [(1, 0x0901#16)] [(0x0900#16, 0x1234#16)])).map State.fault =
      some (some ⟨0x0901#16, .read⟩) ∧
    (after (.mov .word (.reg 2) (.ptr .ind 1)) (start [(1, 0x0A01#16)] [])).map
      (fun t => (t.fault, t.mem)) = some (some ⟨0x0A01#16, .write⟩, []) := by decide

/-- R231, R232: a trap is taken whatever stops the other access: an X read at 0x0901 beside a Y read of RAM
that nothing has written, the same at 0x2800, and a store to 0x0A01 of a word that nothing has written. -/
theorem test_trap_beside_unwritten :
    [0x0901#16, 0x2800#16].map (fun p =>
      (after (.mac 0 .a 0 1 1 1 2) (start [(8, p), (10, 0x1800#16)] [])).map State.fault) =
      [some (some ⟨0x0901#16, .read⟩), some (some ⟨0x2800#16, .read⟩)] ∧
    (after (.mov .word (.ptr .ind 1) (.ptr .ind 2))
      (start [(1, 0x0900#16), (2, 0x0A01#16)] [])).map State.fault =
      some (some ⟨0x0A01#16, .write⟩) := by decide

/-- R235: a MAC with the X prefetch [W8] alone that traps leaves the registers it does not name: W9 to W13 and
the data registers that are neither its multiplicands W4 and W5 nor its destination W4. -/
theorem test_macTrap_named :
    (after (.mac 0 .a 0 1 1 4 2)
      (start [(8, 0x2800#16), (6, 6), (7, 7), (9, 9), (10, 10), (11, 11), (12, 12), (13, 13)] [])).map
      (fun t => (t.fault, [t.w 6, t.w 7, t.w 9, t.w 10, t.w 11, t.w 12, t.w 13])) =
      some (some ⟨0x2800#16, .read⟩, [6, 7, 9, 10, 11, 12, 13]) := by decide

/-- 20_memory R74: a device whose blocks do not adjoin, a word between them, and one with something there. -/
theorem test_gap :
    [0x0FFE#16, 0x1000#16, 0x1800#16, 0x2000#16].map
      (region (familyParams ⟨0x0FFE#16, 0x1800#16, 0x1FFE#16, []⟩)) = [.x, .unimpl, .y, .unimpl] ∧
    region (familyParams ⟨0x0FFE#16, 0x1800#16, 0x1FFE#16, [⟨0x1000#16, 0x1000#16⟩]⟩) 0x1001#16 = .x := by
  decide

/-- A program of P1's first statement, run as the first step after reset. -/
theorem test_step :
    (stepped (State.reset.withFetchWord 24 0x28FF40)).map (fun t => (t.w 0, t.pc)) =
      some (0x8FF4#16, 1) := by decide

/-! ### Witnesses: states and operands that meet the statements' hypotheses -/

/-- A state with one statement. -/
def one (w : InsnWord) : State := { State.reset with prog := [w] }

theorem witness_decodeOfEncode :
    (Instr.mov .byte (.idx 15 3) (.idx 2 3)).wellFormed = true ∧
      (Instr.movLoad 0xFFFE#16 15).wellFormed = true ∧
      (Instr.movStoreOff .byte 1 2 (-512)).wellFormed = true := by decide

theorem witness_decodedIsWellFormed :
    decode 0xF9FFFE#24 = .ok (.pop 0xFFFE#16) ∧
      decode 0x97C0FF#24 = .ok (.movLoadOff .byte 15 (-57) 1) := by
  constructor <;> rfl

theorem witness_noWordFitsTwoRows :
    (rows[(10 : Fin 14)]).fits 0x064000#24 = true ∧ (rows[(0 : Fin 14)]).fits 0x200000#24 = true := by
  decide

theorem witness_stepRuns :
    (one 0x209011#24).fault = none ∧ (one 0x209011#24).fetch = some 0x209011#24 ∧
      decode 0x209011#24 = .ok (.movLit 0x0901#16 1) := ⟨rfl, rfl, rfl⟩

theorem witness_statementIndex :
    State.reset.fault = none ∧ State.reset.rep = 0 ∧
      ({ State.reset with rep := 16383 } : State).rep = 16382 + 1 ∧
      ({ State.reset with fault := some ⟨0xFFFF#16, .read⟩ } : State).fault =
        some ⟨0xFFFF#16, .read⟩ := ⟨rfl, rfl, rfl, rfl⟩

theorem witness_runEnds : State.reset.fault = none ∧ State.reset.prog.length ≤ State.reset.pc := by
  decide

/-- A count of 2 before NOP: the hypotheses, the property of the statement included, and the run. -/
theorem witness_repeated :
    ({ one 0x000000#24 with rep := 2 } : State).fetch = some 0x000000#24 ∧
      decode 0x000000#24 = .ok .nop ∧ (∀ lit, Instr.nop ≠ .repeatLit lit) ∧
      (∀ u : State, ∃ t, exec .nop u = .next t ∧ t.fault = u.fault ∧ t.rep = u.rep ∧
        t.pc = u.pc ∧ t.prog = u.prog) :=
  ⟨rfl, rfl, by simp, fun u => ⟨u.closeWindow, rfl, rfl, rfl, rfl, rfl⟩⟩

theorem witness_repeated_run :
    (∃ u, Host.Core.run Sys2Proof.core 2 { one 0x000000#24 with rep := 2 } = .next u ∧
        u.fault = none ∧ u.pc = 0 ∧ u.rep = 0) ∧
      ∃ u, Host.Core.run Sys2Proof.core 3 { one 0x000000#24 with rep := 2 } = .next u ∧
        u.fault = none ∧ u.pc = 1 ∧ u.rep = 0 :=
  ⟨⟨_, rfl, rfl, rfl, rfl⟩, ⟨_, rfl, rfl, rfl, rfl⟩⟩

theorem reset_inv : Inv State.reset := by
  refine ⟨by simp [State.reset, Memory.wf], fun c hc => ?_, fun r => ?_, by decide, by decide⟩
  · cases hc
  · cases r <;> decide

/-- The invariant and a step that answers a next state, together. -/
theorem witness_stepKeeps :
    Inv (one 0x209011#24) ∧ ∃ t, step (one 0x209011#24) = .next t := by
  obtain ⟨h1, h2, h3, h4, h5⟩ := reset_inv
  exact ⟨⟨h1, h2, fun r => by cases r <;> rfl, h4, h5⟩, _, rfl⟩

/-- The first and the last RAM word and byte of the test device. -/
theorem witness_ram :
    misaligned 0x0800#16 = false ∧ inRam td 0x0800#16 ∧ misaligned 0x27FE#16 = false ∧
      inRam td 0x27FE#16 ∧ inRam td 0x27FF#16 :=
  ⟨by decide, .inl (by decide), by decide, .inr (by decide), .inr (by decide)⟩

/-- The map of the test device meets the form of 00_scope R8, and one with memory above its RAM does. -/
theorem witness_mapOk :
    td.par.mapOk = true ∧
      (familyParams ⟨0x0FFE#16, 0x1800#16, 0x1FFE#16, [⟨0x8000#16, 0xFFFE#16⟩]⟩).mapOk = true := by decide

theorem witness_wrongSpace :
    misaligned 0x1800#16 = false ∧ region td.par 0x1800#16 = .y ∧
      region td.par 0x17FE#16 = .x ∧ region td.par 0x07FE#16 = .sfr := by decide

theorem witness_unimplemented :
    region td.par 0x2800#16 = .unimpl ∧ region td.par 0xFFFF#16 = .unimpl := by
  decide

theorem witness_misaligned :
    misaligned 0x0901#16 = true ∧ inRam v1 0x0901#16 ∧
      v1.wordAt (wordAddr 0x0901#16) = some 0x1234#16 :=
  ⟨by decide, .inl (by decide), by decide⟩

theorem witness_addrsOk : State.reset.par.addrsOk = true := by decide

/-- Each of the three outcomes of the modulo correction. -/
theorem witness_modAdj :
    modAdj 0x1100#16 0x1163#16 0x1160#16 2 = some 0x1162#16 ∧
      modAdj 0x1100#16 0x1163#16 0x1162#16 2 = some 0x1100#16 ∧
      modAdj 0x119C#16 0x11FF#16 0x119C#16 (-2) = some 0x11FE#16 := by decide

/-- The largest buffer, and one stepped by its whole length downward from its end and upward from its
start. -/
theorem witness_powerOfTwo :
    ((0xFFFF#16).toNat + 1 = (0#16).toNat + 2 ^ 16 ∧ (0#16).toNat % 2 ^ 16 = 0) ∧
      ((0x11FF#16).toNat + 1 = (0x11E0#16).toNat + 2 ^ 5 ∧ (0x11E0#16).toNat % 2 ^ 5 = 0 ∧
        (0x11E0#16).toNat ≤ (0x11FF#16).toNat ∧ (0 : Int) ≤ (0x11FF#16).toNat + (-(2 ^ 5 : Int)) ∧
        (0x11E0#16).toNat + (2 ^ 5 : Int) ≤ 0xFFFF) := by decide

theorem witness_pivot : (0 < 15 ∧ (0 = 0 ∨ 0 + 2 ≤ 0)) ∧ (14 < 15 ∧ (16 = 0 ∨ 14 + 2 ≤ 16)) := by
  decide

theorem witness_reversedOrder :
    (0x0A00#16).toNat % 2 ^ (3 + 2) = 0 ∧ 15 < 2 ^ (3 + 1) ∧ (0#16).toNat % 2 ^ (14 + 2) = 0 ∧
      bitReversal 4 1 = 8 ∧ bitReversal 4 13 = 11 := by decide

/-- A reading path, a byte write, a decrementing mode, the Y path. -/
theorem witness_bitReversalActs :
    xModActive State.reset 0 = false ∧ yReserved State.reset = false ∧
      yModActive State.reset 0 = false ∧ (Path.xr ≠ .xw) ∧ (Path.y ≠ .xw) ∧
      (Mode.ptr .postDec).increments = false := by decide

/-- XMODEN, BREN, XWM = BWM = 1 (43_bit_reversed_addressing R198, V5.30). -/
def both : State :=
  ((((start [(1, 0x0A1E#16), (2, 0x1111#16)] [(0x0A1E#16, 0x2222#16)]).setCtrl .modcon
    0x81F1#16).setCtrl .xbrev 0x8008#16).setCtrl .xmodsrt 0x0A00#16).setCtrl .xmodend 0x0A1F#16

theorem witness_precedence :
    xModActive both 1 = true ∧ bitRevActive both 1 = true ∧ both.xb = BitVec.ofNat 15 (2 ^ 3) ∧
      modAdj both.xmodsrt both.xmodend (both.w 1) (PtrMode.postInc.delta Size.word.bytes) =
        some 0x0A00#16 ∧
      modAdj both.xmodsrt both.xmodend (both.w 1) (PtrMode.preDec.delta Size.byte.bytes) =
        some 0x0A1D#16 := by decide

theorem witness_bitReversedStore :
    bitRevActive both 1 = true ∧ (2 : Reg) ≠ 1 ∧ both.xb = BitVec.ofNat 15 (2 ^ 3) ∧
      (∃ t, storesWord both.closeWindow (both.w 1) (both.w 2) t) ∧
      ∃ t, storesWord both.closeWindow (revAdd (both.w 1) both.xb) (both.w 2) t :=
  ⟨by decide, by decide, by decide, ⟨_, .inl ⟨by decide, .inl (by decide), rfl⟩⟩,
    ⟨_, .inl ⟨by decide, .inl (by decide), rfl⟩⟩⟩

/-- W1 at a control register in each way the statements use it: MODCON and its high byte, XMODEND. -/
def controls : State :=
  start [(1, 0x0046#16), (2, 0x0047#16), (3, 0x004C#16), (4, 0x8FF4#16), (5, 0x0040#16), (6, 6)] []

/-- V6.18 and R258 (a): loads from and stores to a control register through a pointer, word and byte. -/
theorem witness_controlRegisterPointers :
    (hazardHits controls [1] = false ∧ plainRead controls 1 ∧ plainWrite controls 1 .word .ind) ∧
      deliversWord controls (PtrMode.ind.plainEa (controls.w 1) 2#16) 0#16 ∧
      deliversWord controls (PtrMode.preDec.plainEa (controls.w 3) 2#16) 1#16 ∧
      deliversByte controls (controls.w 1) 0#8 ∧ deliversByte controls (controls.w 2) 0#8 ∧
      (∃ t, storesWord controls.closeWindow (controls.w 1) (controls.w 4) t ∧
        t.modcon = 0x8FF4#16 ∧ t.haz.length = 1) ∧
      (∃ t, storesByte controls.closeWindow (controls.w 1) 0xF4#8 t ∧ t.modcon = 0x00F4#16) ∧
      (∃ t, storesByte controls.closeWindow (controls.w 2) 0x8F#8 t ∧ t.modcon = 0x8F00#16) ∧
      deliversWord controls (controls.w 5 + controls.w 6) 0#16 :=
  ⟨⟨by decide, (by decide : xModActive controls 1 = false), ⟨by decide, .inl (by decide)⟩⟩,
    .inr ⟨.modcon, by decide, by decide, by decide⟩, .inr ⟨.xmodend, by decide, by decide, by decide⟩,
    .inr ⟨.modcon, by decide, .inl ⟨by decide, by decide⟩⟩,
    .inr ⟨.modcon, by decide, .inr ⟨by decide, by decide⟩⟩,
    ⟨_, .inr ⟨.modcon, by decide, by decide, rfl⟩, by decide, by decide⟩,
    ⟨_, .inr ⟨.modcon, by decide, .inl ⟨by decide, rfl⟩⟩, by decide⟩,
    ⟨_, .inr ⟨.modcon, by decide, .inr ⟨by decide, rfl⟩⟩, by decide⟩,
    .inr ⟨.modcon, by decide, by decide, by decide⟩⟩

theorem witness_hazard :
    hazardHits (State.reset.writeCtrl .modcon 0#16) [1] = true ∧
      hazardHits State.reset [1] = false := by decide

theorem witness_holdsWord :
    holdsWord v1 0x0900#16 0x1234#16 ∧ holdsWord v1 0x27FE#16 0xA5A5#16 ∧
      holdsByte v1 0x0901#16 0x12#8 :=
  ⟨⟨by decide, .inl (by decide), by decide⟩, ⟨by decide, .inr (by decide), by decide⟩,
    ⟨.inl (by decide), by decide⟩⟩

/-- W1 and W3 point at the word before and after 0x0900 and at it; W0 at RAM to store in. -/
def pointers : State :=
  start [(0, 0x0A00#16), (1, 0x0900#16), (2, 0x0902#16), (3, 0x08FE#16), (4, 0x0010#16),
    (5, 0x08F0#16), (6, 0x0901#16)] [(0x0900#16, 0x1234#16)]

/-- The five modes' addresses, word and byte, under plain addressing. -/
theorem witness_pointerLoads :
    hazardHits pointers [1] = false ∧ plainRead pointers 1 ∧ (1 : Reg) ≠ 7 ∧
      PtrMode.ind.plainEa (pointers.w 1) 2#16 = 0x0900#16 ∧
      PtrMode.postDec.plainEa (pointers.w 1) 2#16 = 0x0900#16 ∧
      PtrMode.postInc.plainEa (pointers.w 1) 1#16 = 0x0900#16 ∧
      PtrMode.preDec.plainEa (pointers.w 2) 2#16 = 0x0900#16 ∧
      PtrMode.preInc.plainEa (pointers.w 3) 2#16 = 0x0900#16 ∧
      PtrMode.preDec.plainEa (pointers.w 6) 1#16 = 0x0900#16 ∧
      holdsWord pointers 0x0900#16 0x1234#16 ∧ holdsByte pointers 0x0900#16 0x34#8 :=
  ⟨by decide, (by decide : xModActive pointers 1 = false), by decide, by decide, by decide,
    by decide, by decide, by decide, by decide, ⟨by decide, .inl (by decide), by decide⟩,
    ⟨.inl (by decide), by decide⟩⟩

theorem witness_pointerStores :
    plainWrite pointers 0 .word .preDec ∧
      (∃ t, storesWord pointers.closeWindow (pointers.w 0) (pointers.w 1) t) ∧
      (∃ t, storesByte pointers.closeWindow (pointers.w 0) ((pointers.w 1).extractLsb' 0 8) t) ∧
      (∃ t, storesWord pointers.closeWindow (PtrMode.postInc.plainEa (pointers.w 0) 2#16)
        (Config.freeWord .srcValue pointers.draws) t) ∧
      ∃ t, storesByte pointers.closeWindow (PtrMode.preDec.plainEa (pointers.w 0) 1#16)
        ((Config.freeWord .srcValue pointers.draws).extractLsb' 0 8) t :=
  ⟨⟨by decide, .inl (by decide)⟩, ⟨_, .inl ⟨by decide, .inl (by decide), rfl⟩⟩,
    ⟨_, .inl ⟨.inl (by decide), rfl⟩⟩, ⟨_, .inl ⟨by decide, .inl (by decide), rfl⟩⟩,
    ⟨_, .inl ⟨.inl (by decide), rfl⟩⟩⟩

/-- `[W1++]` to `[--W0]` in words; in bytes from W5 + W4 to W0 + W4. -/
theorem witness_memoryToMemory :
    let src : Operand := .ptr .postInc 1
    let dst : Operand := .ptr .preDec 0
    (src.shares dst = false ∧ dst.shares src = false ∧ hazardHits pointers src.readPointers = false ∧
      operandStep pointers .xr .word src 0x0900#16 [(1, 0x0902#16)] ∧
      operandStep pointers .xw .word dst 0x09FE#16 [(0, 0x09FE#16)] ∧
      delivers pointers .word 0x0900#16 0x1234#16 ∧
      ∃ t, stores pointers.closeWindow .word 0x09FE#16 0x1234#16 t) ∧
    (operandStep pointers .xr .byte (.idx 5 4) 0x0900#16 [] ∧
      operandStep pointers .xw .byte (.idx 0 4) 0x0A10#16 [] ∧ delivers pointers .byte 0x0900#16 0x1234#16 ∧
      ∃ t, stores pointers.closeWindow .byte 0x0A10#16 0x1234#16 t) :=
  ⟨⟨by decide, by decide, by decide,
      ⟨_, ⟨.inr ⟨(fun h => nomatch h.1), .inl ⟨by decide, by decide⟩⟩, by decide⟩, rfl⟩,
      ⟨_, ⟨.inr ⟨fun h => absurd h.2.1 (by decide), .inl ⟨by decide, by decide⟩⟩, by decide⟩, rfl⟩,
      .inl ⟨by decide, .inl (by decide), by decide⟩, _, .inl ⟨by decide, .inl (by decide), rfl⟩⟩,
    ⟨fun h => absurd h (by decide), .inr ⟨(fun h => nomatch h.1), .inl ⟨by decide, by decide⟩⟩, rfl⟩,
    ⟨fun h => absurd h (by decide), .inr ⟨fun h => absurd h.2.1 (by decide), .inl ⟨by decide, by decide⟩⟩, rfl⟩,
    .inl ⟨.inl (by decide), by decide⟩, _, .inl ⟨.inl (by decide), rfl⟩⟩

theorem witness_indexed :
    hazardHits pointers [5, 4] = false ∧ xModActive pointers 5 = false ∧
      xModActive pointers 4 = false ∧
      holdsWord pointers (pointers.w 5 + pointers.w 4) 0x1234#16 :=
  ⟨by decide, by decide, by decide, ⟨by decide, .inl (by decide), by decide⟩⟩

/-- W5 + W4 read at 0x0900, W0 + W4 written at 0x0A10, word and byte; W0 and W1 beside an indexed operand. -/
theorem witness_indexedMoves :
    delivers pointers .word (pointers.w 5 + pointers.w 4) 0x1234#16 ∧
      delivers pointers .byte (pointers.w 5 + pointers.w 4) 0x1234#16 ∧ plainWrite pointers 0 .byte .preDec ∧
      (∃ t, stores pointers.closeWindow .word (pointers.w 0 + pointers.w 4) 0x1234#16 t) ∧
      (∃ t, stores pointers.closeWindow .byte (pointers.w 0 + pointers.w 4) 0x1234#16 t) ∧
      (0 : Reg) ∉ [(5 : Reg), 4] ∧ (1 : Reg) ∉ [(0 : Reg), 4] ∧ hazardHits pointers [1] = false ∧
      plainRead pointers 1 ∧ delivers pointers .word (PtrMode.postInc.plainEa (pointers.w 1) 2#16) 0x1234#16 ∧
      ∃ t, stores pointers.closeWindow .byte (PtrMode.preDec.plainEa (pointers.w 0) 1#16) 0x1234#16 t :=
  ⟨.inl ⟨by decide, .inl (by decide), by decide⟩, .inl ⟨.inl (by decide), by decide⟩,
    ⟨by decide, .inl (by decide)⟩, ⟨_, .inl ⟨by decide, .inl (by decide), rfl⟩⟩,
    ⟨_, .inl ⟨.inl (by decide), rfl⟩⟩, by decide, by decide, by decide, (by decide : xModActive pointers 1 = false),
    .inl ⟨by decide, .inl (by decide), by decide⟩, ⟨_, .inl ⟨.inl (by decide), rfl⟩⟩⟩

/-- P2 at its move: W0 reads under plain addressing, W1 is bit-reversed; W2 + W3 is the same address. -/
def reorder : State :=
  ((start [(0, 0x0902#16), (1, 0x0A10#16), (2, 0x0900#16), (3, 2)]
    [(0x0902#16, 0x1001#16)]).setCtrl .xbrev 0x8008#16).setCtrl .modcon 0x01FF#16

set_option maxRecDepth 4000 in
theorem witness_bitReversedFromMemory :
    let s := reorder
    bitRevActive s 1 = true ∧ s.xb = BitVec.ofNat 15 (2 ^ 3) ∧ hazardHits s [0] = false ∧ plainRead s 0 ∧
      deliversWord s (PtrMode.postInc.plainEa (s.w 0) 2#16) 0x1001#16 ∧
      (∃ t, storesWord s.closeWindow (PtrMode.postInc.usedEa (s.w 1) (revAdd (s.w 1) s.xb)) 0x1001#16 t) ∧
      (∃ t, storesWord s.closeWindow (PtrMode.preInc.usedEa (s.w 1) (revAdd (s.w 1) s.xb))
        (Config.freeWord .srcValue s.draws) t) ∧
      hazardHits s [2, 3] = false ∧ xModActive s 2 = false ∧ xModActive s 3 = false ∧
      deliversWord s (s.w 2 + s.w 3) 0x1001#16 :=
  ⟨by decide, by decide, by decide, (by decide : xModActive reorder 0 = false),
    .inl ⟨by decide, .inl (by decide), by decide⟩, ⟨_, .inl ⟨by decide, .inl (by decide), rfl⟩⟩, ⟨_,
    .inl ⟨by decide, .inl (by decide), rfl⟩⟩, by decide,
    by decide, by decide, .inl ⟨by decide, .inl (by decide), by decide⟩⟩

/-- V5.23 to V5.25 and the other modes: bit-reversed addressing is active for W1 and does not function. -/
theorem witness_notReversed :
    let s := reorder
    (xModActive s 1 = false ∧ bitRevActive s 1 = true) ∧
      (plainWrite s 1 .byte .postInc ∧
        ∃ t, storesByte s.closeWindow (PtrMode.postInc.plainEa (s.w 1) 1#16) ((s.w 0).extractLsb' 0 8) t) ∧
      (plainWrite s 1 .word .postDec ∧ plainWrite s 1 .word .preDec ∧ plainWrite s 1 .word .ind ∧
        ∃ t, storesWord s.closeWindow (PtrMode.preDec.plainEa (s.w 1) 2#16) (s.w 0) t) ∧
      (∃ t, stores s.closeWindow .word (s.w 1 + s.w 3) (s.w 0) t) ∧
      ∃ t, storesWord s.closeWindow (s.w 1 + BitVec.ofInt 16 (-4)) (s.w 0) t :=
  ⟨⟨by decide, by decide⟩,
    ⟨⟨by decide, .inr (.inl rfl)⟩, _, .inl ⟨.inl (by decide), rfl⟩⟩,
    ⟨⟨by decide, .inr (.inr (by decide))⟩, ⟨by decide, .inr (.inr (by decide))⟩,
      ⟨by decide, .inr (.inr (by decide))⟩, _, .inl ⟨by decide, .inl (by decide), rfl⟩⟩,
    ⟨_, .inl ⟨by decide, .inl (by decide), rfl⟩⟩, _, .inl ⟨by decide, .inl (by decide), rfl⟩⟩

theorem witness_literalOffset :
    hazardHits pointers [2] = false ∧ plainRead pointers 2 ∧
      holdsWord pointers (pointers.w 2 + BitVec.ofInt 16 (-2)) 0x1234#16 ∧
      holdsByte pointers (pointers.w 3 + BitVec.ofInt 16 3) 0x12#8 :=
  ⟨by decide, (by decide : xModActive pointers 2 = false),
    ⟨by decide, .inl (by decide), by decide⟩, ⟨.inl (by decide), by decide⟩⟩

/-- Buffer A of V4 at its last word and buffer C at its first, W4 selected: a wrap in each direction. -/
def bufferA : State :=
  (((start [(4, 0x1162#16)] [(0x1162#16, 1#16), (0x1100#16, 2#16)]).setCtrl .modcon 0x8FF4#16).setCtrl
    .xmodsrt 0x1100#16).setCtrl .xmodend 0x1163#16

def bufferC : State :=
  (((start [(4, 0x119C#16)] [(0x119C#16, 1#16)]).setCtrl .modcon 0x8FF4#16).setCtrl .xmodsrt
    0x119C#16).setCtrl .xmodend 0x11FF#16

/-- V4.31 and V4.32: up past the end by a word, used before and after the modification; the loads and the
stores through it. -/
theorem witness_moduloUp :
    hazardHits bufferA [4] = false ∧ xModActive bufferA 4 = true ∧ bitRevActive bufferA 4 = false ∧
      moduloStep bufferA.xmodsrt bufferA.xmodend (bufferA.w 4) (PtrMode.postInc.delta 2) 0x1100#16 ∧
      deliversWord bufferA (PtrMode.postInc.usedEa (bufferA.w 4) 0x1100#16) 1#16 ∧
      deliversWord bufferA (PtrMode.preInc.usedEa (bufferA.w 4) 0x1100#16) 2#16 ∧
      (∃ t, storesWord bufferA.closeWindow (PtrMode.postInc.usedEa (bufferA.w 4) 0x1100#16)
        (bufferA.w 0) t) ∧
      (∃ t, storesWord bufferA.closeWindow (PtrMode.preInc.usedEa (bufferA.w 4) 0x1100#16)
        (bufferA.w 0) t) :=
  ⟨by decide, by decide, by decide, ⟨by decide, by decide, by decide, by decide, by decide, 7,
    ⟨by decide, by decide⟩, .inl (by decide)⟩, .inl ⟨by decide, .inl (by decide), by decide⟩,
    .inl ⟨by decide, .inl (by decide), by decide⟩, ⟨_, .inl ⟨by decide, .inl (by decide), rfl⟩⟩,
    ⟨_, .inl ⟨by decide, .inl (by decide), rfl⟩⟩⟩

/-- V4.37: up past the end by a byte, from the last byte of buffer A. -/
theorem witness_moduloByte :
    let s := bufferA.setW 4 0x1163#16
    hazardHits s [4] = false ∧ xModActive s 4 = true ∧ bitRevActive s 4 = false ∧
      moduloStep s.xmodsrt s.xmodend (s.w 4) (PtrMode.postInc.delta 1) 0x1100#16 ∧
      deliversByte s (PtrMode.postInc.usedEa (s.w 4) 0x1100#16) 0#8 ∧
      ∃ t, storesByte s.closeWindow (PtrMode.postInc.usedEa (s.w 4) 0x1100#16)
        ((s.w 0).extractLsb' 0 8) t :=
  ⟨by decide, by decide, by decide, ⟨by decide, by decide, by decide, by decide, by decide, 7,
    ⟨by decide, by decide⟩, .inl (by decide)⟩, .inl ⟨.inl (by decide), by decide⟩,
    ⟨_, .inl ⟨.inl (by decide), rfl⟩⟩⟩

/-- Down past the start, and no step at all from either end. -/
theorem witness_moduloDown :
    hazardHits bufferC [4] = false ∧ xModActive bufferC 4 = true ∧
      moduloStep bufferC.xmodsrt bufferC.xmodend (bufferC.w 4) (PtrMode.postDec.delta 2) 0x11FE#16 ∧
      moduloStep bufferC.xmodsrt bufferC.xmodend 0x11FF#16 (PtrMode.ind.delta 2) 0x11FF#16 ∧
      deliversWord bufferC (PtrMode.postDec.usedEa (bufferC.w 4) 0x11FE#16) 1#16 :=
  ⟨by decide, by decide, ⟨by decide, by decide, by decide, by decide, by decide, 7,
    ⟨by decide, by decide⟩, .inr (by decide)⟩, ⟨by decide, by decide, by decide, by decide, by decide, 7,
    ⟨by decide, by decide⟩, .inr (by decide)⟩, .inl ⟨by decide, .inl (by decide), by decide⟩⟩

/-- V4.40: W10 at the last word of the Y buffer of R177; W8 at the last word of an X buffer. -/
def bufferY : State :=
  (((start [(10, 0x181E#16)] [(0x181E#16, 3#16)]).setCtrl .modcon 0x4FAF#16).setCtrl .ymodsrt
    0x1800#16).setCtrl .ymodend 0x181F#16

def bufferX8 : State :=
  (((start [(8, 0x1162#16)] [(0x1162#16, 1#16)]).setCtrl .modcon 0x8FF8#16).setCtrl .xmodsrt
    0x1100#16).setCtrl .xmodend 0x1163#16

/-- Codes 1 (offset 2) and 4 (none), no write back. -/
theorem witness_macModulo :
    (bufferY.par.xOps[(4#4).toFin] = none ∧ bufferY.par.yOps[(1#4).toFin] = some ⟨false, some 2⟩ ∧
      bufferY.par.writeBack[(2#2).toFin] = none ∧ bufferY.par.yDest[(1#2).toFin] ≠ 10 ∧
      hazardHits bufferY [10] = false ∧ yModActive bufferY 10 = true ∧
      moduloStep bufferY.ymodsrt bufferY.ymodend (bufferY.w 10) 2 0x1800#16 ∧
      dspYReads bufferY (bufferY.w 10) 3#16) ∧
    (bufferX8.par.xOps[(1#4).toFin] = some ⟨false, some 2⟩ ∧ bufferX8.par.yOps[(4#4).toFin] = none ∧
      bufferX8.par.writeBack[(2#2).toFin] = none ∧ bufferX8.par.xDest[(0#2).toFin] ≠ 8 ∧
      hazardHits bufferX8 [8] = false ∧ xModActive bufferX8 8 = true ∧
      moduloStep bufferX8.xmodsrt bufferX8.xmodend (bufferX8.w 8) 2 0x1100#16 ∧
      dspXReads bufferX8 (bufferX8.w 8) 1#16) :=
  ⟨⟨by decide, by decide, by decide, by decide, by decide, by decide,
    ⟨by decide, by decide, by decide, by decide, by decide, 5, ⟨by decide, by decide⟩,
      .inl (by decide)⟩, ⟨by decide, .inl ⟨by decide, by decide⟩⟩⟩,
    ⟨by decide, by decide, by decide, by decide, by decide, by decide,
      ⟨by decide, by decide, by decide, by decide, by decide, 7, ⟨by decide, by decide⟩,
        .inl (by decide)⟩, .inl ⟨by decide, .inl ⟨by decide, by decide⟩⟩⟩⟩

/-- V4.33: the literal offset 0x20 past the end of buffer A, the same offset as an index in W5, word and byte,
loads and stores. -/
theorem witness_moduloOffsets :
    let s := ((bufferA.setW 4 0x1150#16).setW 5 0x20#16).setWord 0x110C#16 0x77#16
    hazardHits s [4, 5] = false ∧ hazardHits s [4] = false ∧ xModActive s 4 = true ∧
      bitRevActive s 4 = false ∧ (s.w 5).toInt = 0x20 ∧
      moduloStep s.xmodsrt s.xmodend (s.w 4) 0x20 0x110C#16 ∧ delivers s .word 0x110C#16 0x77#16 ∧
      delivers s .byte 0x110C#16 0x77#16 ∧ (∃ t, stores s.closeWindow .word 0x110C#16 (s.w 0) t) ∧
      ∃ t, stores s.closeWindow .byte 0x110C#16 (s.w 0) t :=
  ⟨by decide, by decide, by decide, by decide, by decide,
    ⟨by decide, by decide, by decide, by decide, by decide, 7, ⟨by decide, by decide⟩, .inl (by decide)⟩,
    .inl ⟨by decide, .inl (by decide), by decide⟩, .inl ⟨.inl (by decide), by decide⟩,
    ⟨_, .inl ⟨by decide, .inl (by decide), rfl⟩⟩, ⟨_, .inl ⟨.inl (by decide), rfl⟩⟩⟩

/-- V5.36: `[W1]` with both selections, word and byte, and an offset of 0, literal or in W3. -/
theorem witness_moduloNoOffset :
    let s := both.setW 1 0x0A02#16
    (xModActive s 1 = true ∧ bitRevActive s 1 = true ∧ (s.w 3).toInt = 0) ∧
      moduloStep s.xmodsrt s.xmodend (s.w 1) (PtrMode.ind.delta 2) 0x0A02#16 ∧
      moduloStep s.xmodsrt s.xmodend (s.w 1) 0 0x0A02#16 ∧
      (∃ t, stores s.closeWindow .word (PtrMode.ind.usedEa (s.w 1) 0x0A02#16) (s.w 2) t) ∧
      ∃ t, stores s.closeWindow .byte 0x0A02#16 (s.w 2) t :=
  have h : moduloStep 0x0A00#16 0x0A1F#16 0x0A02#16 0 0x0A02#16 :=
    ⟨by decide, by decide, by decide, by decide, by decide, 5, ⟨by decide, by decide⟩, .inl (by decide)⟩
  ⟨by decide, h, h, ⟨_, .inl ⟨by decide, .inl (by decide), rfl⟩⟩, _, .inl ⟨.inl (by decide), rfl⟩⟩

/-- Moves between memories through buffer A: `[W4++]` to `[W0]`, `[W5]` to `[++W4]`, W4 + W6 to `[W4]`. -/
theorem witness_moduloMoves :
    let s := ((bufferA.setW 0 0x0A00#16).setW 5 0x1100#16).setW 6 2#16
    ((Operand.ptr .postInc 4).shares (.ptr .ind 0) = false ∧ hazardHits s [4] = false ∧
      operandStep s .xr .word (.ptr .postInc 4) 0x1162#16 [(4, 0x1100#16)] ∧
      operandStep s .xw .word (.ptr .ind 0) 0x0A00#16 [] ∧ delivers s .word 0x1162#16 1#16 ∧
      ∃ t, stores s.closeWindow .word 0x0A00#16 1#16 t) ∧
    ((Operand.ptr .preInc 4).shares (.ptr .ind 5) = false ∧ hazardHits s [5] = false ∧
      operandStep s .xr .word (.ptr .ind 5) 0x1100#16 [] ∧
      operandStep s .xw .word (.ptr .preInc 4) 0x1100#16 [(4, 0x1100#16)] ∧
      delivers s .word 0x1100#16 2#16 ∧ ∃ t, stores s.closeWindow .word 0x1100#16 2#16 t) ∧
    (hazardHits s [4, 6] = false ∧ operandStep s .xr .word (.idx 4 6) 0x1100#16 [] ∧
      operandStep s .xw .word (.ptr .ind 4) 0x1162#16 [] ∧
      ∃ t, stores s.closeWindow .word 0x1162#16 2#16 t) :=
  have up : moduloStep 0x1100#16 0x1163#16 0x1162#16 2 0x1100#16 :=
    ⟨by decide, by decide, by decide, by decide, by decide, 7, ⟨by decide, by decide⟩, .inl (by decide)⟩
  have stay : moduloStep 0x1100#16 0x1163#16 0x1162#16 0 0x1162#16 :=
    ⟨by decide, by decide, by decide, by decide, by decide, 7, ⟨by decide, by decide⟩, .inl (by decide)⟩
  ⟨⟨by decide, by decide,
      ⟨_, ⟨.inr ⟨(fun h => nomatch h.1), .inr ⟨by decide, .inl rfl, up⟩⟩, by decide⟩, rfl⟩,
      ⟨_, ⟨.inr ⟨fun h => absurd h.2.1 (by decide), .inl ⟨by decide, rfl⟩⟩, by decide⟩, rfl⟩,
      .inl ⟨by decide, .inl (by decide), by decide⟩, _, .inl ⟨by decide, .inl (by decide), rfl⟩⟩,
    ⟨by decide, by decide,
      ⟨_, ⟨.inr ⟨(fun h => nomatch h.1), .inl ⟨by decide, rfl⟩⟩, by decide⟩, rfl⟩,
      ⟨_, ⟨.inr ⟨fun h => absurd h.2.1 (by decide),
        .inr ⟨by decide, .inr (.inl (by decide)), up⟩⟩, by decide⟩, rfl⟩,
      .inl ⟨by decide, .inl (by decide), by decide⟩, _, .inl ⟨by decide, .inl (by decide), rfl⟩⟩,
    by decide, ⟨fun h => absurd h (by decide), .inr ⟨(fun h => nomatch h.1), .inr ⟨by decide, .inl rfl, up⟩⟩, rfl⟩,
    ⟨_, ⟨.inr ⟨fun h => absurd h.2.1 (by decide),
      .inr ⟨by decide, .inr (.inl (by decide)), stay⟩⟩, by decide⟩, rfl⟩,
    _, .inl ⟨by decide, .inl (by decide), rfl⟩⟩

set_option maxRecDepth 4000 in
/-- A modulo source, `[W4++]`, beside a bit-reversed destination, `[W1++]`. -/
theorem witness_moduloToReversed :
    let s := ((bufferA.setCtrl .modcon 0x81F4#16).setCtrl .xbrev 0x8008#16).setW 1 0x0A10#16
    (bitRevActive s 1 = true ∧ s.xb = BitVec.ofNat 15 (2 ^ 3) ∧
      (1 : Reg) ∉ (Operand.ptr .postInc 4).regs ∧ hazardHits s [4] = false ∧ xModActive s 4 = true) ∧
      operandStep s .xr .word (.ptr .postInc 4) 0x1162#16 [(4, 0x1100#16)] ∧
      operandStep s .xw .word (.ptr .postInc 1) 0x0A10#16 [(1, 0x0A08#16)] ∧
      deliversWord s 0x1162#16 1#16 ∧
      ∃ t, storesWord s.closeWindow (PtrMode.postInc.usedEa (s.w 1) (revAdd (s.w 1) s.xb)) 1#16 t :=
  ⟨by decide,
    ⟨_, ⟨.inr ⟨(fun h => nomatch h.1), .inr ⟨by decide, .inl rfl, by decide, by decide, by decide, by decide,
      by decide, 7, ⟨by decide, by decide⟩, .inl (by decide)⟩⟩, by decide⟩, rfl⟩,
    ⟨_, ⟨.inl ⟨⟨rfl, by decide, rfl, .inl rfl⟩, ⟨3, by decide, by decide⟩, by decide⟩, by decide⟩, rfl⟩,
    .inl ⟨by decide, .inl (by decide), by decide⟩, _, .inl ⟨by decide, .inl (by decide), rfl⟩⟩

/-- R174: W4 selected, one byte past the buffer and one word below it, and no hazard. -/
theorem witness_outsideBuffer :
    (xModActive (bufferA.setW 4 0x1164#16) 4 = true ∧
      ¬ xPointerInside (bufferA.setW 4 0x1164#16) 4 ∧
      hazardHits (bufferA.setW 4 0x1164#16) [4] = false) ∧
      ¬ xPointerInside (bufferA.setW 4 0x10FE#16) 4 ∧ xPointerInside bufferA 4 := by
  refine ⟨⟨by decide, fun h => ?_, by decide⟩, fun h => ?_, fun _ => by decide⟩
  · exact absurd (h (by decide)).2 (by decide)
  · exact absurd (h (by decide)).1 (by decide)

/-- V5.28, V5.34, V5.35, R174 and R148 on the `XW` path: an unlisted XB, both selections with W1 in the buffer and an
offset, both with W1 outside, and the index alone selected. -/
theorem witness_openWrites :
    (let s := reorder.setCtrl .xbrev 0x8003#16
     bitRevActive s 1 = true ∧ ¬ listedModifier s) ∧
    (let s := both.setW 1 0x0A02#16
     xModActive s 1 = true ∧ bitRevActive s 1 = true ∧ xPointerInside s 1 ∧ s.w 2 ≠ 0#16) ∧
    (let s := both.setW 1 0x0A20#16
     xModActive s 1 = true ∧ bitRevActive s 1 = true ∧ ¬ xPointerInside s 1) ∧
    (xModActive bufferA 4 = true ∧ bitRevActive bufferA 4 = false ∧ xModActive bufferA 5 = false) := by
  refine ⟨⟨by decide, ?_⟩, ⟨by decide, by decide, fun _ => by decide, by decide⟩,
    ⟨by decide, by decide, fun h => ?_⟩, by decide⟩
  · rintro ⟨j, hj, h⟩
    exact absurd h ((by decide : ∀ j : Fin 15, ¬ (reorder.setCtrl .xbrev 0x8003#16).xb =
      BitVec.ofNat 15 (2 ^ j.val)) ⟨j, hj⟩)
  · exact absurd (h (by decide)).2 (by decide)

/-- A buffer with neither bound on its boundary (V4.11), W4 at its second word. -/
def offBoundary : State :=
  ((bufferA.setCtrl .xmodsrt 0x1110#16).setCtrl .xmodend 0x1173#16).setW 4 0x1112#16

/-- R173: W4 in its buffer and no step: against the direction of buffer A by a word, an index, a literal offset; none
at all, 0 included, off the boundary. -/
theorem witness_noStep :
    (let s := bufferA.setW 5 0xFFFE#16
     xPointerInside s 4 ∧ bitRevActive s 4 = false ∧ xNoStep s 4 (PtrMode.postDec.delta 2) ∧
      xNoStep s 4 (s.w 5).toInt ∧ xNoStep s 4 (-4)) ∧
      xPointerInside offBoundary 4 ∧ xNoStep offBoundary 4 (PtrMode.ind.delta 1) :=
  ⟨⟨fun _ => by decide, by decide, ⟨by decide, not_moduloStep (by decide)⟩,
    ⟨by decide, not_moduloStep (by decide)⟩, ⟨by decide, not_moduloStep (by decide)⟩⟩,
    fun _ => by decide, by decide, not_moduloStep (by decide)⟩

/-- Moves that store where `eaGen` says: `[W4--]` with no step, V5.34, and a plain pointer, from a register and from
memory; with an index and with a literal offset; V5.34 from an odd pointer and a bad literal offset. -/
theorem witness_generatedStores :
    (sourceStep bufferA .word (.reg 0) (bufferA.w 0) [] ∧
      ∃ t, stores bufferA.closeWindow .word (eaGen bufferA .xw (.ptr .postDec) 4 .word false).ea
        (bufferA.w 0) t) ∧
    (let s := both.setW 1 0x0A02#16
     ∃ t, stores s.closeWindow .word (eaGen s .xw (.ptr .postDec) 1 .word false).ea (s.w 2) t) ∧
    (sourceStep pointers .word (.ptr .postInc 1) 0x1234#16 [(1, 0x0902#16)] ∧
      (Operand.ptr .postInc 1).shares (.ptr .ind 0) = false ∧
      (Operand.idx 0 4).shares (.ptr .postInc 1) = false ∧
      (∃ t, stores pointers.closeWindow .word (eaGen pointers .xw (.regOff 4) 0 .word false).ea 0x1234#16 t) ∧
      ∃ t, stores pointers.closeWindow .word (eaGen pointers .xw (.litOff (-6)) 0 .word false).ea
        (pointers.w 2) t) ∧
    (let s := both.setW 1 0x0A03#16
     storeTarget (.mov .word (.reg 2) (.ptr .postDec 1)) s = some (.word, 0x0A03#16) ∧
      ¬ inPlace s .word 0x0A03#16) ∧
    storeTarget (.movStoreOff .word 1 0 3) pointers = some (.word, 0x0A03#16) :=
  ⟨⟨⟨rfl, rfl⟩, _, .inl ⟨by decide, .inl (by decide), rfl⟩⟩, ⟨_, .inl ⟨by decide, .inl (by decide), rfl⟩⟩,
    ⟨⟨by decide, 0x0900#16, ⟨_, ⟨.inr ⟨(fun h => nomatch h.1), .inl ⟨by decide, by decide⟩⟩, by decide⟩, rfl⟩,
      .inl ⟨by decide, .inl (by decide), by decide⟩⟩,
    by decide, by decide, ⟨_, .inl ⟨by decide, .inl (by decide), rfl⟩⟩,
    _, .inl ⟨by decide, .inl (by decide), rfl⟩⟩,
    ⟨by decide, fun h => absurd (h.1 rfl) (by decide)⟩, by decide⟩

/-- Reads without a fixed address: after a write of MODCON through one register, an indexed pair, POP's sixteen
and both MAC pointers; the index alone selected; a reserved YWM; outside the buffer. -/
theorem witness_openReads :
    let s := td.writeCtrl .modcon 0#16
    (freeRead s .word .postInc 1 [1] (openEa s .xr) ∧ freeIndexedRead s 1 2 ∧ xReadOpen s 1 [1] ∧
      freeRead s .word s.par.popMode s.par.popReg (List.finRange 16) (openEa s .xr)) ∧
      (s.par.xOps[(1#4).toFin] = some ⟨false, some 2⟩ ∧ freeXPrefetch s ⟨false, some 2⟩ (openEa s .xr)) ∧
      (s.par.yOps[(9#4).toFin] = some ⟨true, some 2⟩ ∧ freeYPrefetch s ⟨true, some 2⟩ (openEa s .y)) ∧
      freeIndexedRead bufferA 5 4 ∧
      freeYPrefetch (td.setCtrl .modcon 0x4F3F#16) ⟨false, some 2⟩ (openEa (td.setCtrl .modcon 0x4F3F#16) .y) ∧
      freeRead (bufferA.setW 4 0x1164#16) .byte .ind 4 [4] (openEa (bufferA.setW 4 0x1164#16) .xr) :=
  ⟨⟨.inl ⟨.inl (by decide), rfl⟩, .inl (.inl (by decide)), .inl (by decide), .inl ⟨.inl (by decide), rfl⟩⟩,
    ⟨by decide, .inl ⟨.inl (by decide), rfl⟩⟩, ⟨by decide, .inl ⟨.inl (by decide), rfl⟩⟩,
    .inr (.inl (by decide)), .inl ⟨.inr (.inl (by decide)), rfl⟩,
    .inl ⟨.inr ⟨by decide, fun h => absurd (h (by decide)).2 (by decide)⟩, rfl⟩⟩

/-- Reads in the buffer whose step has no result (R173): V4.9 and its kin through W4, through POP's pointer, and by a
prefetch of each space, offset -2. -/
theorem witness_readsWithoutStep :
    (freeRead bufferA .word .postDec 4 [4] (bufferA.w 4) ∧
      freeRead bufferA .byte .preDec 4 [4] (openEa bufferA .xr) ∧
      freeRead offBoundary .word .ind 4 [4] (openEa offBoundary .xr) ∧
      freeIndexedRead (bufferA.setW 5 0xFFFE#16) 4 5) ∧
    (let s : State := { bufferA with par := { bufferA.par with popReg := 4 } }
     freeRead s .word s.par.popMode s.par.popReg (List.finRange 16) (openEa s .xr)) ∧
    (bufferX8.par.xOps[(7#4).toFin] = some ⟨false, some (-2)⟩ ∧
      freeXPrefetch bufferX8 ⟨false, some (-2)⟩ (bufferX8.w 8)) ∧
    (let s := (bufferY.setCtrl .ymodend 0x1819#16).setW 10 0x1804#16
     s.par.yOps[(7#4).toFin] = some ⟨false, some (-2)⟩ ∧ freeYPrefetch s ⟨false, some (-2)⟩ (s.w 10)) :=
  ⟨⟨.inr ⟨by decide, fun _ => by decide, ⟨by decide, not_moduloStep (by decide)⟩, rfl⟩,
      .inr ⟨by decide, fun _ => by decide, ⟨by decide, not_moduloStep (by decide)⟩, rfl⟩,
      .inr ⟨by decide, fun _ => by decide, ⟨by decide, not_moduloStep (by decide)⟩, rfl⟩,
      .inr (.inr ⟨by decide, not_moduloStep (by decide)⟩)⟩,
    .inr ⟨by decide, fun _ => by decide, ⟨by decide, not_moduloStep (by decide)⟩, rfl⟩,
    ⟨by decide, .inr ⟨by decide, fun _ => by decide, ⟨by decide, not_moduloStep (by decide)⟩, rfl⟩⟩,
    by decide, .inr ⟨by decide, by decide, fun _ => by decide, ⟨by decide, not_moduloStep (by decide)⟩, rfl⟩⟩

/-- REPEAT outside and inside a REPEAT. -/
theorem witness_repeat : State.reset.rep = 0 ∧ ({ State.reset with rep := 1 } : State).rep ≠ 0 := by
  decide

def stack : State := start [(15, 0x0902#16)] [(0x0900#16, 0x7777#16)]

theorem witness_pop :
    hazardHits stack (List.finRange 16) = false ∧
      xPointer stack .xr stack.par.popReg .word stack.par.popMode 0x0900#16 0x0900#16 ∧
      deliversWord stack 0x0900#16 0x7777#16 ∧ misaligned 0x0A00#16 = false ∧ inRam stack 0x0A00#16 ∧
      stack.par.addrsOk = true :=
  ⟨by decide, ⟨.inr ⟨(fun h => nomatch h.1), .inl ⟨by decide, by decide⟩⟩, by decide⟩,
    .inl ⟨by decide, .inl (by decide), by decide⟩, by decide, .inl (by decide), by decide⟩

/-- POP's pointer stepped down past the start of buffer C. -/
theorem witness_popModulo :
    let s : State := { bufferC.setWord 0x11FE#16 5#16 with par := { bufferC.par with popReg := 4 } }
    hazardHits s (List.finRange 16) = false ∧
      xPointer s .xr s.par.popReg .word s.par.popMode 0x11FE#16 0x11FE#16 ∧ deliversWord s 0x11FE#16 5#16 :=
  ⟨by decide, ⟨.inr ⟨(fun h => nomatch h.1), .inr ⟨by decide, .inl rfl, by decide, by decide, by decide, by decide,
    by decide, 7, ⟨by decide, by decide⟩, .inr (by decide)⟩⟩, by decide⟩,
    .inl ⟨by decide, .inl (by decide), by decide⟩⟩

/-- W8 and W10 in their own spaces, W9 and W11 in the wrong ones. -/
def dsp : State :=
  start [(8, 0x0900#16), (9, 0x1800#16), (10, 0x1800#16), (11, 0x0900#16), (13, 0x0A20#16)]
    [(0x0900#16, 0x1234#16), (0x1800#16, 0x5555#16)]

/-- Codes 1 and 1: W8 and W10, offsets 2, W4 and W5, no write back. -/
theorem witness_macPrefetches :
    (dsp.par.xOps[(1#4).toFin] = some ⟨false, some 2⟩ ∧
      dsp.par.yOps[(1#4).toFin] = some ⟨false, some 2⟩ ∧ dsp.par.writeBack[(2#2).toFin] = none ∧
      hazardHits dsp [8] = false ∧ hazardHits dsp [10] = false ∧ xModActive dsp 8 = false ∧
      yReserved dsp = false ∧ yModActive dsp 10 = false ∧
      dsp.par.xDest[(0#2).toFin] = 4 ∧ dsp.par.yDest[(1#2).toFin] = 5) ∧
      dspXReads dsp (dsp.w 8) 0x1234#16 ∧ dspYReads dsp (dsp.w 10) 0x5555#16 :=
  ⟨by decide, .inl ⟨by decide, .inl ⟨by decide, by decide⟩⟩, ⟨by decide, .inl ⟨by decide, by decide⟩⟩⟩

/-- Codes 8 and 9: W9 and W11, offsets 0 and 2, both pointers in the wrong space. -/
theorem witness_macWrongSpace :
    (dsp.par.xOps[(8#4).toFin] = some ⟨true, some 0⟩ ∧
      dsp.par.yOps[(9#4).toFin] = some ⟨true, some 2⟩ ∧ dsp.par.writeBack[(3#2).toFin] = none ∧
      hazardHits dsp [9] = false ∧ hazardHits dsp [11] = false ∧ xModActive dsp 9 = false ∧
      yReserved dsp = false ∧ yModActive dsp 11 = false) ∧
      dspXReads dsp (dsp.w 9) 0#16 ∧ dspYReads dsp (dsp.w 11) 0#16 :=
  ⟨by decide, .inl ⟨by decide, .inr ⟨by decide, rfl⟩⟩, ⟨by decide, .inr ⟨.inl (by decide), rfl⟩⟩⟩

/-- An X read of XMODEND, equal destinations (fields 0 and 0), and a write back beside both prefetches. -/
theorem witness_macTogether :
    (dspXReads (dsp.setW 8 0x004A#16) ((dsp.setW 8 0x004A#16).w 8) 1#16 ∧
      dsp.par.xDest[(0#2).toFin] ∈ [dsp.par.yDest[(0#2).toFin], 8, 10]) ∧
    dsp.par.writeBack[(1#2).toFin] = some .postInc ∧ dsp.par.xDest[(0#2).toFin] ≠ 13 ∧
      dsp.par.yDest[(0#2).toFin] ≠ 13 :=
  ⟨⟨.inr ⟨.xmodend, by decide, by decide, by decide⟩, by decide⟩, by decide, by decide, by decide⟩

/-- R222's prefetches, each of which may stand alone, one of them in a modulo buffer, and none. -/
theorem witness_macSingle :
    xPrefetches dsp (some ⟨false, some 2⟩) 4 [(4, 0x1234#16), (8, 0x0902#16)] ∧
      yPrefetches dsp (some ⟨false, some 2⟩) 5 [(5, 0x5555#16), (10, 0x1802#16)] ∧
      yPrefetches bufferY (some ⟨false, some 2⟩) 5 [(5, 3#16), (10, 0x1800#16)] ∧
      xPrefetches dsp none 4 [] ∧ yPrefetches dsp none 5 [] :=
  ⟨⟨_, _, rfl, by decide, .inl ⟨by decide, .inl ⟨by decide, by decide⟩⟩, .inl ⟨by decide, by decide⟩⟩,
    ⟨_, _, rfl, by decide, by decide, ⟨by decide, .inl ⟨by decide, by decide⟩⟩, .inl ⟨by decide, by decide⟩⟩,
    ⟨_, _, rfl, by decide, by decide, ⟨by decide, .inl ⟨by decide, by decide⟩⟩,
      .inr ⟨by decide, by decide, by decide, by decide, by decide, by decide, 5, ⟨by decide, by decide⟩,
        .inl (by decide)⟩⟩, rfl, rfl⟩

set_option maxRecDepth 4000 in
/-- The write back's pointer: plain, past the end of buffer A, and bit-reversed. -/
theorem witness_macWriteStep :
    xPointer dsp .xw 13 .word .postInc 0x0A20#16 0x0A22#16 ∧
      xPointer ((bufferA.setCtrl .modcon 0x8FFD#16).setW 13 0x1162#16) .xw 13 .word .postInc
        0x1162#16 0x1100#16 ∧
      xPointer ((td.setCtrl .modcon 0x0DFF#16).setCtrl .xbrev 0x8008#16) .xw 13 .word .preInc
        0x0010#16 0x0010#16 :=
  ⟨⟨.inr ⟨fun h => absurd h.2.1 (by decide), .inl ⟨by decide, by decide⟩⟩, by decide⟩,
    ⟨.inr ⟨fun h => absurd h.2.1 (by decide), .inr ⟨by decide, .inr (.inl (by decide)), by decide, by decide,
      by decide, by decide, by decide, 7, ⟨by decide, by decide⟩, .inl (by decide)⟩⟩, by decide⟩,
    .inl ⟨⟨rfl, by decide, rfl, .inr rfl⟩, ⟨3, by decide, by decide⟩, by decide⟩, by decide⟩

theorem witness_macWriteBack :
    dsp.par.xOps[(4#4).toFin] = none ∧ dsp.par.yOps[(4#4).toFin] = none ∧
      dsp.par.writeBack[(1#2).toFin] = some .postInc ∧ plainWrite dsp 13 .word .postInc ∧
      plainWrite ((dsp.setCtrl .modcon 0x0DFF#16).setCtrl .xbrev 0x8008#16) 13 .word .ind ∧
      ∃ t, storesWord (dsp.closeWindow.setAcc .a (Config.freeContent dsp.draws))
        (PtrMode.postInc.plainEa (dsp.w 13) 2#16) (Config.accStored (dsp.acc (otherAcc .a)) dsp.draws) t :=
  ⟨by decide, by decide, by decide, ⟨by decide, .inl (by decide)⟩, ⟨by decide, .inr (.inr (by decide))⟩,
    ⟨_, .inl ⟨by decide, .inl (by decide), rfl⟩⟩⟩

/-- V7.6; and beside it an X pointer in place at RAM that nothing has written, a Y pointer that is odd. -/
def badPointers : State := start [(8, 0x2800#16), (10, 0x2802#16), (9, 0x0900#16), (11, 0x1801#16)] []

theorem witness_macTraps :
    (badPointers.par.xOps[(1#4).toFin] = some ⟨false, some 2⟩ ∧
      badPointers.par.xOps[(9#4).toFin] = some ⟨true, some 2⟩ ∧
      badPointers.par.yOps[(1#4).toFin] = some ⟨false, some 2⟩ ∧
      badPointers.par.yOps[(9#4).toFin] = some ⟨true, some 2⟩ ∧
      badPointers.par.writeBack[(2#2).toFin] = none) ∧
    (hazardHits badPointers [8] = false ∧ xPointerInside badPointers 8 ∧
      wordReadTraps badPointers (badPointers.w 8)) ∧
    (hazardHits badPointers [9] = false ∧ xPointerInside badPointers 9 ∧
      inPlace badPointers .word (badPointers.w 9) ∧ hazardHits badPointers [11] = false ∧
      yReserved badPointers = false ∧ yPointerInside badPointers 11 ∧
      ¬ inPlace badPointers .word (badPointers.w 11)) := by
  refine ⟨by decide, ⟨by decide, fun h => ?_, .inl (by decide)⟩, by decide, fun h => ?_,
    ⟨fun _ => by decide, by decide⟩, by decide, by decide, fun h => ?_, fun h => ?_⟩
  · exact absurd h (by decide)
  · exact absurd h (by decide)
  · exact absurd h (by decide)
  · exact absurd (h.1 rfl) (by decide)

/-- Codes 1 and 4, and 4 and 9: a bad prefetch that is the only one. -/
theorem witness_macSingleTraps :
    (badPointers.par.xOps[(4#4).toFin] = none ∧ badPointers.par.yOps[(4#4).toFin] = none) ∧
      (after (.mac 0 .a 0 1 1 4 2) badPointers).map State.fault = some (some ⟨0x2800#16, .read⟩) ∧
      (after (.mac 0 .a 0 1 4 9 2) badPointers).map State.fault = some (some ⟨0x1801#16, .read⟩) := by
  decide

/-- Bad addresses for reads: direct; `[W6]` and `[--W7]`; W6 + W4; a literal offset, word and byte; POP's `[--W15]`;
the destinations of a move beside them. -/
theorem witness_readTraps :
    (wordReadTraps pointers 0x0901#16 ∧ wordReadTraps pointers 0x0047#16 ∧
      readTraps pointers .byte 0x2800#16) ∧
    (hazardHits pointers (Operand.ptr .ind 6).readPointers = false ∧
      operandStep pointers .xr .word (.ptr .ind 6) 0x0901#16 [] ∧
      (Operand.ptr .ind 6).shares (.idx 0 4) = false ∧ (Operand.ptr .ind 6).shares (.ptr .postInc 0) = false) ∧
    (operandStep pointers .xr .byte (.ptr .preDec 7) 0xFFFF#16 [(7, 0xFFFF#16)] ∧
      readTraps pointers .byte 0xFFFF#16) ∧
    (hazardHits pointers (Operand.idx 6 4).readPointers = false ∧
      operandStep pointers .xr .word (.idx 6 4) 0x0911#16 [] ∧ readTraps pointers .word 0x0911#16 ∧
      (Operand.idx 6 4).shares (.ptr .postInc 0) = false) ∧
    (xStep pointers .xr 1 .word (.litOff 1) 1 0x0901#16 ∧
      xStep pointers .xr 1 .byte (.litOff 0x1F00) 0x1F00 0x2800#16) ∧
    (let s := stack.setW 15 0x0903#16
     hazardHits s (List.finRange 16) = false ∧
      xPointer s .xr s.par.popReg .word s.par.popMode 0x0901#16 0x0901#16 ∧ readTraps s .word 0x0901#16) := by
  have unimpl : ∀ a, region pointers.par a = .unimpl → readTraps pointers .byte a := fun _ h => h
  have plain {s : State} {n size m d q} (h : xModActive s n = false ∧ q = s.w n + BitVec.ofInt 16 d) :
      xStep s .xr n size m d q := .inr ⟨(fun h => nomatch h.1), .inl h⟩
  exact ⟨⟨.inr ⟨by decide, .inl (by decide)⟩, .inr ⟨by decide, .inr ⟨.modcon, by decide⟩⟩, unimpl _ (by decide)⟩,
    ⟨by decide, ⟨_, ⟨plain ⟨by decide, rfl⟩, by decide⟩, rfl⟩, by decide, by decide⟩,
    ⟨⟨_, ⟨plain (by decide), by decide⟩, rfl⟩, unimpl _ (by decide)⟩,
    ⟨by decide, ⟨fun h => absurd h (by decide), plain (by decide), rfl⟩, .inr ⟨by decide, .inl (by decide)⟩,
      by decide⟩,
    ⟨plain (by decide), plain (by decide)⟩,
    by decide, ⟨plain (by decide), by decide⟩, .inr ⟨by decide, .inl (by decide)⟩⟩

/-- Bad addresses for stores: `[W6]`, W0 + W6, a literal offset; the source of a move beside them in place at RAM that
nothing has written; POP's `f`; a write back through an odd W13 beside both prefetches. -/
theorem witness_storeTraps :
    (operandStep pointers .xw .word (.ptr .ind 6) 0x0901#16 [] ∧ ¬ inPlace pointers .word 0x0901#16 ∧
      operandStep pointers .xw .word (.idx 0 6) 0x1301#16 [] ∧ ¬ inPlace pointers .word 0x1301#16 ∧
      xStep pointers .xw 0 .byte (.litOff 0x1E00) 0x1E00 0x2800#16 ∧ ¬ inPlace pointers .byte 0x2800#16) ∧
    ((Operand.ptr .ind 0).shares (.idx 0 6) = false ∧ hazardHits pointers [0] = false ∧
      operandStep pointers .xr .word (.ptr .ind 0) 0x0A00#16 [] ∧ inPlace pointers .word 0x0A00#16) ∧
    (xPointer stack .xr stack.par.popReg .word stack.par.popMode 0x0900#16 0x0900#16 ∧
      inPlace stack .word 0x0900#16 ∧ ¬ inPlace stack .word 0x0A01#16) ∧
    (let s := dsp.setW 13 0x0A21#16
     s.par.writeBack[(1#2).toFin] = some .postInc ∧ xPointer s .xw 13 .word .postInc 0x0A21#16 0x0A23#16 ∧
      prefetchesTo13 s.par 0 1 1 1 = false ∧ s.par.xOps[(1#4).toFin] = some ⟨false, some 2⟩ ∧
      hazardHits s [8] = false ∧ xModActive s 8 = false ∧ inPlace s .word (s.w 8) ∧
      s.par.yOps[(1#4).toFin] = some ⟨false, some 2⟩ ∧ hazardHits s [10] = false ∧ yReserved s = false ∧
      yModActive s 10 = false ∧ inPlace s .word (s.w 10) ∧ ¬ inPlace s .word 0x0A21#16) := by
  have odd {s : State} {a} (h : misaligned a = true) : ¬ inPlace s .word a := fun g => by
    rw [g.1 rfl] at h; cases h
  have plain {s : State} {path n size m d q}
      (h : bitRevActive s n = false ∧ xModActive s n = false ∧ q = s.w n + BitVec.ofInt 16 d) :
      xStep s path n size m d q := .inr ⟨(fun g => by rw [g.2.1] at h; cases h.1), .inl h.2⟩
  exact ⟨⟨⟨_, ⟨plain ⟨by decide, by decide, rfl⟩, by decide⟩, rfl⟩, odd (by decide),
      ⟨fun h => absurd h (by decide), plain (by decide), rfl⟩, odd (by decide), plain (by decide),
      fun h => absurd (show region pointers.par 0x2800#16 = .unimpl by decide) h.2⟩,
    ⟨by decide, by decide, ⟨_, ⟨plain ⟨by decide, by decide, rfl⟩, by decide⟩, rfl⟩, fun _ => by decide, by decide⟩,
    ⟨⟨plain (by decide), by decide⟩, ⟨fun _ => by decide, by decide⟩, odd (by decide)⟩,
    by decide, ⟨plain (by decide), by decide⟩, by decide, by decide, by decide, by decide,
    ⟨fun _ => by decide, by decide⟩, by decide, by decide, by decide, by decide,
    ⟨fun _ => by decide, by decide⟩, odd (by decide)⟩

set_option maxRecDepth 4000 in
/-- Odd addresses that a corrected step reaches: buffer A up past its end, read and written, and V5.8, bit-reversed. -/
theorem witness_correctedTraps :
    (let s := bufferA.setW 4 0x1163#16
     (hazardHits s [4] = false ∧ xModActive s 4 = true) ∧
      operandStep s .xr .word (.ptr .preInc 4) 0x1101#16 [(4, 0x1101#16)] ∧ readTraps s .word 0x1101#16 ∧
      operandStep s .xw .word (.ptr .preInc 4) 0x1101#16 [(4, 0x1101#16)] ∧ ¬ inPlace s .word 0x1101#16) ∧
    (let s := reorder.setW 1 0x0A01#16
     operandStep s .xw .word (.ptr .preInc 1) 0x0A11#16 [(1, 0x0A11#16)] ∧ ¬ inPlace s .word 0x0A11#16) := by
  have up : moduloStep 0x1100#16 0x1163#16 0x1163#16 2 0x1101#16 :=
    ⟨by decide, by decide, by decide, by decide, by decide, 7, ⟨by decide, by decide⟩, .inl (by decide)⟩
  have odd {s : State} {a} (h : misaligned a = true) : ¬ inPlace s .word a := fun g => by
    rw [g.1 rfl] at h; cases h
  exact ⟨⟨by decide, ⟨_, ⟨.inr ⟨(fun h => nomatch h.1), .inr ⟨by decide, .inl rfl, up⟩⟩, by decide⟩, rfl⟩,
      .inr ⟨by decide, .inl (by decide)⟩,
      ⟨_, ⟨.inr ⟨fun h => absurd h.2.1 (by decide), .inr ⟨by decide, .inr (.inl (by decide)), up⟩⟩, by decide⟩, rfl⟩,
      odd (by decide)⟩,
    ⟨_, ⟨.inl ⟨⟨rfl, by decide, rfl, .inr rfl⟩, ⟨3, by decide, by decide⟩, by decide⟩, by decide⟩, rfl⟩,
    odd (by decide)⟩

/-- The frames' hypotheses: a form of each kind that completes. -/
theorem witness_frames :
    registerForm (.mov .word (.ptr .postInc 1) (.reg 7)) = some (7, [1]) ∧
      (after (.mov .word (.ptr .postInc 1) (.reg 7)) pointers).isSome = true ∧
      storeForm (.mov .word (.reg 1) (.ptr .postInc 0)) pointers =
        some (.word, 0x0A00#16, [0]) ∧
      (after (.mov .word (.reg 1) (.ptr .postInc 0)) pointers).isSome = true ∧
      (after (.mac 0 .a 0 1 1 1 1) dsp).isSome = true ∧
      dsp.par.writeBack[(1#2).toFin] = some .postInc := by decide

/-- A statement that takes the trap in a write, one that takes it in a read and stores nothing, and V7.7, one
that takes it in the read before its write. -/
theorem witness_traps :
    (after (.movStore 0 0x0A01#16) td).map State.fault =
        some (some ⟨0x0A01#16, .write⟩) ∧
      (after (.movLoad 0x2800#16 0) td).map State.fault =
        some (some ⟨0x2800#16, .read⟩) ∧
      (after (.mov .word (.ptr .postInc 6) (.ptr .postInc 0)) pointers).map State.fault =
        some (some ⟨0x0901#16, .read⟩) ∧
      storeTarget (.mov .word (.ptr .postInc 6) (.ptr .postInc 0)) pointers =
        some (.word, 0x0A00#16) ∧ storeTarget (.movLoad 0x2800#16 0) td = none := by decide

theorem witness_otherSfr :
    region State.reset.par 0x0044#16 = .sfr ∧
      (CtrlReg.list.all fun r => State.reset.par.ctrlAddr r != wordAddr 0x0044#16) = true ∧
      misaligned 0x0044#16 = false := by decide

theorem witness_unwritten :
    misaligned 0x0800#16 = false ∧ inRam td 0x0800#16 ∧
      td.wordAt 0x0800#16 = none :=
  ⟨by decide, .inl (by decide), by decide⟩

end Sys2Proof.Tests
end

section
/-! The word write of a control register as its own read-back law, and the step as an equation: the two
statements about the state settled from them. -/

namespace Sys2Proof.Machine

/-! ### Control registers -/

/-- The write-and-read-back law for any of the six registers: what is stored and read is the value under the
register's fixed bits (R42, R128). -/
theorem wrW_ctrl_readBack {s : State} (h : s.par.addrsOk = true) (r : CtrlReg) (v : Word) :
    ∃ t, wrW s (s.par.ctrlAddr r) v = .next ⟨t, false⟩ ∧ t.ctrl r = r.fix v ∧
      rdW t (s.par.ctrlAddr r) = .next ⟨r.fix v, false⟩ := by
  have stored : (s.writeCtrl r v).ctrl r = r.fix v := by
    rw [writeCtrl_ctrl, setCtrl_ctrl_same]
  have read : rdW (s.writeCtrl r v) (s.par.ctrlAddr r) = .next ⟨r.fix v, false⟩ := by
    have addrsOk : (s.writeCtrl r v).par.addrsOk = true := by rwa [writeCtrl_par]
    have back := rdW_ctrl addrsOk r
    rwa [stored, writeCtrl_par] at back
  exact ⟨s.writeCtrl r v, wrW_ctrl h r v, stored, read⟩

/-- Settles O19: the read-back law at each register, whose `ctrlAddr`, `ctrl` and `fix` are by definition the
address, the field and the fixed bits the statement writes out. -/
theorem controlRegisterWordWriteKeepsFixedBits :
    Obligations.ControlRegisterWordWriteKeepsFixedBits := by
  unfold Obligations.ControlRegisterWordWriteKeepsFixedBits
  refine ⟨⟨rfl, rfl, rfl, rfl⟩, fun s v h => ⟨?modcon, ?xmodsrt, ?xmodend, ?ymodsrt, ?ymodend, ?xbrev⟩⟩
  case modcon => exact wrW_ctrl_readBack h .modcon v
  case xmodsrt => exact wrW_ctrl_readBack h .xmodsrt v
  case xmodend => exact wrW_ctrl_readBack h .xmodend v
  case ymodsrt => exact wrW_ctrl_readBack h .ymodsrt v
  case ymodend => exact wrW_ctrl_readBack h .ymodend v
  case xbrev => exact wrW_ctrl_readBack h .xbrev v

/-! ### The step -/

/-- The equation of the step at a statement that decodes: the converse of `step_eq_next`, for every
outcome of `exec` (R24). -/
theorem step_of_decode {s : State} {w : InsnWord} {i : Instr} (hfault : s.fault = none)
    (hfetch : s.fetch = some w) (hdecode : decode w = .ok i) :
    step s = andThen (exec i s) fun t => .next (advance s t) := by
  simp only [step, trapOutcome, hfault, Option.map_none, runCurrent, hfetch, hdecode, runDecoded]

/-- Settles O5: the step's equation at each outcome of `exec`. -/
theorem stepRunsTheDecodedInstruction : Obligations.StepRunsTheDecodedInstruction := by
  unfold Obligations.StepRunsTheDecodedInstruction
  intro s w i hfault hfetch hdecode
  rw [step_of_decode hfault hfetch hdecode]
  cases exec i s with
  | next t => exact andThen_next t _
  | fault r => exact andThen_fault r _
  | refused r => exact andThen_refused r _

end Sys2Proof.Machine
end

section
/-! Memory access: an aligned word write is two byte writes, and what every access primitive answers at an
unimplemented address. The two statements about data memory are settled from them. -/

namespace Sys2Proof.Machine

/-! ### The bytes of a word write -/

/-- An even address and its successor differ in bit 0. -/
theorem succ_ne_of_aligned {a : Word} (h : misaligned a = false) : a + 1#16 ≠ a := by
  intro e
  have hodd := (wordAddr_succ_of_aligned h).2
  rw [e, h] at hodd
  cases hodd

/-- A word write is the write of its low byte at the even address and of its high byte at the odd one
(R63). -/
theorem setWord_eq_setByte (s : State) {a : Word} (v : Word) (h : misaligned a = false) :
    s.setWord a v =
      (s.setByte a (v.extractLsb' 0 8)).setByte (a + 1#16) (v.extractLsb' 8 8) := by
  simp only [State.setWord, State.setByte, toNat_succ_of_aligned a h]

theorem byteAt_setWord_low (s : State) {a : Word} (v : Word) (h : misaligned a = false) :
    (s.setWord a v).byteAt a = some (v.extractLsb' 0 8) := by
  rw [setWord_eq_setByte s v h, byteAt_setByte_other _ _ _ _ (succ_ne_of_aligned h).symm,
    byteAt_setByte_same]

theorem byteAt_setWord_high (s : State) {a : Word} (v : Word) (h : misaligned a = false) :
    (s.setWord a v).byteAt (a + 1#16) = some (v.extractLsb' 8 8) := by
  rw [setWord_eq_setByte s v h, byteAt_setByte_same]

/-- Both bytes of an aligned word lie in RAM when one does: the region is the word's (R127). -/
theorem inRam_succ_of_aligned {s : State} {a : Word} (h : misaligned a = false) :
    inRam s (a + 1#16) ↔ inRam s a := by
  have sameWord : wordAddr (a + 1#16) = wordAddr a :=
    (wordAddr_succ_of_aligned h).1.trans (wordAddr_of_aligned h).symm
  rw [inRam, inRam, region_congr s.par sameWord]

/-- The map is a parameter, so a store moves no address in or out of RAM. -/
theorem inRam_setWord {s : State} {a v k : Word} : inRam (s.setWord a v) k ↔ inRam s k := by
  rw [inRam, inRam, setWord_par]

/-- Settles O14: each read goes through what the written state holds at its address. -/
theorem wordWriteIsLittleEndian : Obligations.WordWriteIsLittleEndian := by
  unfold Obligations.WordWriteIsLittleEndian
  intro s a v aligned ram
  have ramAfter : inRam (s.setWord a v) a := inRam_setWord.2 ram
  have word : holdsWord (s.setWord a v) a v := ⟨aligned, ramAfter, wordAt_setWord_same s a v⟩
  have low : holdsByte (s.setWord a v) a (v.extractLsb' 0 8) :=
    ⟨ramAfter, byteAt_setWord_low s v aligned⟩
  have high : holdsByte (s.setWord a v) (a + 1#16) (v.extractLsb' 8 8) :=
    ⟨(inRam_succ_of_aligned aligned).2 ramAfter, byteAt_setWord_high s v aligned⟩
  have others : sameBytesBut s (s.setWord a v) .word a := fun k notLow notHigh =>
    byteAt_setWord_other s a v k aligned notLow (notHigh rfl)
  exact ⟨wrW_inRam aligned ram, rdW_holdsWord word, rdB_holdsByte low, rdB_holdsByte high, others, rfl⟩

/-! ### Unimplemented addresses (R70) -/

section Unimplemented
variable {s : State} {a : Word} (h : region s.par a = .unimpl)
include h

theorem rdB_unimpl : rdB s a = .next ⟨0#16, true⟩ := by simp only [rdB, h]

theorem rdX_unimpl : rdX s a = .next ⟨0#16, true⟩ := by simp only [rdX, h]

theorem rdY_unimpl : rdY s a = .next ⟨0#16, true⟩ := by simp only [rdY, h]

/-- The two causes of the trap, misaligned and unimplemented, have one outcome for a word write. -/
theorem wrW_unimpl (v : Word) : wrW s a v = .next ⟨s, true⟩ := by
  cases hm : misaligned a with
  | true => simp only [wrW, hm, if_true]
  | false => simp only [wrW, hm, Bool.false_eq_true, if_false, h]

theorem wrB_unimpl (b : Byte) : wrB s a b = .next ⟨s, true⟩ := by simp only [wrB, h]

end Unimplemented

/-- Settles O17: the four reads and the two writes, each by its law at an unimplemented address. -/
theorem unimplementedAddressReadsZeroAndTraps : Obligations.UnimplementedAddressReadsZeroAndTraps := by
  unfold Obligations.UnimplementedAddressReadsZeroAndTraps
  intro s a v b h
  exact ⟨rdW_unimpl h, rdB_unimpl h, rdX_unimpl h, rdY_unimpl h, wrW_unimpl h v, wrB_unimpl h b⟩

end Sys2Proof.Machine
end

section
/-! The decoder and the encoder: no word has the fixed bits of two rows, so `decode` reads a word by the one row
it fits; what a row reads is well-formed; and the fields a row reads from `encode` are the ones packed there.
The statements about the encoding are settled from these. -/

namespace Sys2Proof

/-! ### The bits a row fixes -/

/-- The value a row fixes at bit `b` of its words, if it fixes one. -/
def Row.fixedBit (r : Row) (b : Nat) : Option Bool :=
  (r.fixed.find? fun f => f.1 ≤ b && b < f.1 + f.2.1).map fun f => f.2.2.testBit (b - f.1)

/-- Every word of a row has the bits the row fixes. -/
theorem Row.testBit_of_fits {r : Row} {w : InsnWord} (h : r.fits w = true) {b : Nat} {v : Bool}
    (hv : r.fixedBit b = some v) : w.toNat.testBit b = v := by
  obtain ⟨f, hfind, rfl⟩ := Option.map_eq_some_iff.1 hv
  have inField : f.1 ≤ b ∧ b < f.1 + f.2.1 := by simpa using List.find?_some hfind
  have holds := (row_fits_iff r w).1 h f (List.mem_of_find?_eq_some hfind)
  have hlen : b - f.1 < f.2.1 := by omega
  rw [← holds, Nat.testBit_mod_two_pow, Nat.testBit_div_two_pow, Nat.sub_add_cancel inField.1]
  simp [hlen]

/-- Two rows of the table fix some bit at different values. -/
theorem exists_fixedBit_ne : ∀ j k : Fin rows.length, j ≠ k →
    ∃ b : Fin 24, ∃ v, rows[j].fixedBit b = some v ∧ rows[k].fixedBit b = some (!v) := by
  decide

/-- Settles O3: two rows fix some bit at different values, and a word has one value there. -/
theorem noWordFitsTwoRows : Obligations.NoWordFitsTwoRows := by
  unfold Obligations.NoWordFitsTwoRows
  intro w j k hj hk
  by_contra hne
  obtain ⟨b, v, hbj, hbk⟩ := exists_fixedBit_ne j k hne
  have same : v = !v := (Row.testBit_of_fits hj hbj).symm.trans (Row.testBit_of_fits hk hbk)
  exact (Bool.eq_not_self v).1 same

/-- The decoder as a relation, free of the order of the table: it reads the row the word fits. -/
theorem decode_eq_ok_iff {w : InsnWord} {i : Instr} :
    decode w = .ok i ↔ ∃ k : Fin rows.length, rows[k].fits w = true ∧ rows[k].read w = i := by
  constructor
  · intro h
    unfold decode at h
    split at h
    next r hfind =>
      obtain ⟨k, hk, rfl⟩ := List.getElem_of_mem (List.mem_of_find?_eq_some hfind)
      exact ⟨⟨k, hk⟩, List.find?_some (p := fun r : Row => r.fits w) hfind, Except.ok.inj h⟩
    next => cases h
  · rintro ⟨k, hfits, rfl⟩
    unfold decode
    split
    next r hfind =>
      obtain ⟨j, hj, rfl⟩ := List.getElem_of_mem (List.mem_of_find?_eq_some hfind)
      have hfound := List.find?_some (p := fun r : Row => r.fits w) hfind
      have hjk : ⟨j, hj⟩ = k := noWordFitsTwoRows w ⟨j, hj⟩ k hfound hfits
      subst hjk
      rfl
    next hnone => exact absurd hfits (List.find?_eq_none.1 hnone _ (List.getElem_mem _))

/-! ### What the fields of a word stand for (R109) -/

theorem evenAddress_addrOfField (f : BitVec 15) : evenAddress (addrOfField f) = true := by
  have low : (f ++ 0#1).getLsbD 0 = false := by
    rw [BitVec.getLsbD_append]; rfl
  simp only [evenAddress, addrOfField, low, Bool.not_false]

theorem offsetFits_offsetOfField (size : Size) (k : BitVec 10) :
    offsetFits size (offsetOfField size k) = true := by
  have low : -512 ≤ k.toInt := BitVec.le_toInt k
  have high : k.toInt < 512 := BitVec.toInt_lt
  cases size with
  | word => simp only [offsetFits, offsetOfField]; exact decide_eq_true (by omega)
  | byte => simp only [offsetFits, offsetOfField]; exact decide_eq_true (by omega)

/-- The only offset register an operand code can name is the one it is given. -/
theorem operandOf_eq_idx {code : BitVec 3} {n b n' b' : Reg} (h : operandOf code n b = .idx n' b') :
    b' = b := by
  unfold operandOf at h
  split_ifs at h
  cases h
  rfl

/-- Two operands read with one Wb field share their offset register. -/
theorem sharedOffset_operandOf (c c' : BitVec 3) (n n' b : Reg) :
    sharedOffset (operandOf c n b) (operandOf c' n' b) = true := by
  unfold sharedOffset
  split
  next hsrc hdst => simp [operandOf_eq_idx hsrc, operandOf_eq_idx hdst]
  next => rfl

/-- Whatever the word, a row reads a well-formed instruction from it: an address made of its field is even,
two operands share the Wb field, an offset made of its field is in range; the other rows have no check. -/
theorem wellFormed_read : ∀ r ∈ rows, ∀ w, (r.read w).wellFormed = true := by
  have address := evenAddress_addrOfField
  have operands := sharedOffset_operandOf
  have offset := offsetFits_offsetOfField
  simp only [rows, List.forall_mem_cons]
  exact ⟨fun _ => rfl, fun _ => address _, fun _ => address _, fun _ => operands .., fun _ => offset ..,
    fun _ => offset .., fun _ => rfl, fun _ => rfl, fun _ => address _, fun _ => rfl, fun _ => rfl,
    fun _ => rfl, fun _ => rfl, fun _ => rfl, fun _ h => nomatch h⟩

/-- Settles O2: the instruction is what some row reads from the word. -/
theorem decodedInstructionIsWellFormed : Obligations.DecodedInstructionIsWellFormed := by
  unfold Obligations.DecodedInstructionIsWellFormed
  intro w i h
  obtain ⟨k, -, rfl⟩ := decode_eq_ok_iff.1 h
  exact wellFormed_read _ (List.getElem_mem _) w

/-! ### The fields of a packed word -/

/-- The number `packFields` makes a word of. -/
def fieldSum (fs : List (Nat × Nat)) : Nat := fs.foldr (fun f acc => f.2 * 2 ^ f.1 + acc) 0

theorem packFields_eq (fs : List (Nat × Nat)) : packFields fs = BitVec.ofNat 24 (fieldSum fs) := rfl

/-- The fields stand from high to low without overlap, below bit `n`. -/
def fieldsBelow (n : Nat) : List (Nat × Nat) → Prop
  | [] => True
  | (lo, v) :: fs => lo ≤ n ∧ v < 2 ^ (n - lo) ∧ fieldsBelow lo fs

theorem fieldSum_lt {n : Nat} {fs : List (Nat × Nat)} (h : fieldsBelow n fs) : fieldSum fs < 2 ^ n := by
  induction fs generalizing n with
  | nil => exact Nat.two_pow_pos n
  | cons f fs ih =>
    obtain ⟨hlo, hv, hfs⟩ := h
    calc f.2 * 2 ^ f.1 + fieldSum fs
      _ < f.2 * 2 ^ f.1 + 2 ^ f.1 := Nat.add_lt_add_left (ih hfs) _
      _ = (f.2 + 1) * 2 ^ f.1 := (Nat.succ_mul ..).symm
      _ ≤ 2 ^ (n - f.1) * 2 ^ f.1 := Nat.mul_le_mul_right _ hv
      _ = 2 ^ n := Nat.pow_sub_mul_pow 2 hlo

/-- A bit of a packed number lies in the first field or in the others. -/
theorem testBit_fieldSum_cons {lo v : Nat} {fs : List (Nat × Nat)} (h : fieldsBelow lo fs) (b : Nat) :
    (fieldSum ((lo, v) :: fs)).testBit b =
      if b < lo then (fieldSum fs).testBit b else v.testBit (b - lo) := by
  rw [← Nat.testBit_two_pow_mul_add v (fieldSum_lt h), Nat.mul_comm]
  rfl

theorem getElem_fieldAt_packFields {lo len : Nat} (fs : List (Nat × Nat)) (hin : lo + len ≤ 24) {i : Nat}
    (hi : i < len) : (fieldAt (packFields fs) lo len)[i] = (fieldSum fs).testBit (lo + i) := by
  have hbit : lo + i < 24 := by omega
  rw [packFields_eq, fieldAt]
  simp [← BitVec.getLsbD_eq_getElem, BitVec.getLsbD_ofNat, hbit, hi]

@[simp] theorem fieldAt_packFields_nil (lo len : Nat) :
    fieldAt (packFields []) lo len = 0#len := by
  simp [fieldAt, packFields]

/-- Nothing is packed above the first field. -/
@[simp] theorem fieldAt_packFields_above {lo lo' len v : Nat} {fs : List (Nat × Nat)}
    (h : fieldsBelow lo ((lo', v) :: fs)) (hin : lo + len ≤ 24) :
    fieldAt (packFields ((lo', v) :: fs)) lo len = 0#len := by
  ext i hi
  rw [getElem_fieldAt_packFields _ hin hi, BitVec.getElem_zero]
  have below : fieldSum ((lo', v) :: fs) < 2 ^ (lo + i) :=
    (fieldSum_lt h).trans_le (Nat.pow_le_pow_right (by decide) (Nat.le_add_right lo i))
  exact Nat.testBit_lt_two_pow below

/-- The first field is read back. -/
@[simp] theorem fieldAt_packFields_head {lo len v : Nat} {fs : List (Nat × Nat)}
    (h : fieldsBelow lo fs) (hin : lo + len ≤ 24) :
    fieldAt (packFields ((lo, v) :: fs)) lo len = BitVec.ofNat len v := by
  ext i hi
  rw [getElem_fieldAt_packFields _ hin hi, testBit_fieldSum_cons h, if_neg (by omega),
    Nat.add_sub_cancel_left, ← BitVec.getLsbD_eq_getElem, BitVec.getLsbD_ofNat, decide_eq_true hi,
    Bool.true_and]

/-- A field that lies below the first is read from the others. -/
@[simp] theorem fieldAt_packFields_tail {lo len lo' v : Nat} {fs : List (Nat × Nat)}
    (h : fieldsBelow lo' fs) (hlo : lo + len ≤ lo') (hin : lo + len ≤ 24) :
    fieldAt (packFields ((lo', v) :: fs)) lo len = fieldAt (packFields fs) lo len := by
  ext i hi
  rw [getElem_fieldAt_packFields _ hin hi, getElem_fieldAt_packFields _ hin hi,
    testBit_fieldSum_cons h, if_pos (by omega)]

/-! A register is read from a field of four bits. -/

@[simp] theorem regAt_packFields_head {lo : Nat} {r : Reg} {fs : List (Nat × Nat)}
    (h : fieldsBelow lo fs) (hin : lo + 4 ≤ 24) : regAt (packFields ((lo, r.val) :: fs)) lo = r := by
  simp [regAt, h, hin]

@[simp] theorem regAt_packFields_tail {lo lo' v : Nat} {fs : List (Nat × Nat)}
    (h : fieldsBelow lo' fs) (hlo : lo + 4 ≤ lo') (hin : lo + 4 ≤ 24) :
    regAt (packFields ((lo', v) :: fs)) lo = regAt (packFields fs) lo := by
  simp [regAt, h, hlo, hin]

@[simp] theorem fieldsBelow_nil (n : Nat) : fieldsBelow n [] := trivial

theorem fieldsBelow_cons_iff {n lo v len : Nat} (fs : List (Nat × Nat)) (hv : v < 2 ^ len)
    (hlen : lo + len ≤ n) : fieldsBelow n ((lo, v) :: fs) ↔ fieldsBelow lo fs :=
  have fits : v < 2 ^ (n - lo) := hv.trans_le (Nat.pow_le_pow_right (by decide) (by omega))
  ⟨fun ⟨_, _, hfs⟩ => hfs, fun hfs => ⟨by omega, fits, hfs⟩⟩

/-- A bit vector or a register fits a field of its own width. -/
@[simp] theorem fieldsBelow_cons_toNat {n lo len : Nat} (x : BitVec len) (fs : List (Nat × Nat))
    (hlen : lo + len ≤ n) : fieldsBelow n ((lo, x.toNat) :: fs) ↔ fieldsBelow lo fs :=
  fieldsBelow_cons_iff fs x.isLt hlen

@[simp] theorem fieldsBelow_cons_reg {n lo : Nat} (r : Reg) (fs : List (Nat × Nat))
    (hlen : lo + 4 ≤ n) : fieldsBelow n ((lo, r.val) :: fs) ↔ fieldsBelow lo fs :=
  fieldsBelow_cons_iff fs r.isLt hlen

/-! ### What the encoder's fields decode to -/

@[simp] theorem sizeOfBit_bitOfSize (size : Size) : sizeOfBit (bitOfSize size) = size := by
  cases size <;> rfl

@[simp] theorem accOfBit_bitOfAcc (acc : Acc) : accOfBit (bitOfAcc acc) = acc := by
  cases acc <;> rfl

theorem addrOfField_fieldOfAddr {f : Word} (h : evenAddress f = true) :
    addrOfField (fieldOfAddr f) = f := by
  have low : f.getLsbD 0 = false := by simpa [evenAddress] using h
  apply BitVec.eq_of_getLsbD_eq
  intro i hi
  rw [addrOfField, fieldOfAddr, BitVec.getLsbD_append]
  cases i with
  | zero => simpa using low.symm
  | succ i => simp [Nat.add_comm]; omega

/-- The mode code, the operand's register and Wb determine the operand; Wb counts for the indexed form only. -/
theorem operandOf_code {o : Operand} {b : Reg} (h : ∀ n b', o = .idx n b' → b' = b) :
    operandOf o.code o.main b = o := by
  cases o with
  | reg n => rfl
  | ptr m n => cases m <;> rfl
  | idx n b' => rw [h n b' rfl]; rfl

theorem eq_offsetReg_src {src dst : Operand} {n b : Reg} (h : src = .idx n b) :
    b = offsetReg src dst := by
  subst h
  rfl

theorem eq_offsetReg_dst {src dst : Operand} {n b : Reg} (hshared : sharedOffset src dst = true)
    (h : dst = .idx n b) : b = offsetReg src dst := by
  subst h
  cases src with
  | idx n' b' => exact (of_decide_eq_true hshared).symm
  | reg n' => rfl
  | ptr m n' => rfl

theorem offsetOfField_fieldOfOffset {size : Size} {k : Int} (h : offsetFits size k = true) :
    offsetOfField size (fieldOfOffset size k) = k := by
  cases size with
  | word =>
    have range := of_decide_eq_true h
    rw [offsetOfField, fieldOfOffset, BitVec.toInt_ofInt_eq_self] <;> omega
  | byte =>
    have range := of_decide_eq_true h
    rw [offsetOfField, fieldOfOffset, BitVec.toInt_ofInt_eq_self] <;> omega

/-- The literal-offset word packs the literal in three pieces, which make it up again. -/
theorem encodeOff_eq_packFields (op : Nat) (size : Size) (k : Int) (d s : Reg) :
    ∃ (a : BitVec 4) (b c : BitVec 3), a ++ (b ++ c) = fieldOfOffset size k ∧
      encodeOff op size k d s =
        packFields [(19, op), (15, a.toNat), (14, (bitOfSize size).toNat), (11, b.toNat), (7, d.val),
          (4, c.toNat), (0, s.val)] := by
  obtain ⟨x, hx⟩ : ∃ x, fieldOfOffset size k = x := ⟨_, rfl⟩
  have high : (x.extractLsb' 6 4).toNat = x.toNat / 64 := by
    rw [BitVec.extractLsb'_toNat, Nat.shiftRight_eq_div_pow]; omega
  have mid : (x.extractLsb' 3 3).toNat = x.toNat / 8 % 8 := by
    rw [BitVec.extractLsb'_toNat, Nat.shiftRight_eq_div_pow]
  have low : (x.extractLsb' 0 3).toNat = x.toNat % 8 := BitVec.extractLsb'_toNat ..
  refine ⟨x.extractLsb' 6 4, x.extractLsb' 3 3, x.extractLsb' 0 3, ?pieces, ?word⟩
  case pieces =>
    have lowHalf : x.extractLsb' 3 3 ++ x.extractLsb' 0 3 = x.extractLsb' 0 6 :=
      BitVec.extractLsb'_append_extractLsb'_eq_extractLsb' (by rfl)
    have all : x.extractLsb' 6 4 ++ x.extractLsb' 0 6 = x.extractLsb' 0 10 :=
      BitVec.extractLsb'_append_extractLsb'_eq_extractLsb' (by rfl)
    exact (congrArg _ lowHalf).trans (all.trans (BitVec.extractLsb'_eq_self.trans hx.symm))
  case word => simp only [encodeOff, hx, high, mid, low]

/-- One row to check for each instruction: the word fits it and the row reads the instruction. -/
theorem decode_of_row {w : InsnWord} {i : Instr} (k : Nat) (r : Row) (hk : rows[k]? = some r)
    (hfits : r.fits w = true) (hread : r.read w = i) : decode w = .ok i := by
  obtain ⟨hlt, rfl⟩ := List.getElem?_eq_some_iff.1 hk
  exact decode_eq_ok_iff.2 ⟨⟨k, hlt⟩, hfits, hread⟩

/-- Settles O1: for each instruction the row it is written by, the row's fixed bits in the packed word, and the
fields the row reads from it. -/
theorem decodeOfEncodeGivesTheInstruction : Obligations.DecodeOfEncodeGivesTheInstruction := by
  unfold Obligations.DecodeOfEncodeGivesTheInstruction
  intro i h
  cases i with
  | movLit lit d => exact decode_of_row 0 _ rfl (by simp [Row.fits, encode]) (by simp [encode])
  | movLoad f d =>
    exact decode_of_row 1 _ rfl (by simp [Row.fits, encode])
      (by simp [encode, addrOfField_fieldOfAddr h])
  | movStore s f =>
    exact decode_of_row 2 _ rfl (by simp [Row.fits, encode])
      (by simp [encode, addrOfField_fieldOfAddr h])
  | mov size src dst =>
    have hsrc : operandOf src.code src.main (offsetReg src dst) = src :=
      operandOf_code fun _ _ => eq_offsetReg_src
    have hdst : operandOf dst.code dst.main (offsetReg src dst) = dst :=
      operandOf_code fun _ _ => eq_offsetReg_dst h
    exact decode_of_row 3 _ rfl (by simp [Row.fits, encode]) (by simp [encode, hsrc, hdst])
  | movLoadOff size s k d =>
    obtain ⟨a, b, c, hlit, hword⟩ := encodeOff_eq_packFields 0b10010 size k d s
    exact decode_of_row 4 _ rfl (by simp [Row.fits, encode, hword])
      (by simp [encode, hword, slitAt, hlit, offsetOfField_fieldOfOffset h])
  | movStoreOff size s d k =>
    obtain ⟨a, b, c, hlit, hword⟩ := encodeOff_eq_packFields 0b10011 size k d s
    exact decode_of_row 5 _ rfl (by simp [Row.fits, encode, hword])
      (by simp [encode, hword, slitAt, hlit, offsetOfField_fieldOfOffset h])
  | nop => rfl
  | repeatLit lit => exact decode_of_row 7 _ rfl (by simp [Row.fits, encode]) (by simp [encode])
  | pop f =>
    exact decode_of_row 8 _ rfl (by simp [Row.fits, encode])
      (by simp [encode, addrOfField_fieldOfAddr h])
  | ret => rfl
  | retfie => rfl
  | retlw size lit d =>
    exact decode_of_row 11 _ rfl (by simp [Row.fits, encode]) (by simp [encode])
  | ulnk => rfl
  | mac m acc x y i j wb =>
    exact decode_of_row 13 _ rfl (by simp [Row.fits, encode]) (by simp [encode])

/-- Settles O4: the decoder run on each of the words. -/
theorem printedWordsDecode : Obligations.PrintedWordsDecode := by
  unfold Obligations.PrintedWordsDecode
  exact ⟨rfl, rfl, rfl, rfl, rfl, rfl, rfl, rfl⟩

end Sys2Proof
end

section
/-! The statements without a data-space access: a literal load and NOP complete in every state, and the four
instructions the source only names are refused and still count as reads through every register. -/

namespace Sys2Proof

/-- An implicit read, whose pointer may be any register, is an indirect read (R224). -/
theorem Instr.indirectRead_of_readPointers_all {i : Instr} {p : Params}
    (h : i.readPointers p = List.finRange 16) : i.indirectRead p = true := by
  have someRegister : (List.finRange 16).isEmpty = false := by decide
  rw [Instr.indirectRead, h, someRegister]
  rfl

namespace Machine

/-- Settles O31: the arm of `exec` has neither a read nor a condition, so it is this equation. -/
theorem movLiteralLoadsTheLiteral : Obligations.MovLiteralLoadsTheLiteral := by
  unfold Obligations.MovLiteralLoadsTheLiteral
  intro s lit d
  rfl

/-- Settles O45: NOP is `closeWindow` alone, which updates one field. -/
theorem nopOnlyEmptiesTheHazardWindow : Obligations.NopOnlyEmptiesTheHazardWindow := by
  unfold Obligations.NopOnlyEmptiesTheHazardWindow
  intro s
  have completes : exec .nop s = .next s.closeWindow := rfl
  rw [completes, State.closeWindow]

/-- Settles O49: each refusal is the arm of `exec`; each classification comes from the pointer the source does
not name. -/
theorem instructionsOnlyNamedStop : Obligations.InstructionsOnlyNamedStop := by
  unfold Obligations.InstructionsOnlyNamedStop
  intro s size lit d
  exact ⟨rfl, rfl, rfl, rfl,
    Instr.indirectRead_of_readPointers_all rfl, Instr.indirectRead_of_readPointers_all rfl,
    Instr.indirectRead_of_readPointers_all rfl, Instr.indirectRead_of_readPointers_all rfl⟩

end Machine

end Sys2Proof
end

section
/-! Reset: a predicate of R43 needs its enable bit, and power-on reset leaves all three bits clear (R28, R29,
R39). -/

namespace Sys2Proof.Machine

/-! ### The enable bits -/

theorem xModActive_of_xmoden_clear {s : State} (h : s.xmoden = false) (n : Reg) :
    xModActive s n = false := by
  simp only [xModActive, h, Bool.false_and]

theorem yModActive_of_ymoden_clear {s : State} (h : s.ymoden = false) (n : Reg) :
    yModActive s n = false := by
  simp only [yModActive, h, Bool.false_and]

theorem bitRevActive_of_bren_clear {s : State} (h : s.bren = false) (n : Reg) :
    bitRevActive s n = false := by
  simp only [bitRevActive, h, Bool.false_and]

@[simp] theorem xmoden_reset : State.reset.xmoden = false := by decide
@[simp] theorem ymoden_reset : State.reset.ymoden = false := by decide
@[simp] theorem bren_reset : State.reset.bren = false := by decide

/-! ### The state at reset -/

/-- Settles O10: the values are fields of `State.reset`; no addressing but the plain one is active because
each enable bit is clear, whichever register is selected. -/
theorem resetGivesThePorValues : Obligations.ResetGivesThePorValues := by
  unfold Obligations.ResetGivesThePorValues
  refine ⟨rfl, rfl, rfl, rfl, rfl, rfl, rfl, rfl, fun n => ⟨?xModulo, ?yModulo, ?bitReversed⟩⟩
  case xModulo => exact xModActive_of_xmoden_clear xmoden_reset n
  case yModulo => exact yModActive_of_ymoden_clear ymoden_reset n
  case bitReversed => exact bitRevActive_of_bren_clear bren_reset n

end Sys2Proof.Machine
end

section
/-! What a statement that completes did, in one form for all fourteen instructions: the state after its reads,
a write of its own or none, and then its register updates or the trap. The invariant, the step and the frames
are settled from it. -/

namespace Sys2Proof.Machine

/-! ### The outcome of a statement -/

/-- The state after the write phase: nothing has been written over `c`, or the statement's own write has been
made at its target. -/
def afterWrite (i : Instr) (s c r : State) : Prop :=
  r = c ∨ ∃ size ea v p, storeTarget i s = some (size, ea) ∧ wr c size ea v = .next p ∧ r = p.s

/-- The end of a statement after its write phase `r`: it commits updates of registers it may update, or takes
the trap; the trap of its write, or of a statement that makes none, leaves no write. -/
def statementEnd (i : Instr) (s c r t : State) : Prop :=
  (∃ us : Updates, (∀ u ∈ us, u.1 ∈ updatedRegs i s.par) ∧ t = commit r us) ∨
    ∃ e, t = raiseAddressError r e (namedRegs i s.par) ∧
      (e.kind = .write ∨ storeTarget i s = none → r = c)

/-- A register form ends without a write. -/
theorem statementEnd_of_finishRegs {i : Instr} {s c t : State} {f : Fetched} {us : Updates}
    (hus : ∀ u ∈ us, u.1 ∈ updatedRegs i s.par)
    (hf : f.err = none → ∀ u ∈ f.ups, u.1 ∈ updatedRegs i s.par)
    (h : finishRegs c f us (namedRegs i s.par) = .next t) : statementEnd i s c c t := by
  rcases finishRegs_cases h with ⟨he, rfl⟩ | ⟨e, -, rfl⟩
  · exact .inl ⟨_, fun u hu => (List.mem_append.1 hu).elim (hf he u) (hus u), rfl⟩
  · exact .inr ⟨e, rfl, fun _ => rfl⟩

/-- A storing form ends after its write, or in the trap of the read with the write made or not, or in the trap
of the write with nothing written. -/
theorem statementEnd_of_finishStore {i : Instr} {s c t : State} {size : Size} {ea : Word} {p : Part Fetched}
    {us : Updates} (htarget : storeTarget i s = some (size, ea))
    (hus : ∀ u ∈ us, u.1 ∈ updatedRegs i s.par)
    (hp : ∀ f, p = .next f → (∀ e, f.err = some e → e.kind = .read) ∧
      (f.err = none → ∀ u ∈ f.ups, u.1 ∈ updatedRegs i s.par))
    (h : finishStore c size ea p us (namedRegs i s.par) = .next t) :
    ∃ r, afterWrite i s c r ∧ statementEnd i s c r t := by
  rcases finishStore_cases h with ⟨f, hf, he, r, hr, -, rfl⟩ | rfl | ⟨f, e, hf, he, hw⟩
  · refine ⟨r.s, .inr ⟨size, ea, f.v, r, htarget, hr, rfl⟩, .inl ⟨_, fun u hu => ?_, rfl⟩⟩
    exact (List.mem_append.1 hu).elim ((hp f hf).2 he u) (hus u)
  · exact ⟨c, .inl rfl, .inr ⟨_, rfl, fun _ => rfl⟩⟩
  · have notWrite : ¬ (e.kind = .write ∨ storeTarget i s = none) := by
      rw [(hp f hf).1 e he, htarget]; simp
    rcases hw with rfl | ⟨r, hr, rfl⟩
    · exact ⟨c, .inl rfl, .inr ⟨e, rfl, fun _ => rfl⟩⟩
    · exact ⟨r.s, .inr ⟨size, ea, f.v, r, htarget, hr, rfl⟩, .inr ⟨e, rfl, fun h => absurd h notWrite⟩⟩

/-- What a statement that answers a next state did: REPEAT armed the count, and every other went through its
reads, its write phase and its end. -/
theorem exec_outcome {i : Instr} {s t : State} (h : exec i s = .next t) :
    (∃ lit, i = .repeatLit lit ∧ s.rep = 0 ∧ t = { s.closeWindow with rep := lit.toNat }) ∨
      ∃ c r, afterReads i s c ∧ afterWrite i s c r ∧ statementEnd i s c r t := by
  rcases exec_cases h with ⟨lit, d, rfl, rfl⟩ | ⟨rfl, rfl⟩ | hrepeat | ⟨c, us, hc, hus, hend⟩
  · exact .inr ⟨_, _, .inl ⟨rfl, rfl⟩, .inl rfl,
      .inl ⟨[(d, lit)], by simp [updatedRegs], (commit_one _ _ _).symm⟩⟩
  · exact .inr ⟨_, _, .inl ⟨rfl, rfl⟩, .inl rfl, .inl ⟨[], by simp, rfl⟩⟩
  · exact .inl hrepeat
  · refine .inr ?_
    rcases hend with ⟨-, f, hf, -, hups⟩ | ⟨size, ea, p, htarget, hp, hreads⟩
    · exact ⟨c, c, hc, .inl rfl, statementEnd_of_finishRegs hus hups hf⟩
    · obtain ⟨r, hr, ht⟩ := statementEnd_of_finishStore htarget hus hreads hp
      exact ⟨c, r, hc, hr, ht⟩

/-! ### What each phase leaves alone -/

theorem sameFrame_trans {s t u : State} (h : sameFrame s t) (h' : sameFrame t u) : sameFrame s u := by
  obtain ⟨h1, h2, h3, h4⟩ := h
  obtain ⟨k1, k2, k3, k4⟩ := h'
  exact ⟨k1.trans h1, k2.trans h2, k3.trans h3, k4.trans h4⟩

/-- Updates of registers and the trap leave the frame alone. -/
theorem sameFrame_commit (s : State) (us : Updates) : sameFrame s (commit s us) := by simp [sameFrame]

theorem sameFrame_raise (s : State) (e : AddressError) (ns : List Reg) :
    sameFrame s (raiseAddressError s e ns) := by simp [sameFrame]

/-- The write phase leaves the registers, the accumulators, the fault mark, the count and the frame alone. -/
theorem afterWrite_keeps {i : Instr} {s c r : State} (h : afterWrite i s c r) :
    r.regs = c.regs ∧ (∀ acc, r.acc acc = c.acc acc) ∧ r.fault = c.fault ∧ r.rep = c.rep ∧
      sameFrame c r := by
  rcases h with rfl | ⟨size, ea, v, p, -, hp, rfl⟩
  · exact ⟨rfl, fun _ => rfl, rfl, rfl, rfl, rfl, rfl, rfl⟩
  · obtain ⟨hregs, hA, hB, hfault, hrep, hframe⟩ := wr_keeps hp
    exact ⟨hregs, fun acc => by cases acc <;> assumption, hfault, hrep, hframe⟩

theorem statementEnd_sameFrame {i : Instr} {s c r t : State} (h : statementEnd i s c r t) :
    sameFrame r t := by
  rcases h with ⟨us, -, rfl⟩ | ⟨e, rfl, -⟩
  · exact sameFrame_commit r us
  · exact sameFrame_raise r e _

/-- No statement's meaning touches the frame: index, text, parameters, draw counter. -/
theorem exec_sameFrame {i : Instr} {s t : State} (h : exec i s = .next t) : sameFrame s t := by
  rcases exec_outcome h with ⟨lit, -, -, rfl⟩ | ⟨c, r, hc, hr, ht⟩
  · exact ⟨rfl, rfl, rfl, rfl⟩
  · obtain ⟨-, -, -, -, -, -, hreads, -⟩ := afterReads_keeps hc
    obtain ⟨-, -, -, -, hwrite⟩ := afterWrite_keeps hr
    exact sameFrame_trans hreads (sameFrame_trans hwrite (statementEnd_sameFrame ht))

/-- Settles O13: `exec` leaves text and parameters alone, and `advance` moves the index and the counters. -/
theorem stepKeepsProgramTextAndParameters : Obligations.StepKeepsProgramTextAndParameters := by
  unfold Obligations.StepKeepsProgramTextAndParameters
  intro s t h
  obtain ⟨-, w, i, u, -, -, hexec, rfl⟩ := step_eq_next h
  obtain ⟨-, hprog, hpar, -⟩ := exec_sameFrame hexec
  exact ⟨(advance_prog s u).trans hprog, (advance_par s u).trans hpar⟩

/-! ### The invariant -/

/-- The fixed bits are fixed once (R30, R35 to R38). -/
theorem fix_fix (r : CtrlReg) (v : Word) : r.fix (r.fix v) = r.fix v := by
  cases r <;> simp [CtrlReg.fix, BitVec.and_assoc, BitVec.or_assoc]

/-- The invariant reads memory, the parameters, the control registers, the window and the count alone. -/
theorem inv_congr {s t : State} (h : Inv s) (hmem : t.mem = s.mem) (hpar : t.par = s.par)
    (hctrl : sameCtrl s t) (hhaz : t.haz.length ≤ 1) (hrep : t.rep < 2 ^ 14) : Inv t := by
  obtain ⟨hwf, hram, hfixed, -, -⟩ := h
  refine ⟨by rwa [hmem], ?_, fun r => by rw [hctrl r]; exact hfixed r, hhaz, hrep⟩
  unfold ramOnly
  rw [hmem, hpar]
  exact hram

/-- A byte address is not below its word's. -/
theorem wordAddr_toNat_le (a : Word) : (wordAddr a).toNat ≤ a.toNat := by
  unfold wordAddr
  rw [BitVec.toNat_and]
  exact Nat.and_le_left

/-- A byte stored in RAM keeps the invariant. -/
theorem inv_setByte {s : State} {a : Word} (h : Inv s) (ram : inRam s a) (b : Byte) :
    Inv (s.setByte a b) := by
  obtain ⟨hwf, hram, hfixed, hhaz, hrep⟩ := h
  obtain ⟨hlow, himpl⟩ := impl_of_inRam ram
  refine ⟨wf_setByte s a b hwf, fun c hc => ?_, fun r => ?_, hhaz, hrep⟩
  · rcases Memory.mem_write _ _ _ _ hc with rfl | hc
    · exact ⟨hlow.trans (wordAddr_toNat_le a), a.isLt, by simpa using himpl⟩
    · exact hram c hc
  · rw [setByte_ctrl]; exact hfixed r

/-- So does an aligned word, which is two bytes of RAM. -/
theorem inv_setWord {s : State} {a : Word} (h : Inv s) (aligned : misaligned a = false) (ram : inRam s a)
    (v : Word) : Inv (s.setWord a v) := by
  rw [setWord_eq_setByte s v aligned]
  exact inv_setByte (inv_setByte h ram _) ((inRam_succ_of_aligned aligned).2 ram) _

/-- A control register written over an empty window keeps it: the window then holds that register alone. -/
theorem inv_writeCtrl {s : State} (h : Inv s) (hempty : s.haz = []) (r : CtrlReg) (v : Word) :
    Inv (s.writeCtrl r v) := by
  obtain ⟨hwf, hram, hfixed, -, hrep⟩ := h
  refine ⟨by rwa [writeCtrl_mem], ?_, fun r' => ?_, by simp [hempty], by rwa [writeCtrl_rep]⟩
  · unfold ramOnly
    rw [writeCtrl_mem, writeCtrl_par]
    exact hram
  · rw [writeCtrl_ctrl]
    by_cases e : r' = r
    · rw [e, setCtrl_ctrl_same, fix_fix]
    · rw [setCtrl_ctrl_other s r r' v e]; exact hfixed r'

/-- A write over an empty window keeps the invariant. -/
theorem inv_wr {s : State} {size : Size} {ea v : Word} {p : Put} (h : Inv s) (hempty : s.haz = [])
    (hp : wr s size ea v = .next p) : Inv p.s := by
  rcases wr_cases hp with rfl | ⟨ram, ⟨-, aligned, rfl⟩ | ⟨-, rfl⟩⟩ | ⟨-, c, x, -, rfl⟩
  · exact h
  · exact inv_setWord h aligned ram v
  · exact inv_setByte h ram _
  · exact inv_writeCtrl h hempty c x

theorem inv_afterReads {i : Instr} {s c : State} (h : Inv s) (hc : afterReads i s c) :
    Inv c ∧ c.haz = [] := by
  obtain ⟨-, hmem, hctrl, hhaz, -, hrep, ⟨-, -, hpar, -⟩, -⟩ := afterReads_keeps hc
  refine ⟨inv_congr h hmem hpar hctrl (by rw [hhaz]; exact Nat.zero_le 1) ?_, hhaz⟩
  have ⟨_, _, _, _, hcount⟩ := h
  rwa [hrep]

theorem inv_afterWrite {i : Instr} {s c r : State} (h : Inv c) (hempty : c.haz = [])
    (hr : afterWrite i s c r) : Inv r := by
  rcases hr with rfl | ⟨size, ea, v, p, -, hp, rfl⟩
  · exact h
  · exact inv_wr h hempty hp

theorem inv_statementEnd {i : Instr} {s c r t : State} (h : Inv r) (ht : statementEnd i s c r t) :
    Inv t := by
  have ⟨_, _, _, hhaz, hrep⟩ := h
  rcases ht with ⟨us, -, rfl⟩ | ⟨e, rfl, -⟩
  · exact inv_congr h (commit_mem r us) (commit_par r us) (commit_ctrl r us) (by rwa [commit_haz])
      (by rwa [commit_rep])
  · refine inv_congr h (raise_mem r e _) (raise_par r e _) (raise_ctrl r e _) (by rwa [raise_haz]) ?_
    rcases raise_rep r e (namedRegs i s.par) with hz | hk
    · rw [hz]; decide
    · rwa [hk]

/-- Every statement's meaning keeps the invariant. -/
theorem exec_keeps_inv {i : Instr} {s t : State} (h : Inv s) (hexec : exec i s = .next t) : Inv t := by
  rcases exec_outcome hexec with ⟨lit, -, -, rfl⟩ | ⟨c, r, hc, hr, ht⟩
  · exact inv_congr h rfl rfl (closeWindow_ctrl s) (Nat.zero_le 1) lit.isLt
  · obtain ⟨hinv, hempty⟩ := inv_afterReads h hc
    exact inv_statementEnd (inv_afterWrite hinv hempty hr) ht

/-- Moving past a statement keeps the invariant: a pending count only falls. -/
theorem inv_advance {s t : State} (hs : Inv s) (ht : Inv t) : Inv (advance s t) := by
  have ⟨_, _, _, _, hsrep⟩ := hs
  have ⟨_, _, _, hthaz, htrep⟩ := ht
  refine inv_congr ht (advance_mem s t) (advance_par s t) (advance_ctrl s t) (by rwa [advance_haz]) ?_
  unfold advance
  split
  · exact htrep
  · split
    · exact htrep
    · exact lt_of_le_of_lt (Nat.sub_le s.rep 1) hsrep

/-- Settles O12: the meaning keeps the invariant and so does moving on. -/
theorem stepKeepsTheInvariant : Obligations.StepKeepsTheInvariant := by
  unfold Obligations.StepKeepsTheInvariant
  intro s t hinv hstep
  obtain ⟨-, w, i, u, -, -, hexec, rfl⟩ := step_eq_next hstep
  exact inv_advance hinv (exec_keeps_inv hinv hexec)

/-- Settles O11: no byte holds a value, the window is empty and each register has its fixed bits. -/
theorem invariantHoldsAtReset : Obligations.InvariantHoldsAtReset := by
  unfold Obligations.InvariantHoldsAtReset
  have noByte : ramOnly State.reset := fun c hc => absurd hc List.not_mem_nil
  have fixed : fixedBits State.reset := fun r => by cases r <;> decide
  exact ⟨wf_reset, noByte, fixed, Nat.zero_le 1, by decide⟩

end Sys2Proof.Machine
end

section
/-! Moving past a statement: the three cases of `advance`, the states from which no statement runs, and the
executions that a pending REPEAT count asks for. -/

namespace Sys2Proof.Machine

/-! ### advance -/

theorem advance_passes {s t : State} (hfault : t.fault = none) (hrep : s.rep = 0) :
    advance s t = { t with pc := s.pc + 1, draws := s.draws + 1 } := by
  simp [advance, hfault, hrep]

theorem advance_repeats {s t : State} {k : Nat} (hfault : t.fault = none) (hrep : s.rep = k + 1) :
    advance s t = { t with rep := k, draws := s.draws + 1 } := by
  simp [advance, hfault, hrep]

theorem advance_trapped {s t : State} {e : AddressError} (hfault : t.fault = some e) :
    advance s t = { t with draws := s.draws + 1 } := by
  simp [advance, hfault]

/-- Settles O6: the three cases of `advance`. -/
theorem statementIndexAfterAStep : Obligations.StatementIndexAfterAStep := by
  unfold Obligations.StatementIndexAfterAStep
  intro s t
  exact ⟨advance_passes, fun k => advance_repeats, fun e => advance_trapped⟩

/-! ### States from which no statement runs -/

/-- Settles O7: the mark answers before anything is fetched. -/
theorem markedStateTakesNoStep : Obligations.MarkedStateTakesNoStep := by
  unfold Obligations.MarkedStateTakesNoStep
  intro s e hfault
  have outcome : trapOutcome s = some (.addressError e) := by rw [trapOutcome, hfault]; rfl
  rw [step, outcome]

/-- Settles O8: there is no word to fetch past the end of the text. -/
theorem runEndsPastTheLastStatement : Obligations.RunEndsPastTheLastStatement := by
  unfold Obligations.RunEndsPastTheLastStatement
  intro s hfault hend
  have nothing : s.fetch = none := List.getElem?_eq_none hend
  have unmarked : trapOutcome s = none := by rw [trapOutcome, hfault]; rfl
  rw [step, unmarked]
  simp only [runCurrent, nothing]

/-! ### The executions of a repeated statement (R216) -/

/-- A statement other than REPEAT that takes no trap leaves the count. -/
theorem exec_keeps_rep {i : Instr} {s t : State} (hi : ∀ lit, i ≠ .repeatLit lit) (h : exec i s = .next t)
    (hfault : t.fault = none) : t.rep = s.rep := by
  rcases exec_outcome h with ⟨lit, e, -⟩ | ⟨c, r, hc, hr, ⟨us, -, rfl⟩ | ⟨e, rfl, -⟩⟩
  · exact absurd e (hi lit)
  · obtain ⟨-, -, -, -, -, hreads, -⟩ := afterReads_keeps hc
    obtain ⟨-, -, -, hwrite, -⟩ := afterWrite_keeps hr
    rw [commit_rep, hwrite, hreads]
  · rw [raise_fault] at hfault; cases hfault

/-- One more execution begins with a step. -/
theorem run_succ_eq_next {k : Nat} {s u : State} :
    Host.Core.run core (k + 1) s = .next u ↔
      ∃ s', step s = .next s' ∧ Host.Core.run core k s' = .next u := by
  cases hs : step s with
  | next s' =>
    have hc : core.step s = .next s' := hs
    simp only [Host.Core.run, hc]
    exact ⟨fun h => ⟨s', rfl, h⟩, fun ⟨_, hs', h⟩ => by cases hs'; exact h⟩
  | fault r =>
    have hc : core.step s = .fault r := hs
    simp only [Host.Core.run, hc]
    exact ⟨nofun, nofun⟩
  | refused r =>
    have hc : core.step s = .refused r := hs
    simp only [Host.Core.run, hc]
    exact ⟨nofun, nofun⟩

/-- A run that ends unmarked was unmarked from its first state on. -/
theorem fault_none_of_run {k : Nat} {s u : State} (h : Host.Core.run core k s = .next u)
    (hu : u.fault = none) : s.fault = none := by
  cases k with
  | zero => cases h; exact hu
  | succ k =>
    obtain ⟨s', hstep, -⟩ := run_succ_eq_next.1 h
    exact (step_eq_next hstep).1

/-- What one execution of the current statement, none but REPEAT, leaves without a trap: past the statement when
no count was pending, at it with one execution less otherwise. -/
theorem step_repeated {s s' : State} {w : InsnWord} {i : Instr} (hfault : s.fault = none)
    (hfetch : s.fetch = some w) (hdecode : decode w = .ok i) (hi : ∀ lit, i ≠ .repeatLit lit)
    (hstep : step s = .next s') (hfault' : s'.fault = none) :
    (s.rep = 0 → s'.pc = s.pc + 1 ∧ s'.rep = 0) ∧
      ∀ k, s.rep = k + 1 → s'.pc = s.pc ∧ s'.rep = k ∧ s'.fetch = some w := by
  rw [step_of_decode hfault hfetch hdecode] at hstep
  obtain ⟨t, hexec, hs'⟩ := andThen_eq_next hstep
  cases hs'
  rw [advance_fault] at hfault'
  have hrep := exec_keeps_rep hi hexec hfault'
  obtain ⟨hpc, hprog, -, -⟩ := exec_sameFrame hexec
  refine ⟨fun h0 => ?_, fun k hk => ?_⟩
  · rw [advance_passes hfault' h0]
    exact ⟨rfl, hrep.trans h0⟩
  · rw [advance_repeats hfault' hk]
    exact ⟨hpc, rfl, by rw [← hfetch]; simp only [State.fetch, hpc, hprog]⟩

/-- Where the machine stands after `j` executions, by induction on them. -/
theorem run_repeated {w : InsnWord} {i : Instr} (hdecode : decode w = .ok i)
    (hi : ∀ lit, i ≠ .repeatLit lit) {j : Nat} {s u : State} (hfetch : s.fetch = some w)
    (hrun : Host.Core.run core j s = .next u) (hu : u.fault = none) :
    (j ≤ s.rep → u.pc = s.pc ∧ u.rep = s.rep - j) ∧ (j = s.rep + 1 → u.pc = s.pc + 1 ∧ u.rep = 0) := by
  induction j generalizing s with
  | zero => cases hrun; exact ⟨fun _ => ⟨rfl, rfl⟩, fun h => by omega⟩
  | succ j ih =>
    have hfault := fault_none_of_run hrun hu
    obtain ⟨s', hstep, hrest⟩ := run_succ_eq_next.1 hrun
    obtain ⟨hlast, hagain⟩ := step_repeated hfault hfetch hdecode hi hstep (fault_none_of_run hrest hu)
    cases hr : s.rep with
    | zero =>
      refine ⟨fun h => by omega, fun h => ?_⟩
      obtain rfl : j = 0 := by omega
      cases hrest
      exact hlast hr
    | succ k =>
      obtain ⟨hpc, hrep, hfetch'⟩ := hagain k hr
      obtain ⟨hwithin, hpast⟩ := ih hfetch' hrest
      rw [hpc, hrep] at hwithin hpast
      refine ⟨fun h => ?_, fun h => hpast (by omega)⟩
      obtain ⟨h1, h2⟩ := hwithin (by omega)
      exact ⟨h1, by omega⟩

/-- A statement that completes in every state and leaves the mark, the count, the index and the text alone. -/
def alwaysCompletes (i : Instr) : Prop :=
  ∀ u : State, ∃ t, exec i u = .next t ∧ t.fault = u.fault ∧ t.rep = u.rep ∧ t.pc = u.pc ∧
    t.prog = u.prog

/-- All the executions of such a statement happen, by induction on the count. -/
theorem run_alwaysCompletes {w : InsnWord} {i : Instr} (hdecode : decode w = .ok i)
    (hall : alwaysCompletes i) {k : Nat} {s : State} (hk : s.rep = k) (hfault : s.fault = none)
    (hfetch : s.fetch = some w) :
    ∃ u, Host.Core.run core (k + 1) s = .next u ∧ u.pc = s.pc + 1 ∧ u.rep = 0 := by
  induction k generalizing s with
  | zero =>
    obtain ⟨t, hexec, hf, hrep, -, -⟩ := hall s
    have hstep : step s = .next (advance s t) := by
      rw [step_of_decode hfault hfetch hdecode, hexec, andThen_next]
    rw [advance_passes (hf.trans hfault) hk] at hstep
    exact ⟨_, run_succ_eq_next.2 ⟨_, hstep, rfl⟩, rfl, hrep.trans hk⟩
  | succ k ih =>
    obtain ⟨t, hexec, hf, -, hpc, hprog⟩ := hall s
    have hstep : step s = .next (advance s t) := by
      rw [step_of_decode hfault hfetch hdecode, hexec, andThen_next]
    rw [advance_repeats (hf.trans hfault) hk] at hstep
    have hfetch' : State.fetch { t with rep := k, draws := s.draws + 1 } = some w := by
      rw [← hfetch]; simp only [State.fetch, hpc, hprog]
    obtain ⟨u, hrun, hupc, hurep⟩ :=
      ih (s := { t with rep := k, draws := s.draws + 1 }) rfl (hf.trans hfault) hfetch'
    exact ⟨u, run_succ_eq_next.2 ⟨_, hstep, hrun⟩, by rw [hupc, hpc], hurep⟩

/-- Settles O9: the two inductions, over the executions and over the count. -/
theorem repeatedStatementRunsCountPlusOneTimes : Obligations.RepeatedStatementRunsCountPlusOneTimes := by
  unfold Obligations.RepeatedStatementRunsCountPlusOneTimes
  intro s w i hfault hfetch hdecode
  exact ⟨fun hi j u hrun hu => run_repeated hdecode hi hfetch hrun hu,
    fun hall => run_alwaysCompletes hdecode hall rfl hfault hfetch⟩

/-! ### REPEAT -/

/-- Settles O46: the arm of `exec` where no count is pending. -/
theorem repeatArmsTheCount : Obligations.RepeatArmsTheCount := by
  unfold Obligations.RepeatArmsTheCount
  intro s lit h
  exact if_pos h

/-- Settles O47: the arm of `exec` where a count is pending. -/
theorem nestedRepeatIsRefused : Obligations.NestedRepeatIsRefused := by
  unfold Obligations.NestedRepeatIsRefused
  intro s lit h
  exact if_neg h

end Sys2Proof.Machine
end

section
/-! The access primitives at bytes, odd addresses, the wrong space and control registers, and the direct moves
between a W register and an address: what they read, store, refuse, and leave in the hazard window. -/

namespace Sys2Proof.Machine

/-! ### Bytes of RAM -/

/-- The map is a parameter, so a byte stored moves no address in or out of RAM. -/
theorem inRam_setByte {s : State} {a k : Word} {b : Byte} : inRam (s.setByte a b) k ↔ inRam s k := by
  rw [inRam, inRam, setByte_par]

/-- Settles O15: the read goes through the byte the written state holds. -/
theorem byteWriteChangesOneByte : Obligations.ByteWriteChangesOneByte := by
  unfold Obligations.ByteWriteChangesOneByte
  intro s a b ram
  have held : holdsByte (s.setByte a b) a b := ⟨inRam_setByte.2 ram, byteAt_setByte_same s a b⟩
  exact ⟨s.setByte a b, wrB_inRam ram, rdB_holdsByte held, fun k hk => byteAt_setByte_other s a k b hk⟩

/-! ### The wrong space, odd addresses, RAM without a value -/

theorem rdX_ySpace {s : State} {a : Word} (h : region s.par a = .y) :
    rdX s a = .next ⟨0#16, misaligned a⟩ := by simp only [rdX, h]

theorem rdY_xSpace {s : State} {a : Word} (h : region s.par a = .x ∨ region s.par a = .sfr) :
    rdY s a = .next ⟨0#16, misaligned a⟩ := by
  rcases h with h | h <;> simp only [rdY, h]

/-- Settles O16: each read delivers zero and traps only where it is misaligned. -/
theorem dspReadOfTheWrongSpaceIsZero : Obligations.DspReadOfTheWrongSpaceIsZero := by
  unfold Obligations.DspReadOfTheWrongSpaceIsZero
  intro s a aligned
  refine ⟨fun h => ?_, fun h => ?_⟩
  · rw [rdX_ySpace h, aligned]
  · rw [rdY_xSpace h, aligned]

/-- In RAM a word read is the read of the aligned word (R67, R120). -/
theorem rdW_inRam {s : State} {a : Word} (h : inRam s a) :
    rdW s a = ramWord s (wordAddr a) (misaligned a) := by
  rcases h with h | h <;> simp only [rdW, h]

/-- Settles O18: the read is the aligned word's with the trap, the write is not made. -/
theorem misalignedWordReadCompletesAndTraps : Obligations.MisalignedWordReadCompletesAndTraps := by
  unfold Obligations.MisalignedWordReadCompletesAndTraps
  intro s a v x odd
  refine ⟨fun ram hv => ?_, fun ram => ?_, ?_⟩
  · rw [rdW_inRam ram, odd]; simp only [ramWord, hv]
  · exact rdW_wordReadTraps (.inr ⟨odd, .inl (by rcases ram with h | h <;> rw [h] <;> nofun)⟩)
  · simp only [wrW, odd, if_true]

/-- Settles O60: the read is `ramWord`'s, whose word holds no value and which takes no trap. -/
theorem readOfUnwrittenRamFaults : Obligations.ReadOfUnwrittenRamFaults := by
  unfold Obligations.ReadOfUnwrittenRamFaults
  intro s f d aligned ram hnone
  have read : rdW s f = .fault (.readOfUnwritten f) := by
    rw [rdW_inRam ram, wordAddr_of_aligned aligned, aligned]
    simp [ramWord, hnone]
  simp only [exec, execMovLoad, read, andThen_fault]

/-! ### The SFR space -/

/-- Settles O59: no register is found at the word's address, so both accesses are refused (R128). -/
theorem otherSfrAddressIsRefused : Obligations.OtherSfrAddressIsRefused := by
  unfold Obligations.OtherSfrAddressIsRefused
  intro s f n hr hother
  have noRegister : s.par.ctrlAt (wordAddr f) = none := ctrlAt_none hother
  refine ⟨?_, fun aligned => ?_⟩
  · have read : rdW s f = .refused (.sfrNotDescribed (wordAddr f)) := by
      simp only [rdW, hr, sfrReadW, noRegister]
    simp only [exec, execMovLoad, read, andThen_refused]
  · rw [wordAddr_of_aligned aligned] at noRegister
    have write : wr s.closeWindow .word f (s.w n) = .refused (.sfrNotDescribed f) := by
      simp [wr, wrW, aligned, hr, sfrWriteW, noRegister]
    simp [exec, execMovStore, finishStore, write]

/-- A byte write that meets no cause of the trap at an address the spec describes. -/
theorem wrB_storesByte {s t : State} {a : Word} {b : Byte} (h : storesByte s a b t) :
    wrB s a b = .next ⟨t, false⟩ := by
  rw [← low_of_setWidth b] at h
  have write := wr_storesByte h
  rwa [wr, low_of_setWidth] at write

/-- What a write of a control register leaves in the six registers (R42). -/
theorem writeCtrl_ctrl_same (s : State) (r : CtrlReg) (v : Word) : (s.writeCtrl r v).ctrl r = r.fix v := by
  rw [writeCtrl_ctrl, setCtrl_ctrl_same]

theorem writeCtrl_ctrl_other (s : State) (r : CtrlReg) (v : Word) {r' : CtrlReg} (h : r' ≠ r) :
    (s.writeCtrl r v).ctrl r' = s.ctrl r' := by
  rw [writeCtrl_ctrl, setCtrl_ctrl_other s r r' v h]

/-- Settles O20: at each of a register's two byte addresses the write is one of that register. -/
theorem controlRegisterByteWriteActsOnOneByte : Obligations.ControlRegisterByteWriteActsOnOneByte := by
  unfold Obligations.ControlRegisterByteWriteActsOnOneByte
  intro s r b hok
  refine ⟨⟨_, wrB_storesByte (.inr ⟨r, hok, .inl ⟨rfl, rfl⟩⟩), writeCtrl_ctrl_same s r _, ?low⟩,
    ⟨_, wrB_storesByte (.inr ⟨r, hok, .inr ⟨rfl, rfl⟩⟩), writeCtrl_ctrl_same s r _, ?high⟩⟩
  case low => exact fun r' h => writeCtrl_ctrl_other s r _ h
  case high => exact fun r' h => writeCtrl_ctrl_other s r _ h

/-! ### The direct moves -/

/-- `MOV f, Wnd` where the read delivers (R212). -/
theorem exec_movLoad {s : State} {f v : Word} (h : deliversWord s f v) (d : Reg) :
    exec (.movLoad f d) s = .next (s.closeWindow.setW d v) := by
  simp [exec, execMovLoad, rdW_deliversWord h, finishRegs, readError]

/-- `MOV Wns, f` where the write is made (R211). -/
theorem exec_movStore {s t : State} {f : Word} {n : Reg} (h : storesWord s.closeWindow f (s.w n) t) :
    exec (.movStore n f) s = .next t :=
  finishStore_stores [n] (fun _ => rfl) rfl (show stores s.closeWindow .word f (s.w n) t from h)
    List.nodup_nil

/-- `MOV Wns, f` to a control register (R211, R42, R258 a). -/
theorem exec_movStore_ctrl {s : State} (hok : s.par.addrsOk = true) (r : CtrlReg) (n : Reg) :
    exec (.movStore n (s.par.ctrlAddr r)) s = .next (s.closeWindow.writeCtrl r (s.w n)) :=
  exec_movStore (.inr ⟨r, hok, rfl, rfl⟩)

/-- Settles O32: RAM and control registers are the two cases of a read that delivers. -/
theorem movDirectLoadsTheWord : Obligations.MovDirectLoadsTheWord := by
  unfold Obligations.MovDirectLoadsTheWord
  exact ⟨fun s f v d h => exec_movLoad (.inl h) d,
    fun s r d hok => exec_movLoad (.inr ⟨r, hok, rfl, rfl⟩) d⟩

/-- Settles O33: an aligned word of RAM is a write that is made. -/
theorem movDirectStoresTheWord : Obligations.MovDirectStoresTheWord := by
  unfold Obligations.MovDirectStoresTheWord
  intro s f n aligned ram
  exact exec_movStore (.inl ⟨aligned, ram, rfl⟩)

/-- What a write of a control register, over an emptied window, leaves alone. -/
theorem writeCtrl_frame (s : State) (r : CtrlReg) (v : Word) :
    let t := s.closeWindow.writeCtrl r v
    t.haz = [hazEntry s r] ∧ sameRegsBut s t [] ∧ sameBytes s t ∧ sameAccs s t ∧ sameFrame s t ∧
      t.fault = s.fault ∧ t.rep = s.rep := by
  refine ⟨rfl, fun n _ => by simp, fun a => by simp [State.byteAt], ?_, ?_, ?_, ?_⟩ <;>
    simp [sameAccs, sameFrame]

/-- Settles O34: the next state is the write of that register. -/
theorem movDirectWritesAControlRegister : Obligations.MovDirectWritesAControlRegister := by
  unfold Obligations.MovDirectWritesAControlRegister
  intro s r n hok
  have others : ∀ r', r' ≠ r → (s.closeWindow.writeCtrl r (s.w n)).ctrl r' = s.ctrl r' := fun r' h => by
    rw [writeCtrl_ctrl_other _ r _ h, closeWindow_ctrl]
  exact ⟨_, exec_movStore_ctrl hok r n, writeCtrl_ctrl_same _ r _, others, writeCtrl_frame s r (s.w n)⟩

/-! ### The hazards of the next statement (R254 to R257) -/

/-- A member of the window for a modulo address register covers the pointer selected at the write. -/
theorem hits_xSelected {s t : State} {r : CtrlReg} (hr : r = .xmodsrt ∨ r = .xmodend) (ptrs : List Reg) :
    (hazEntry s r).hits t ptrs = ptrs.any (xModActive s) := by
  have selected : (fun n => (hazEntry s r).xSel == some n) = xModActive s := funext (xSelected_eq s)
  rcases hr with rfl | rfl <;> exact congrArg ptrs.any selected

theorem hits_ySelected {s t : State} {r : CtrlReg} (hr : r = .ymodsrt ∨ r = .ymodend) (ptrs : List Reg) :
    (hazEntry s r).hits t ptrs = ptrs.any (yModActive s) := by
  have selected : (fun n => (hazEntry s r).ySel == some n) = yModActive s := funext (ySelected_eq s)
  rcases hr with rfl | rfl <;> exact congrArg ptrs.any selected

/-- One for XBREV covers the pointer that was bit-reversed at the write, and the one that is now. -/
theorem hits_brSelected {s t : State} (ptrs : List Reg) :
    (hazEntry s .xbrev).hits t ptrs = ptrs.any fun n => bitRevActive s n || bitRevActive t n := by
  have selected : (fun n => (hazEntry s .xbrev).brSel == some n || bitRevActive t n) =
      fun n => bitRevActive s n || bitRevActive t n :=
    funext fun n => congrArg (· || bitRevActive t n) (brSelected_eq s n)
  exact congrArg ptrs.any selected

/-- Settles O27: the window holds MODCON, which hits every list. -/
theorem modconWriteEndangersEveryIndirectRead : Obligations.ModconWriteEndangersEveryIndirectRead := by
  unfold Obligations.ModconWriteEndangersEveryIndirectRead
  intro s n hok
  exact ⟨_, exec_movStore_ctrl hok .modcon n, fun ptrs => hazardHits_writeCtrl s .modcon _ ptrs⟩

/-- Settles O28: the window holds the register written, with the selections before the write. -/
theorem moduloAddressWriteEndangersTheSelectedPointer :
    Obligations.ModuloAddressWriteEndangersTheSelectedPointer := by
  unfold Obligations.ModuloAddressWriteEndangersTheSelectedPointer
  intro s n hok
  have window (r : CtrlReg) (f : Reg → Bool)
      (h : ∀ t ptrs, (hazEntry s r).hits t ptrs = ptrs.any f) :
      ∃ t, exec (.movStore n (s.par.ctrlAddr r)) s = .next t ∧ ∀ ptrs, hazardHits t ptrs = ptrs.any f :=
    ⟨_, exec_movStore_ctrl hok r n, fun ptrs => (hazardHits_writeCtrl s r _ ptrs).trans (h _ ptrs)⟩
  exact ⟨window .xmodsrt _ fun _ => hits_xSelected (.inl rfl),
    window .xmodend _ fun _ => hits_xSelected (.inr rfl),
    window .ymodsrt _ fun _ => hits_ySelected (.inl rfl),
    window .ymodend _ fun _ => hits_ySelected (.inr rfl)⟩

/-- Settles O29: XBREV has no fixed bits, so the register is the value written. -/
theorem xbrevWriteEndangersTheBitReversedPointer :
    Obligations.XbrevWriteEndangersTheBitReversedPointer := by
  unfold Obligations.XbrevWriteEndangersTheBitReversedPointer
  intro s n hok
  exact ⟨_, exec_movStore_ctrl hok .xbrev n, rfl,
    fun ptrs => (hazardHits_writeCtrl s .xbrev _ ptrs).trans (hits_brSelected ptrs)⟩

end Sys2Proof.Machine
end

section
/-! Addressing: the modulo correction is `moduloStep` and lands in the buffer; the reverse-carry addition is an
addition on the reversed pointer bits; bit-reversed addressing leaves every access it does not take plain. -/

namespace Sys2Proof.Machine

/-! ### The modulo correction (R170) -/

/-- A number of the address space is the value of its word. -/
theorem toNat_ofInt_of_word {z : Int} (h0 : 0 ≤ z) (h1 : z ≤ 0xFFFF) :
    ((BitVec.ofInt 16 z).toNat : Int) = z := by
  rw [BitVec.toNat_ofInt]
  omega

/-- Every length has a least power of two, by well-ordering. -/
theorem exists_leastPowerFor (l : Nat) : ∃ k, leastPowerFor l k := by
  have bounded : ∃ k, l ≤ 2 ^ k := ⟨l, Nat.lt_two_pow_self.le⟩
  exact ⟨Nat.find bounded, Nat.find_spec bounded, fun j hj => Nat.not_le.1 (Nat.find_min bounded hj)⟩

/-- `leastPow` meets its contract for the length of every buffer (R165). -/
theorem leastPowerFor_leastPow {l : Nat} (h : l ≤ 2 ^ 16) : leastPowerFor l (leastPow l) := by
  obtain ⟨k, hk⟩ := exists_leastPowerFor l
  rwa [leastPow_eq_of_le hk h]

/-- A step of the buffer ends in the buffer: at the sum, or one length from it where that left the buffer
(R171, R172). -/
theorem moduloStep_lands {srt fin p q : Word} {d : Int} (h : moduloStep srt fin p d q) :
    srt.toNat ≤ q.toNat ∧ q.toNat ≤ fin.toNat ∧
      ((q.toNat : Int) = p.toNat + d ∨
        ((q.toNat : Int) = p.toNat + d - ((fin.toNat : Int) - srt.toNat + 1) ∧
          (fin.toNat : Int) < p.toNat + d) ∨
        ((q.toNat : Int) = p.toNat + d + ((fin.toNat : Int) - srt.toNat + 1) ∧
          (p.toNat : Int) + d < srt.toNat)) := by
  obtain ⟨-, hsp, hpf, -, -, k, -, ⟨hd, -, hfar, hq⟩ | ⟨hd, -, hfar, hq⟩⟩ := h
  · by_cases past : (fin.toNat : Int) < p.toNat + d
    · rw [if_pos past] at hq
      exact ⟨by omega, by omega, .inr (.inl ⟨hq, past⟩)⟩
    · rw [if_neg past] at hq
      exact ⟨by omega, by omega, .inl hq⟩
  · by_cases before : (p.toNat : Int) + d < srt.toNat
    · rw [if_pos before] at hq
      exact ⟨by omega, by omega, .inr (.inr ⟨hq, before⟩)⟩
    · rw [if_neg before] at hq
      exact ⟨by omega, by omega, .inl hq⟩

/-- The correction gives a value only inside its contract (R173, R174). -/
theorem moduloStep_of_modAdj {srt fin p q : Word} {d : Int} (h : modAdj srt fin p d = some q) :
    moduloStep srt fin p d q := by
  have hfin := fin.isLt
  unfold modAdj at h
  dsimp only at h
  split at h
  · cases h
  · next hin =>
    simp only [not_not] at hin
    obtain ⟨hsf, hsp, hpf, hr0, hr1⟩ := hin
    have hlen : ((fin.toNat : Int) - srt.toNat + 1).toNat = fin.toNat - srt.toNat + 1 := by omega
    have hpow := leastPowerFor_leastPow (l := fin.toNat - srt.toNat + 1) (by omega)
    rw [hlen] at h
    generalize leastPow (fin.toNat - srt.toNat + 1) = k at h hpow
    refine ⟨by omega, by omega, by omega, hr0, hr1, k, hpow, ?_⟩
    split at h
    · next hup =>
      obtain ⟨hd, hsrt, hfar⟩ := hup
      cases h
      refine .inl ⟨hd, by exact_mod_cast hsrt, hfar, toNat_ofInt_of_word ?_ ?_⟩ <;> split <;> omega
    · split at h
      · next hdown =>
        obtain ⟨hd, hend, hfar⟩ := hdown
        cases h
        refine .inr ⟨hd, by exact_mod_cast hend, hfar, toNat_ofInt_of_word ?_ ?_⟩ <;> split <;> omega
      · cases h

/-- The modulo correction is its contract (R170 to R174). -/
theorem modAdj_eq_some_iff {srt fin p q : Word} {d : Int} :
    modAdj srt fin p d = some q ↔ moduloStep srt fin p d q :=
  ⟨moduloStep_of_modAdj, modAdj_of_moduloStep⟩

/-- Settles O21: the correction is its contract, and a step of the contract lands in the buffer. -/
theorem moduloCorrectsIntoTheBufferByOneLength : Obligations.ModuloCorrectsIntoTheBufferByOneLength := by
  unfold Obligations.ModuloCorrectsIntoTheBufferByOneLength
  intro srt fin p q d
  exact ⟨modAdj_eq_some_iff, fun h => moduloStep_lands (moduloStep_of_modAdj h)⟩

/-- A power of two is the least one not below itself. -/
theorem leastPowerFor_pow (k : Nat) : leastPowerFor (2 ^ k) k :=
  ⟨le_rfl, fun _ hj => Nat.pow_lt_pow_right one_lt_two hj⟩

/-- Settles O22: both the start and the end meet the boundary, so a step has the contract of its direction. -/
theorem powerOfTwoBufferStepsBothWays : Obligations.PowerOfTwoBufferStepsBothWays := by
  unfold Obligations.PowerOfTwoBufferStepsBothWays
  intro srt fin p k d hk _ hlen hboundary hsp hpf hr0 hr1 hback hon
  have hfin := fin.isLt
  have endBoundary : (fin.toNat + 1) % 2 ^ k = 0 := by rw [hlen, Nat.add_mod_right, hboundary]
  have length : fin.toNat - srt.toNat + 1 = 2 ^ k := by omega
  have lengthInt : ((2 : Int) ^ k) = (fin.toNat : Int) - srt.toNat + 1 := by
    rw [← Nat.cast_two, ← Nat.cast_pow]; omega
  have atLeastTwo : 1 < 2 ^ k := Nat.one_lt_two_pow hk.ne'
  have least : leastPowerFor (fin.toNat - srt.toNat + 1) k := length ▸ leastPowerFor_pow k
  have inBuffer : srt.toNat < fin.toNat := by omega
  rw [lengthInt] at hback hon
  rcases le_total 0 d with hd | hd
  · refine ⟨_, modAdj_of_moduloStep ⟨inBuffer, hsp, hpf, hr0, hr1, k, least,
      .inl ⟨hd, hboundary, by omega, toNat_ofInt_of_word ?_ ?_⟩⟩⟩ <;> split <;> omega
  · refine ⟨_, modAdj_of_moduloStep ⟨inBuffer, hsp, hpf, hr0, hr1, k, least,
      .inr ⟨hd, endBoundary, by omega, toNat_ofInt_of_word ?_ ?_⟩⟩⟩ <;> split <;> omega

/-! ### The reverse-carry addition (R194) -/

/-- The listed modifier `2^j`, read from the other end. -/
theorem reverse_modifier {j : Nat} (hj : j < 15) :
    (BitVec.ofNat 15 (2 ^ j)).reverse = BitVec.ofNat 15 (2 ^ (14 - j)) := by
  have all : ∀ j : Fin 15, (BitVec.ofNat 15 (2 ^ j.val)).reverse = BitVec.ofNat 15 (2 ^ (14 - j.val)) := by
    decide
  exact all ⟨j, hj⟩

/-- Bits 15:1 of a pointer in reversed order, on which the carries run upwards. -/
def reversedBits (p : Word) : BitVec 15 := (p.extractLsb' 1 15).reverse

/-- The pointer with the given reversed bits 15:1 and the bit 0 of `p`. -/
def ofReversedBits (r : BitVec 15) (p : Word) : Word := r.reverse ++ p.extractLsb' 0 1

theorem revAdd_eq (p : Word) (xb : BitVec 15) :
    revAdd p xb = ofReversedBits (reversedBits p + xb.reverse) p := rfl

/-- Bit `b + 1` of a pointer is bit `14 - b` of its reversed bits. -/
theorem getLsbD_reversedBits (p : Word) {b : Nat} (hb : b < 15) :
    (reversedBits p).getLsbD b = p.getLsbD (15 - b) := by
  have e : 1 + (14 - b) = 15 - b := by omega
  have inside : 14 - b < 15 := by omega
  simp only [reversedBits, BitVec.getLsbD_reverse, BitVec.getMsbD, BitVec.getLsbD_extractLsb', hb, e,
    inside, Nat.add_one_sub_one, decide_true, Bool.true_and]

theorem getLsbD_ofReversedBits_zero (r : BitVec 15) (p : Word) :
    (ofReversedBits r p).getLsbD 0 = p.getLsbD 0 := by
  have split := BitVec.getLsbD_append (x := r.reverse) (y := p.extractLsb' 0 1) (i := 0)
  exact split.trans (by simp)

theorem getLsbD_ofReversedBits_succ (r : BitVec 15) (p : Word) {b : Nat} (hb : b < 15) :
    (ofReversedBits r p).getLsbD (b + 1) = r.getLsbD (14 - b) := by
  have split := BitVec.getLsbD_append (x := r.reverse) (y := p.extractLsb' 0 1) (i := b + 1)
  rw [if_neg (by omega), Nat.add_sub_cancel, BitVec.getLsbD_reverse, BitVec.getMsbD] at split
  exact split.trans (by simp only [hb, decide_true, Bool.true_and, Nat.add_one_sub_one])

/-- A pointer is its reversed bits and its bit 0. -/
theorem ofReversedBits_reversedBits (p : Word) : ofReversedBits (reversedBits p) p = p := by
  refine BitVec.eq_of_getLsbD_eq fun b hb => ?_
  cases b with
  | zero => exact getLsbD_ofReversedBits_zero _ p
  | succ b =>
    rw [getLsbD_ofReversedBits_succ _ p (by omega), getLsbD_reversedBits p (by omega)]
    congr 1
    omega

theorem reversedBits_ofReversedBits (r : BitVec 15) (p : Word) :
    reversedBits (ofReversedBits r p) = r := by
  refine BitVec.eq_of_getLsbD_eq fun b hb => ?_
  rw [getLsbD_reversedBits _ hb, show 15 - b = (14 - b) + 1 by omega,
    getLsbD_ofReversedBits_succ r p (by omega)]
  congr 1
  omega

theorem ofReversedBits_ofReversedBits (r r' : BitVec 15) (p : Word) :
    ofReversedBits r (ofReversedBits r' p) = ofReversedBits r p := by
  refine BitVec.eq_of_getLsbD_eq fun b hb => ?_
  cases b with
  | zero => simp only [getLsbD_ofReversedBits_zero]
  | succ b => simp only [getLsbD_ofReversedBits_succ _ _ (show b < 15 by omega)]

/-- Adding `2^m` leaves the bits below `m` alone. -/
theorem getLsbD_add_twoPow {w : Nat} (x : BitVec w) {m b : Nat} (hb : b < m) :
    (x + BitVec.ofNat w (2 ^ m)).getLsbD b = x.getLsbD b := by
  simp only [BitVec.getLsbD, BitVec.toNat_add, BitVec.toNat_ofNat, Nat.add_mod_mod]
  rw [Nat.testBit_mod_two_pow, Nat.add_comm, Nat.testBit_two_pow_add_gt hb]
  by_cases hw : b < w
  · simp [hw]
  · simp [hw, Nat.testBit_lt_two_pow (x.isLt.trans_le (Nat.pow_le_pow_right two_pos (Nat.not_lt.1 hw)))]

/-- Settles O23: on the reversed bits the modifier is `2^(14-j)`, below which an addition changes nothing. -/
theorem bitReversalKeepsBitsOutsideThePivot : Obligations.BitReversalKeepsBitsOutsideThePivot := by
  unfold Obligations.BitReversalKeepsBitsOutsideThePivot
  intro p j i hj hi
  rw [revAdd_eq, reverse_modifier hj]
  cases i with
  | zero => exact getLsbD_ofReversedBits_zero _ p
  | succ b =>
    have above : j + 2 ≤ b + 1 := hi.resolve_left (Nat.succ_ne_zero b)
    by_cases hb : b < 15
    · rw [getLsbD_ofReversedBits_succ _ p hb, getLsbD_add_twoPow _ (by omega),
        getLsbD_reversedBits p (by omega)]
      congr 1
      omega
    · rw [BitVec.getLsbD_of_ge _ _ (by omega), BitVec.getLsbD_of_ge _ _ (by omega)]

/-- `i` steps add `i` times the modifier on the reversed bits. -/
theorem revAddTimes_eq (xb : BitVec 15) (i : Nat) (p : Word) :
    revAddTimes xb i p = ofReversedBits (reversedBits p + BitVec.ofNat 15 i * xb.reverse) p := by
  induction i with
  | zero => simpa [revAddTimes] using (ofReversedBits_reversedBits p).symm
  | succ i ih =>
    rw [revAddTimes, ih, revAdd_eq, reversedBits_ofReversedBits, ofReversedBits_ofReversedBits,
      BitVec.add_assoc, BitVec.ofNat_add, BitVec.add_mul]
    simp

/-- The low bits of an aligned address are clear. -/
theorem testBit_of_aligned {x k b : Nat} (h : x % 2 ^ k = 0) (hb : b < k) : x.testBit b = false := by
  have := Nat.testBit_mod_two_pow x k b
  rw [h, Nat.zero_testBit] at this
  simpa [hb] using this.symm

/-- The reversed bits of the start of a buffer of `2^(j+1)` words lie below the modifier. -/
theorem reversedBits_lt_of_aligned {p : Word} {j : Nat} (hj : j < 15) (h : p.toNat % 2 ^ (j + 2) = 0) :
    (reversedBits p).toNat < 2 ^ (14 - j) := by
  refine Nat.lt_pow_two_of_testBit _ fun b hb => ?_
  by_cases hb15 : b < 15
  · exact (getLsbD_reversedBits p hb15).trans (testBit_of_aligned h (by omega))
  · exact BitVec.getLsbD_of_ge _ _ (by omega)

/-- Bit `b` of a bit reversal. -/
theorem testBit_bitReversal (n i b : Nat) :
    (bitReversal n i).testBit b = (decide (b < n) && i.testBit (n - 1 - b)) := by
  have bit : (bitReversal n i).testBit b = (BitVec.ofNat n i).reverse.getLsbD b := rfl
  rw [bit, BitVec.getLsbD_reverse, BitVec.getMsbD]
  by_cases hb : b < n
  · simp only [hb, BitVec.getLsbD_ofNat, show n - 1 - b < n by omega, decide_true, Bool.true_and]
  · simp only [hb, decide_false, Bool.false_and]

/-- Fewer than `2^(j+1)` multiples of the modifier do not wrap over reversed bits that lie below it. -/
theorem add_multiples_noWrap {r : BitVec 15} {j i : Nat} (hj : j < 15) (hr : r.toNat < 2 ^ (14 - j))
    (hi : i < 2 ^ (j + 1)) :
    (r + BitVec.ofNat 15 i * BitVec.ofNat 15 (2 ^ (14 - j))).toNat = 2 ^ (14 - j) * i + r.toNat := by
  have bound : 2 ^ (14 - j) * i + r.toNat < 2 ^ 15 := by
    calc 2 ^ (14 - j) * i + r.toNat
        < 2 ^ (14 - j) * i + 2 ^ (14 - j) := by omega
      _ = 2 ^ (14 - j) * (i + 1) := by ring
      _ ≤ 2 ^ (14 - j) * 2 ^ (j + 1) := Nat.mul_le_mul_left _ hi
      _ = 2 ^ 15 := by rw [← pow_add, show 14 - j + (j + 1) = 15 by omega]
  rw [BitVec.toNat_add, BitVec.toNat_mul, BitVec.toNat_ofNat, BitVec.toNat_ofNat]
  simp only [Nat.add_mod_mod, Nat.mul_mod_mod, Nat.mod_mul_mod]
  rw [Nat.add_comm, Nat.mul_comm, Nat.mod_eq_of_lt bound]

/-- Before the modifier's multiples wrap, the pointer is the start plus twice the bit reversal of their number:
each side has the start's bits above the pivot and the reversed number's bits inside it. -/
theorem ofReversedBits_pivot {p : Word} {j i : Nat} (hj : j < 15) (h : p.toNat % 2 ^ (j + 2) = 0)
    (hi : i < 2 ^ (j + 1)) :
    (ofReversedBits (reversedBits p + BitVec.ofNat 15 i * BitVec.ofNat 15 (2 ^ (14 - j))) p).toNat =
      p.toNat + 2 * bitReversal (j + 1) i := by
  have hlow := reversedBits_lt_of_aligned hj h
  obtain ⟨a, ha⟩ := Nat.dvd_of_mod_eq_zero h
  have hrev : 2 * bitReversal (j + 1) i < 2 ^ (j + 2) := by
    have : bitReversal (j + 1) i < 2 ^ (j + 1) := (BitVec.ofNat (j + 1) i).reverse.isLt
    rw [pow_succ]
    omega
  have pbit : ∀ b, p.getLsbD b = (2 ^ (j + 2) * a).testBit b := fun b => by rw [← ha]; rfl
  refine Nat.eq_of_testBit_eq fun b => ?_
  rw [ha, Nat.testBit_two_pow_mul_add a hrev]
  change (ofReversedBits _ p).getLsbD b = _
  cases b with
  | zero =>
    rw [getLsbD_ofReversedBits_zero, pbit, Nat.testBit_two_pow_mul]
    simp
  | succ b =>
    by_cases hb : b < 15
    · rw [getLsbD_ofReversedBits_succ _ p hb, BitVec.getLsbD, add_multiples_noWrap hj hlow hi,
        Nat.testBit_two_pow_mul_add i hlow]
      by_cases inside : b < j + 1
      · rw [if_neg (by omega), if_pos (by omega), Nat.testBit_succ, Nat.mul_div_cancel_left _ two_pos,
          testBit_bitReversal]
        simp only [inside, decide_true, Bool.true_and]
        congr 1
        omega
      · rw [if_pos (by omega), if_neg (by omega)]
        change (reversedBits p).getLsbD (14 - b) = _
        rw [getLsbD_reversedBits p (by omega), show 15 - (14 - b) = b + 1 by omega, pbit,
          Nat.testBit_two_pow_mul]
        simp [show j + 2 ≤ b + 1 by omega]
    · rw [BitVec.getLsbD_of_ge _ _ (by omega), if_neg (by omega)]
      have high := pbit (b + 1)
      rw [BitVec.getLsbD_of_ge _ _ (by omega), Nat.testBit_two_pow_mul] at high
      simpa [show j + 2 ≤ b + 1 by omega] using high

/-- Settles O24: `i` steps add `i * 2^(14-j)` on the reversed bits, and `2^(j+1)` steps add `2^15`, nothing. -/
theorem bitReversedStepsVisitTheBufferInReversedOrder :
    Obligations.BitReversedStepsVisitTheBufferInReversedOrder := by
  unfold Obligations.BitReversedStepsVisitTheBufferInReversedOrder
  intro p j i hj haligned
  simp only [revAddTimes_eq, reverse_modifier hj]
  refine ⟨ofReversedBits_pivot hj haligned, ?_⟩
  have around : BitVec.ofNat 15 (2 ^ (j + 1)) * BitVec.ofNat 15 (2 ^ (14 - j)) = 0#15 := by
    rw [← BitVec.ofNat_mul, ← pow_add, show j + 1 + (14 - j) = 15 by omega]
    rfl
  rw [around, BitVec.add_zero, ofReversedBits_reversedBits]

/-! ### Accesses that bit-reversed addressing does not take (R192) -/

theorem bitReverses_not_taken {path : Path} {size : Size} {mode : Mode}
    (h : path ≠ .xw ∨ size = .byte ∨ mode.increments = false) (s : State) (n : Reg) :
    bitReverses s path n size mode = false := by
  rcases h with h | rfl | h
  · cases path with
    | xr => exact bitReverses_xr s n size mode
    | xw => exact absurd rfl h
    | y => exact bitReverses_y s n size mode
  · exact bitReverses_byte s path n mode
  · exact bitReverses_of_mode h s path n size

/-- Settles O25: without bit reversal and without a buffer `Adjust` is its last line. -/
theorem bitReversalActsOnIncrementingWordWritesOnly :
    Obligations.BitReversalActsOnIncrementingWordWritesOnly := by
  unfold Obligations.BitReversalActsOnIncrementingWordWritesOnly
  intro s path n p d size mode hx hy hmode
  have notReversed := bitReverses_not_taken hmode s n
  have noBuffer : moduloBuffer s path n = none := by
    by_cases hp : path = .y
    · rw [hp, moduloBuffer_y, (hy hp).2]; rfl
    · rw [moduloBuffer_x s hp, hx]; rfl
  have notReserved : ¬ (path = .y ∧ yReserved s = true) := fun ⟨hp, hr⟩ => by
    rw [(hy hp).1] at hr; cases hr
  simp [adjust, notReversed, hx, noBuffer, notReserved]

end Sys2Proof.Machine
end

section
/-! MOV: to a register, whatever its source operand is, and to a memory operand, whatever address its meaning
generates. Each statement about a move names the source, the address and the write, and is one of these two. -/

namespace Sys2Proof.Machine

/-! ### Registers written -/

theorem setW_setW (s : State) (n : Reg) (v x : Word) : (s.setW n v).setW n x = s.setW n x := by
  simp [State.setW]

/-- Two updates of one register leave it free (U15). -/
theorem commit_twice (s : State) (n : Reg) (v x : Word) :
    commit s [(n, v), (n, x)] = s.setW n (Config.freeWord (.twice n) s.draws) := by
  simp [commit, setW_setW]

/-- A word move leaves the word, a byte move one with its low byte (R66). -/
theorem regResult_spec (s : State) {size : Size} {u v : Word} (h1 : size = .word → u = v)
    (h2 : u.extractLsb' 0 8 = v.extractLsb' 0 8) :
    (size = .word → regResult s size u = v) ∧
      (regResult s size u).extractLsb' 0 8 = v.extractLsb' 0 8 := by
  cases size with
  | word => obtain rfl := h1 rfl; exact ⟨fun _ => rfl, rfl⟩
  | byte => exact ⟨nofun, (regResult_byte_low s u).trans h2⟩

/-- The update of a pointer mode that keeps its register is that register's content. -/
theorem xPointer_ind {s : State} {path : Path} {n : Reg} {size : Size} {m : PtrMode} {ea q : Word}
    (h : xPointer s path n size m ea q) : m = .ind → q = s.w n := by
  rintro rfl
  exact xStep_zero h.1

/-- No register is at both ends of a load that updates a pointer other than its destination. -/
theorem notMem_pointer {m : PtrMode} {n d : Reg} (h : n ≠ d ∨ m = .ind) :
    d ∉ (Operand.ptr m n).modifies.toList := by
  rcases h with h | rfl
  · cases m <;> simp [Operand.modifies, h.symm]
  · simp [Operand.modifies]

/-! ### MOV to a register -/

/-- A move to a register whose source operand gives a value and does not modify that register (R213). -/
theorem exec_mov_reg {s : State} {size : Size} {src : Operand} {v : Word} {us : Updates} {d : Reg}
    (h : sourceStep s size src v us) (hd : d ∉ src.modifies.toList) :
    ∃ u : Word, (size = .word → u = v) ∧ u.extractLsb' 0 8 = v.extractLsb' 0 8 ∧
      exec (.mov size src (.reg d)) s = .next ((s.closeWindow.setRegs us).setW d u) := by
  obtain ⟨u, h1, h2, hf⟩ := fetchSource_sourceStep h
  have once : ((us ++ [(d, regResult s size u)]).map (·.1)).Nodup := by
    rw [List.map_append, sourceStep_regs h]
    refine List.nodup_append'.2 ⟨by cases src.modifies <;> simp, by simp, ?_⟩
    simpa [List.disjoint_singleton] using hd
  obtain ⟨h3, h4⟩ := regResult_spec s h1 h2
  refine ⟨regResult s size u, h3, h4, ?_⟩
  simp only [exec, execMov, shares_of_reg, hf, andThen_next, finishRegs, commit_nodup _ _ once,
    setRegs_append, setRegs_cons, setRegs_nil]

/-- A load through a pointer: the pointer takes its step, the destination what the address delivers. -/
theorem exec_load_pointer {s : State} {size : Size} {m : PtrMode} {n d : Reg} {ea q v : Word}
    (hz : hazardHits s [n] = false) (hp : xPointer s .xr n size m ea q) (hd : delivers s size ea v)
    (hn : n ≠ d ∨ m = .ind) :
    ∃ u : Word, (size = .word → u = v) ∧ u.extractLsb' 0 8 = v.extractLsb' 0 8 ∧
      exec (.mov size (.ptr m n) (.reg d)) s = .next ((s.closeWindow.setW n q).setW d u) := by
  have source : sourceStep s size (.ptr m n) v (if m = .ind then [] else [(n, q)]) :=
    ⟨hz, ea, ⟨q, hp, rfl⟩, hd⟩
  obtain ⟨u, h1, h2, hexec⟩ := exec_mov_reg source (notMem_pointer hn)
  rw [setRegs_pointer (xPointer_ind hp) (closeWindow_regs s)] at hexec
  exact ⟨u, h1, h2, hexec⟩

/-- A load into its own modified pointer leaves it free (log 24). -/
theorem exec_load_self {s : State} {size : Size} {m : PtrMode} {n : Reg} {ea q v : Word}
    (hz : hazardHits s [n] = false) (hp : xPointer s .xr n size m ea q) (hd : delivers s size ea v)
    (hm : m ≠ .ind) :
    exec (.mov size (.ptr m n) (.reg n)) s =
      .next (s.closeWindow.setW n (Config.freeWord (.twice n) s.draws)) := by
  have source : sourceStep s size (.ptr m n) v (if m = .ind then [] else [(n, q)]) :=
    ⟨hz, ea, ⟨q, hp, rfl⟩, hd⟩
  obtain ⟨u, -, -, hf⟩ := fetchSource_sourceStep source
  rw [if_neg hm] at hf
  simp only [exec, execMov, shares_of_reg, hf, andThen_next, finishRegs, List.singleton_append,
    commit_twice, closeWindow_draws]

/-- A load through the register indexed mode (R148). -/
theorem exec_load_indexed {s : State} {size : Size} {n b d : Reg} {q v : Word}
    (hz : hazardHits s [n, b] = false) (hb : xModActive s b = true → xModActive s n = true)
    (hq : xStep s .xr n size (.regOff b) (s.w b).toInt q) (hd : delivers s size q v) :
    ∃ u : Word, (size = .word → u = v) ∧ u.extractLsb' 0 8 = v.extractLsb' 0 8 ∧
      exec (.mov size (.idx n b) (.reg d)) s = .next (s.closeWindow.setW d u) := by
  have source : sourceStep s size (.idx n b) v [] := ⟨hz, q, ⟨hb, hq, rfl⟩, hd⟩
  exact exec_mov_reg source (by simp [Operand.modifies])

/-- A load with a literal offset (R214). -/
theorem exec_load_offset {s : State} {size : Size} {p d : Reg} {k : Int} {q v : Word}
    (hz : hazardHits s [p] = false) (hq : xStep s .xr p size (.litOff k) k q) (hd : delivers s size q v) :
    ∃ u : Word, (size = .word → u = v) ∧ u.extractLsb' 0 8 = v.extractLsb' 0 8 ∧
      exec (.movLoadOff size p k d) s = .next (s.closeWindow.setW d u) := by
  obtain ⟨u, h1, h2, hf⟩ := fetchMcu_delivers (n := p) (g := ⟨q, none⟩) hd
  obtain ⟨h3, h4⟩ := regResult_spec s h1 h2
  refine ⟨regResult s size u, h3, h4, ?_⟩
  simp only [exec, execMovLoadOff, hz, eaGen_litOff (show Path.xr ≠ .y by simp) hq, hf, andThen_next,
    finishRegs, gen_ups_none, List.nil_append, commit_one]

/-! ### MOV to memory -/

/-- A move to a pointer or indexed operand whose source gives a value and whose write is made at the address its
meaning generates, fixed or free. -/
theorem exec_mov_generated {s t : State} {size : Size} {src dst : Operand} {v : Word} {us : Updates}
    {g : Gen} {d : Reg} (hsrc : sourceStep s size src v us) (hs : src.shares dst = false)
    (hs' : dst.shares src = false) (hmod : (g.ups d).map (·.1) = dst.modifies.toList)
    (hexec : exec (.mov size src dst) s =
      finishStore s.closeWindow size g.ea (fetchSource s size src (src.shares dst)) (g.ups d)
        (src.regs ++ dst.regs))
    (hw : stores s.closeWindow size g.ea v t) :
    exec (.mov size src dst) s = .next (t.setRegs (us ++ g.ups d)) := by
  obtain ⟨u, h1, h2, hf⟩ := fetchSource_sourceStep hsrc
  have once : ((us ++ g.ups d).map (·.1)).Nodup := by
    rw [List.map_append, sourceStep_regs hsrc, hmod]
    exact modifies_nodup hs'
  rw [hexec, hs, hf]
  exact finishStore_stores _ h1 h2 hw once

/-- The register a pointer operand's generated update names. -/
theorem eaGen_ups_regs (s : State) (path : Path) (n : Reg) (size : Size) (m : PtrMode) (o : Bool) :
    ((eaGen s path (.ptr m) n size o).ups n).map (·.1) = (Operand.ptr m n).modifies.toList := by
  cases m <;> rfl

theorem exec_mov_ptr {s t : State} {size : Size} {src : Operand} {m : PtrMode} {n : Reg} {v : Word}
    {us : Updates} (hsrc : sourceStep s size src v us) (hs : src.shares (.ptr m n) = false)
    (hs' : (Operand.ptr m n).shares src = false)
    (hw : stores s.closeWindow size (eaGen s .xw (.ptr m) n size false).ea v t) :
    exec (.mov size src (.ptr m n)) s =
      .next (t.setRegs (us ++ (eaGen s .xw (.ptr m) n size false).ups n)) :=
  exec_mov_generated hsrc hs hs' (eaGen_ups_regs s .xw n size m false)
    (by simp only [exec, execMov, hs']) hw

theorem exec_mov_idx {s t : State} {size : Size} {src : Operand} {n b : Reg} {v : Word} {us : Updates}
    (hsrc : sourceStep s size src v us) (hs' : (Operand.idx n b).shares src = false)
    (hw : stores s.closeWindow size (eaGen s .xw (.regOff b) n size false).ea v t) :
    exec (.mov size src (.idx n b)) s = .next (t.setRegs us) := by
  have done := exec_mov_generated (g := eaGen s .xw (.regOff b) n size false) (d := n) hsrc
    (shares_of_idx src n b) hs' rfl (by simp only [exec, execMov, hs']) hw
  have noUpdate : (eaGen s .xw (.regOff b) n size false).ups n = [] := rfl
  rwa [noUpdate, List.append_nil] at done

/-- A move to a memory operand whose address the spec fixes (R213). -/
theorem exec_mov_operandStep {s t : State} {size : Size} {src dst : Operand} {ea v : Word}
    {us us' : Updates} (hsrc : sourceStep s size src v us) (hs : src.shares dst = false)
    (hs' : dst.shares src = false) (hdst : operandStep s .xw size dst ea us')
    (hw : stores s.closeWindow size ea v t) :
    exec (.mov size src dst) s = .next (t.setRegs (us ++ us')) := by
  obtain ⟨u, h1, h2, hf⟩ := fetchSource_sourceStep hsrc
  have once : ((us ++ us').map (·.1)).Nodup := by
    rw [List.map_append, sourceStep_regs hsrc, operandStep_regs hdst]
    exact modifies_nodup hs'
  rw [exec, execMov_operandStep hs' hdst, hs, hf]
  exact finishStore_stores _ h1 h2 hw once

/-- A store keeps the W registers. -/
theorem stores_regs {s t : State} {size : Size} {a v : Word} (h : stores s size a v t) :
    t.regs = s.regs := by
  cases size with
  | word => exact (storesWord_keeps h).1
  | byte => exact (storesByte_keeps h).1

/-- A store of a register through a pointer: the pointer takes its step (R213). -/
theorem exec_store_pointer {s t : State} {size : Size} {m : PtrMode} {n d : Reg} {ea q : Word}
    (hp : xPointer s .xw d size m ea q) (hn : n ≠ d ∨ m = .ind)
    (hw : stores s.closeWindow size ea (s.w n) t) :
    exec (.mov size (.reg n) (.ptr m d)) s = .next (t.setW d q) := by
  have done := exec_mov_operandStep (src := .reg n) (us := []) ⟨rfl, rfl⟩ (shares_reg n d m hn)
    (shares_of_reg _ _) ⟨q, hp, rfl⟩ hw
  rwa [List.nil_append, setRegs_pointer (xPointer_ind hp) ((stores_regs hw).trans (closeWindow_regs s))] at done

/-- A store of the modified pointer itself stores a free value (log 24). -/
theorem exec_store_self {s t : State} {size : Size} {m : PtrMode} {d : Reg} {ea q : Word}
    (hp : xPointer s .xw d size m ea q) (hm : m ≠ .ind)
    (hw : stores s.closeWindow size ea (Config.freeWord .srcValue s.draws) t) :
    exec (.mov size (.reg d) (.ptr m d)) s = .next (t.setW d q) := by
  have shared : (Operand.reg d).shares (.ptr m d) = true := by
    cases m <;> simp [Operand.shares, Operand.modifies, Operand.regs] at hm ⊢
  have dst : operandStep s .xw size (.ptr m d) ea [(d, q)] := ⟨q, hp, by rw [if_neg hm]⟩
  rw [exec, execMov_operandStep (shares_of_reg _ _) dst, shared]
  exact finishStore_stores _ (fun _ => rfl) rfl hw (by simp)

/-- A store of a register through the register indexed mode (R148). -/
theorem exec_store_indexed {s t : State} {size : Size} {n b r : Reg} {q : Word}
    (hb : xModActive s b = true → xModActive s n = true)
    (hq : xStep s .xw n size (.regOff b) (s.w b).toInt q) (hw : stores s.closeWindow size q (s.w r) t) :
    exec (.mov size (.reg r) (.idx n b)) s = .next t :=
  exec_mov_operandStep (src := .reg r) (us := []) ⟨rfl, rfl⟩ (shares_of_idx _ _ _) (shares_of_reg _ _)
    ⟨hb, hq, rfl⟩ hw

/-- A store with a literal offset, at the address its meaning generates (R214). -/
theorem exec_store_generatedOffset {s t : State} {size : Size} {r n : Reg} {k : Int}
    (hw : stores s.closeWindow size (eaGen s .xw (.litOff k) n size false).ea (s.w r) t) :
    exec (.movStoreOff size r n k) s = .next t :=
  finishStore_stores [r, n] (fun _ => rfl) rfl hw List.nodup_nil

theorem exec_store_offset {s t : State} {size : Size} {r p : Reg} {k : Int} {q : Word}
    (hq : xStep s .xw p size (.litOff k) k q) (hw : stores s.closeWindow size q (s.w r) t) :
    exec (.movStoreOff size r p k) s = .next t := by
  refine exec_store_generatedOffset ?_
  rwa [eaGen_litOff (by simp) hq]

/-! ### Steps under plain addressing -/

/-- The plain sum in a mode that bit-reversed addressing does not take. -/
theorem xStep_plain {s : State} {path : Path} {n : Reg} {mode : Mode} (hx : xModActive s n = false)
    (hmode : mode.increments = false) (size : Size) (d : Int) :
    xStep s path n size mode d (s.w n + BitVec.ofInt 16 d) := by
  refine .inr ⟨?_, .inl ⟨hx, rfl⟩⟩
  rw [← bitReverses_iff, bitReverses_of_mode hmode]
  exact Bool.false_ne_true

/-- The sum of the two registers of the indexed mode (R148). -/
theorem xStep_index {s : State} {path : Path} {n b : Reg} (hx : xModActive s n = false) (size : Size) :
    xStep s path n size (.regOff b) (s.w b).toInt (s.w n + s.w b) := by
  have plain := xStep_plain (path := path) (mode := .regOff b) hx rfl size (s.w b).toInt
  rwa [BitVec.ofInt_toInt] at plain

/-- A step of the X buffer in a mode that bit-reversed addressing does not take (R170, R200). -/
theorem xStep_modulo {s : State} {path : Path} {n : Reg} {mode : Mode} {d : Int} {q : Word}
    (hx : xModActive s n = true) (hmode : mode.increments = false)
    (hw : path = .xr ∨ bitRevActive s n = false ∨ d = 0)
    (hq : moduloStep s.xmodsrt s.xmodend (s.w n) d q) (size : Size) : xStep s path n size mode d q := by
  refine .inr ⟨?_, .inr ⟨hx, hw, hq⟩⟩
  rw [← bitReverses_iff, bitReverses_of_mode hmode]
  exact Bool.false_ne_true

end Sys2Proof.Machine
end

section
/-! MAC without a trap: its prefetches deliver, its write back is made or there is none, and the registers of
all three are committed. -/

namespace Sys2Proof.Machine

/-! ### MAC completes -/

/-- A storing statement whose read took no trap and whose write is made commits its updates. -/
theorem finishStore_commits {s t : State} {size : Size} {ea v : Word} {fu us : Updates} (ns : List Reg)
    (hw : wr s size ea v = .next ⟨t, false⟩) :
    finishStore s size ea (.next ⟨v, none, fu⟩) us ns = .next (commit t (fu ++ us)) := by
  simp [finishStore, hw]

/-- The state a MAC writes: the window emptied and a free content in the targeted accumulator (log 2). -/
def macState (s : State) (acc : Acc) : State := s.closeWindow.setAcc acc (Config.freeContent s.draws)

/-- The value a MAC writes back, of the accumulator not targeted (R126). -/
def macStored (s : State) (acc : Acc) : Word := Config.accStored (s.acc (otherAcc acc)) s.draws

/-- What `macState` leaves alone. -/
theorem macState_keeps (s : State) (acc : Acc) :
    (macState s acc).regs = s.regs ∧ (macState s acc).draws = s.draws ∧
      (macState s acc).acc acc = Config.freeContent s.draws ∧
      (macState s acc).acc (otherAcc acc) = s.acc (otherAcc acc) ∧ sameFrame s (macState s acc) ∧
      (macState s acc).fault = s.fault ∧ (macState s acc).rep = s.rep := by
  refine ⟨?_, ?_, ?_, ?_, ?_, ?_, ?_⟩ <;> simp [macState, sameFrame]
  cases acc <;> rfl

section
variable {s : State} {m : BitVec 3} {acc : Acc} {x y : BitVec 2} {i j : BitVec 4} {wb : BitVec 2}
  {ux uy : Updates}
  (hx : xPrefetches s s.par.xOps[i.toFin] s.par.xDest[x.toFin] ux)
  (hy : yPrefetches s s.par.yOps[j.toFin] s.par.yDest[y.toFin] uy)
include hx hy

/-- The read phase of a MAC whose prefetches meet no hazard. -/
theorem macReads_prefetches (v : Word) :
    bothReads (prefetch s .xr s.par.xOps[i.toFin] s.par.xDest[x.toFin])
      (prefetch s .y s.par.yOps[j.toFin] s.par.yDest[y.toFin]) v = .next ⟨v, none, ux ++ uy⟩ := by
  obtain ⟨vx, hvx⟩ := prefetch_xPrefetches hx
  obtain ⟨vy, hvy⟩ := prefetch_yPrefetches hy
  rw [hvx, hvy]
  exact bothReads_next rfl rfl v

/-- A MAC without a write back commits the updates of its prefetches. -/
theorem exec_mac_noWriteBack (hwb : s.par.writeBack[wb.toFin] = none) :
    exec (.mac m acc x y i j wb) s = .next (commit (macState s acc) (ux ++ uy)) := by
  simp only [exec, execMac, finishMac, hwb, macReads_prefetches hx hy, andThen_next, finishRegs,
    List.append_nil, macState]

/-- A MAC whose write back is made commits the updates of its prefetches and of W13. -/
theorem exec_mac_writeBack {u : State} {md : PtrMode} {ea q : Word}
    (hwb : s.par.writeBack[wb.toFin] = some md) (h13 : prefetchesTo13 s.par x y i j = false)
    (hp : xPointer s .xw 13 .word md ea q) (hw : storesWord (macState s acc) ea (macStored s acc) u) :
    exec (.mac m acc x y i j wb) s =
      .next (commit u (ux ++ uy ++ if md = .ind then [] else [(13, q)])) := by
  obtain ⟨hg, -⟩ := eaGen_xPointer (by simp) hp
  have gen : writeBackGen s md x y i j = ⟨ea, if md = .ind then none else some q⟩ := by
    rw [writeBackGen, h13, hg]
  have ups : (Gen.mk ea (if md = .ind then none else some q)).ups 13 =
      if md = .ind then [] else [(13, q)] := by
    by_cases hm : md = .ind <;> simp [hm]
  have write : wr (macState s acc) .word ea (macStored s acc) = .next ⟨u, false⟩ := wr_storesWord hw
  simp only [exec, execMac, finishMac, hwb, macReads_prefetches hx hy, gen, ups]
  exact finishStore_commits _ write

end

/-- What a statement commits over `u`, with `u` as a MAC's write phase leaves it. -/
theorem macCommit_effect {s u : State} {acc : Acc} (us : Updates) (hregs : u.regs = s.regs)
    (hdraws : u.draws = s.draws) (hacc : u.acc acc = Config.freeContent s.draws)
    (hother : u.acc (otherAcc acc) = s.acc (otherAcc acc)) (hframe : sameFrame s u)
    (hfault : u.fault = s.fault) (hrep : u.rep = s.rep) :
    registersAfter s (commit u us) us ∧ sameBytes u (commit u us) ∧ sameCtrl u (commit u us) ∧
      (commit u us).haz = u.haz ∧ (commit u us).acc acc = Config.freeContent s.draws ∧
      (commit u us).acc (otherAcc acc) = s.acc (otherAcc acc) ∧ sameFrame s (commit u us) ∧
      (commit u us).fault = s.fault ∧ (commit u us).rep = s.rep := by
  have kept : ∀ k, (commit u us).acc k = u.acc k := fun k => by cases k <;> simp [State.acc]
  exact ⟨registersAfter_commit hregs hdraws us, fun a => by simp [State.byteAt], commit_ctrl u us,
    commit_haz u us, (kept acc).trans hacc, (kept _).trans hother,
    sameFrame_trans hframe (sameFrame_commit u us), (commit_fault u us).trans hfault,
    (commit_rep u us).trans hrep⟩

/-- Settles O50: without a write back the state after the write phase is `macState`, with one it is the store
over it, which leaves the same alone. -/
theorem macPrefetchesFromBothSpaces : Obligations.MacPrefetchesFromBothSpaces := by
  unfold Obligations.MacPrefetchesFromBothSpaces
  intro s u m acc x y i j wb ux uy uw hx hy c hwrite
  obtain ⟨hregs, hdraws, hacc, hother, hframe, hfault, hrep⟩ := macState_keeps s acc
  rcases hwrite with ⟨hwb, rfl, rfl⟩ | ⟨md, ea, q, hwb, h13, hp, hw, rfl⟩
  · have done := exec_mac_noWriteBack (m := m) (acc := acc) hx hy hwb
    rw [List.append_nil]
    exact ⟨_, done, macCommit_effect _ hregs hdraws hacc hother hframe hfault hrep⟩
  · have done := exec_mac_writeBack (m := m) (acc := acc) hx hy hwb h13 hp hw
    obtain ⟨kregs, kA, kB, kfault, krep, kframe⟩ := wr_keeps (wr_storesWord hw)
    have kacc : ∀ k, u.acc k = (macState s acc).acc k := fun k => by cases k <;> assumption
    have ⟨_, _, _, kdraws⟩ := kframe
    exact ⟨_, done, macCommit_effect _ (kregs.trans hregs) (kdraws.trans hdraws) ((kacc acc).trans hacc)
      ((kacc _).trans hother) (sameFrame_trans hframe kframe) (kfault.trans hfault) (krep.trans hrep)⟩

/-- Settles O51: with neither prefetch the updates are W13's alone. -/
theorem macWritesBackThroughW13 : Obligations.MacWritesBackThroughW13 := by
  unfold Obligations.MacWritesBackThroughW13
  intro s t m acc x y i j wb md hnoX hnoY hwb hplain hw
  have hx : xPrefetches s s.par.xOps[i.toFin] s.par.xDest[x.toFin] [] := by rw [hnoX]; rfl
  have hy : yPrefetches s s.par.yOps[j.toFin] s.par.yDest[y.toFin] [] := by rw [hnoY]; rfl
  have h13 : prefetchesTo13 s.par x y i j = false := by simp [prefetchesTo13, hnoX, hnoY]
  have hp := xPointer_plainWrite hplain
  have done := exec_mac_writeBack (m := m) (acc := acc) hx hy hwb h13 hp hw
  have kept : t.regs = s.regs := (storesWord_keeps hw).1.trans (macState_keeps s acc).1
  have once : ((if md = .ind then [] else [((13 : Reg), md.plainNext (s.w 13) Size.word.step)] :
      Updates).map (·.1)).Nodup := by split <;> simp
  rwa [List.nil_append, List.nil_append, commit_nodup _ _ once, setRegs_pointer (xPointer_ind hp) kept]
    at done

end Sys2Proof.Machine
end

section
/-! The statements about moves under plain, modulo and bit-reversed addressing: each is a source, a step of the
pointer and a write, put together by the rules for MOV. -/

namespace Sys2Proof.Machine

/-! ### Sharing a register -/

theorem shares_eq_false_iff {o other : Operand} :
    o.shares other = false ↔ ∀ n, other.modifies = some n → n ∉ o.regs := by
  unfold Operand.shares
  cases other.modifies with
  | none => simp
  | some n => simp

/-- An operand modifies only a register it names. -/
theorem modifies_mem_regs {o : Operand} {n : Reg} (h : o.modifies = some n) : n ∈ o.regs := by
  cases o with
  | reg k => cases h
  | ptr m k => cases m <;> simp_all [Operand.modifies, Operand.regs]
  | idx k b => cases h

/-- A pointer that the other operand does not name is shared in neither direction. -/
theorem shares_of_notMem {o : Operand} {d : Reg} (h : d ∉ o.regs) (m : PtrMode) :
    o.shares (.ptr m d) = false ∧ (Operand.ptr m d).shares o = false := by
  refine ⟨shares_eq_false_iff.2 fun n hn => ?_, shares_eq_false_iff.2 fun n hn hmem => ?_⟩
  · have := modifies_mem_regs hn
    rw [Operand.regs, List.mem_singleton] at this
    rwa [this]
  · rw [Operand.regs, List.mem_singleton] at hmem
    exact h (hmem ▸ modifies_mem_regs hn)

/-- Nor is one that keeps its register, by the other operand. -/
theorem shares_of_notMem_or_ind {o : Operand} {d : Reg} {m : PtrMode} (h : d ∉ o.regs ∨ m = .ind) :
    o.shares (.ptr m d) = false := by
  rcases h with h | rfl
  · exact (shares_of_notMem h m).1
  · rfl

/-! ### Sizes -/

/-- The low byte of a bus word stands for a byte delivered. -/
theorem delivers_byte {s : State} {a : Word} {b : Byte} (h : deliversByte s a b) :
    delivers s .byte a (b.setWidth 16) := by
  rw [delivers, low_of_setWidth]
  exact h

/-- A source operand under no hazard whose address delivers. -/
theorem sourceStep_of_operandStep {s : State} {size : Size} {src : Operand} {ea v : Word} {us : Updates}
    (hz : hazardHits s src.readPointers = false) (ho : operandStep s .xr size src ea us)
    (hd : delivers s size ea v) : sourceStep s size src v us := by
  cases src with
  | reg n => exact ho.elim
  | ptr m n => exact ⟨hz, ea, ho, hd⟩
  | idx n b => exact ⟨hz, ea, ho, hd⟩

/-! ### Registers and loads -/

/-- Settles O35: a register source gives its content. -/
theorem movRegisterToRegisterCopies : Obligations.MovRegisterToRegisterCopies := by
  unfold Obligations.MovRegisterToRegisterCopies
  have move (s : State) (size : Size) (n d : Reg) :=
    exec_mov_reg (s := s) (size := size) (src := .reg n) (d := d) ⟨rfl, rfl⟩ List.not_mem_nil
  refine ⟨fun s n d => ?_, fun s n d => ?_⟩
  · obtain ⟨u, hword, -, hexec⟩ := move s .word n d
    rwa [hword rfl] at hexec
  · obtain ⟨u, -, hlow, hexec⟩ := move s .byte n d
    exact ⟨u, hlow, hexec⟩

/-- Settles O36: the plain step of a word. -/
theorem movLoadsAWordThroughAPointer : Obligations.MovLoadsAWordThroughAPointer := by
  unfold Obligations.MovLoadsAWordThroughAPointer
  refine ⟨fun s m n d v hz hplain hn hd => ?_, fun s m n v hz hplain hm hd => ?_⟩
  · obtain ⟨u, hword, -, hexec⟩ := exec_load_pointer hz (xPointer_plainRead hplain .word m) hd hn
    rwa [hword rfl] at hexec
  · exact exec_load_self hz (xPointer_plainRead hplain .word m) hd hm

/-- Settles O37: the plain step of a byte. -/
theorem movLoadsAByteThroughAPointer : Obligations.MovLoadsAByteThroughAPointer := by
  unfold Obligations.MovLoadsAByteThroughAPointer
  refine ⟨fun s m n d b hz hplain hn hd => ?_, fun s m n b hz hplain hm hd => ?_⟩
  · obtain ⟨u, -, hlow, hexec⟩ :=
      exec_load_pointer hz (xPointer_plainRead hplain .byte m) (delivers_byte hd) hn
    exact ⟨u, hlow.trans (low_of_setWidth b), hexec⟩
  · exact exec_load_self hz (xPointer_plainRead hplain .byte m) (delivers_byte hd) hm

/-- Settles O43: the plain sum with the offset. -/
theorem movLiteralOffsetLoads : Obligations.MovLiteralOffsetLoads := by
  unfold Obligations.MovLiteralOffsetLoads
  refine ⟨fun s p d k v hz hplain hd => ?_, fun s p d k b hz hplain hd => ?_⟩
  · obtain ⟨u, hword, -, hexec⟩ := exec_load_offset (d := d) hz (xStep_plain hplain rfl .word k) hd
    rwa [hword rfl] at hexec
  · obtain ⟨u, -, hlow, hexec⟩ :=
      exec_load_offset (d := d) hz (xStep_plain hplain rfl .byte k) (delivers_byte hd)
    exact ⟨u, hlow.trans (low_of_setWidth b), hexec⟩

/-! ### Stores -/

/-- Settles O38: the plain step of either size. -/
theorem movStoresThroughAPointer : Obligations.MovStoresThroughAPointer := by
  unfold Obligations.MovStoresThroughAPointer
  refine ⟨?word, ?byte, ?wordSelf, ?byteSelf⟩
  case word => exact fun s t m n d hplain hn hw => exec_store_pointer (xPointer_plainWrite hplain) hn hw
  case byte => exact fun s t m n d hplain hn hw => exec_store_pointer (xPointer_plainWrite hplain) hn hw
  case wordSelf => exact fun s t m d hplain hm hw => exec_store_self (xPointer_plainWrite hplain) hm hw
  case byteSelf => exact fun s t m d hplain hm hw => exec_store_self (xPointer_plainWrite hplain) hm hw

/-- Settles O44: the plain sum with the offset, which bit-reversed addressing does not take. -/
theorem movLiteralOffsetStores : Obligations.MovLiteralOffsetStores := by
  unfold Obligations.MovLiteralOffsetStores
  exact ⟨fun s t n p k hx hw => exec_store_offset (xStep_plain hx rfl .word k) hw,
    fun s t n p k hx hw => exec_store_offset (xStep_plain hx rfl .byte k) hw⟩

/-! ### Memory to memory -/

/-- Settles O39: the source gives what its address delivers, the destination is stored to. -/
theorem movMemoryToMemoryReadsBeforeItWrites : Obligations.MovMemoryToMemoryReadsBeforeItWrites := by
  unfold Obligations.MovMemoryToMemoryReadsBeforeItWrites
  intro s t size src dst ea ea' v us us' hs hs' hz hsrc hdst hd hw
  exact exec_mov_operandStep (sourceStep_of_operandStep hz hsrc hd) hs hs' hdst hw

/-- The indexed operand under plain addressing, on either path. -/
theorem operandStep_index {s : State} {n b : Reg} (hn : xModActive s n = false)
    (hb : xModActive s b = false) (path : Path) (size : Size) :
    operandStep s path size (.idx n b) (s.w n + s.w b) [] :=
  ⟨fun h => (by rw [hb] at h; cases h), xStep_index hn size, rfl⟩

/-- Settles O40: the indexed operand beside a register, another indexed operand or a plain pointer. -/
theorem movIndexedAddressesTheSum : Obligations.MovIndexedAddressesTheSum := by
  unfold Obligations.MovIndexedAddressesTheSum
  refine ⟨?load, ?store, ?both, ?source, ?destination⟩
  case load =>
    intro s size n b d v hz hn hb hd
    obtain ⟨hsel, hq, -⟩ := operandStep_index hn hb .xr size
    exact exec_load_indexed hz hsel hq hd
  case store =>
    intro s t size n b r hn hb hw
    obtain ⟨hsel, hq, -⟩ := operandStep_index hn hb .xw size
    exact exec_store_indexed hsel hq hw
  case both =>
    intro s t size n b d b' v hz hn hb hd' hb' hd hw
    exact exec_mov_operandStep (sourceStep_of_operandStep hz (operandStep_index hn hb .xr size) hd)
      (shares_of_idx _ _ _) (shares_of_idx _ _ _) (operandStep_index hd' hb' .xw size) hw
  case source =>
    intro s t size m n b d v hz hn hb hplain hshare hd hw
    have hp := xPointer_plainWrite hplain
    have done := exec_mov_operandStep
      (sourceStep_of_operandStep hz (operandStep_index hn hb .xr size) hd)
      (shares_of_notMem_or_ind hshare) (shares_of_idx _ _ _) ⟨_, hp, rfl⟩ hw
    rwa [List.nil_append, setRegs_pointer (xPointer_ind hp) ((stores_regs hw).trans (closeWindow_regs s))]
      at done
  case destination =>
    intro s t size m n d b v hz hplain hd' hb hshare hd hw
    have hp := xPointer_plainRead hplain size m
    have done := exec_mov_operandStep
      (sourceStep_of_operandStep (src := .ptr m n) hz ⟨_, hp, rfl⟩ hd)
      (shares_of_idx _ _ _) (shares_of_notMem_or_ind hshare) (operandStep_index hd' hb .xw size) hw
    rwa [List.append_nil, setRegs_pointer (xPointer_ind hp) ((stores_regs hw).trans (closeWindow_regs s))]
      at done

/-! ### Bit-reversed and modulo pointers -/

/-- Settles O42: the reverse-carry step of the destination beside each source. -/
theorem movStoresThroughTheBitReversedPointer : Obligations.MovStoresThroughTheBitReversedPointer := by
  unfold Obligations.MovStoresThroughTheBitReversedPointer
  intro s t d j inc hbr hj hxb hinc q
  have notInd : inc ≠ .ind := by rcases hinc with rfl | rfl <;> nofun
  have hp : xPointer s .xw d .word inc (inc.usedEa (s.w d) q) q := xPointer_reversed hbr ⟨j, hj, hxb⟩ hinc
  refine ⟨fun n hn hw => exec_store_pointer hp (.inl hn) hw, fun hw => exec_store_self hp notInd hw,
    fun src ea v us hd hz hsrc hdel hw => ?_⟩
  obtain ⟨hs, hs'⟩ := shares_of_notMem hd inc
  have done := exec_mov_operandStep (sourceStep_of_operandStep (size := .word) hz hsrc hdel) hs hs'
    ⟨q, hp, (if_neg notInd).symm⟩ hw
  rwa [setRegs_append] at done

/-- The X prefetch of a MAC in the X buffer, its Y prefetch absent (R150, R222). -/
theorem exec_mac_xModulo {s : State} {m : BitVec 3} {acc : Acc} {x y : BitVec 2} {i j : BitVec 4}
    {wb : BitVec 2} {o : PrefetchOp} {v q : Word} (hxop : s.par.xOps[i.toFin] = some o)
    (hyop : s.par.yOps[j.toFin] = none) (hwb : s.par.writeBack[wb.toFin] = none)
    (hne : s.par.xDest[x.toFin] ≠ o.pointer .xr) (hz : hazardHits s [o.pointer .xr] = false)
    (hmod : xModActive s (o.pointer .xr) = true)
    (hq : moduloStep s.xmodsrt s.xmodend (s.w (o.pointer .xr)) (prefetchDelta o s .xr) q)
    (hv : dspXReads s (s.w (o.pointer .xr)) v) :
    exec (.mac m acc x y i j wb) s =
      .next (((macState s acc).setW s.par.xDest[x.toFin] v).setW (o.pointer .xr) q) := by
  have hx : xPrefetches s s.par.xOps[i.toFin] s.par.xDest[x.toFin]
      [(s.par.xDest[x.toFin], v), (o.pointer .xr, q)] := by
    rw [hxop]; exact ⟨v, q, rfl, hz, hv, .inr ⟨hmod, hq⟩⟩
  have hy : yPrefetches s s.par.yOps[j.toFin] s.par.yDest[y.toFin] [] := by rw [hyop]; rfl
  rw [exec_mac_noWriteBack hx hy hwb, List.append_nil, commit_two _ _ _ _ _ hne]

/-- The Y prefetch of a MAC in the Y buffer, its X prefetch absent. -/
theorem exec_mac_yModulo {s : State} {m : BitVec 3} {acc : Acc} {x y : BitVec 2} {i j : BitVec 4}
    {wb : BitVec 2} {o : PrefetchOp} {v q : Word} (hxop : s.par.xOps[i.toFin] = none)
    (hyop : s.par.yOps[j.toFin] = some o) (hwb : s.par.writeBack[wb.toFin] = none)
    (hne : s.par.yDest[y.toFin] ≠ o.pointer .y) (hz : hazardHits s [o.pointer .y] = false)
    (hmod : yModActive s (o.pointer .y) = true)
    (hq : moduloStep s.ymodsrt s.ymodend (s.w (o.pointer .y)) (prefetchDelta o s .y) q)
    (hv : dspYReads s (s.w (o.pointer .y)) v) (hr : yReserved s = false) :
    exec (.mac m acc x y i j wb) s =
      .next (((macState s acc).setW s.par.yDest[y.toFin] v).setW (o.pointer .y) q) := by
  have hx : xPrefetches s s.par.xOps[i.toFin] s.par.xDest[x.toFin] [] := by rw [hxop]; rfl
  have hy : yPrefetches s s.par.yOps[j.toFin] s.par.yDest[y.toFin]
      [(s.par.yDest[y.toFin], v), (o.pointer .y, q)] := by
    rw [hyop]; exact ⟨v, q, rfl, hz, hr, hv, .inr ⟨hmod, hq⟩⟩
  rw [exec_mac_noWriteBack hx hy hwb, List.nil_append, commit_two _ _ _ _ _ hne]

/-- A YWM that names a Y pointer is not reserved (R32). -/
theorem yReserved_of_yModActive {s : State} {o : PrefetchOp} (h : yModActive s (o.pointer .y) = true) :
    yReserved s = false := by
  simp only [yModActive, Bool.and_eq_true, beq_iff_eq] at h
  obtain ⟨⟨-, hsel⟩, -⟩ := h
  unfold yReserved
  rw [hsel]
  cases hb : o.second <;> simp [PrefetchOp.pointer, hb]

/-- Settles O41: on each path the buffer's step. -/
theorem accessThroughAModuloPointerWraps : Obligations.AccessThroughAModuloPointerWraps := by
  unfold Obligations.AccessThroughAModuloPointerWraps
  refine ⟨?loadWord, ?loadByte, ?storeWord, ?storeByte, ?macX, ?macY, ?loadOffset, ?storeOffset,
    ?loadIndexed, ?storeIndexed⟩
  case loadWord =>
    intro s m n d v q hn hz hx hq hd
    obtain ⟨u, hword, -, hexec⟩ :=
      exec_load_pointer (size := .word) hz (xPointer_modulo hx (.inl rfl) hq) hd hn
    rwa [hword rfl] at hexec
  case loadByte =>
    intro s m n d b q hn hz hx hq hd
    obtain ⟨u, -, hlow, hexec⟩ :=
      exec_load_pointer (size := .byte) hz (xPointer_modulo hx (.inl rfl) hq) (delivers_byte hd) hn
    exact ⟨u, hlow.trans (low_of_setWidth b), hexec⟩
  case storeWord =>
    intro s t m n d q hn hx hbr hq hw
    exact exec_store_pointer (size := .word) (xPointer_modulo hx (.inr hbr) hq) hn hw
  case storeByte =>
    intro s t m n d q hn hx hbr hq hw
    exact exec_store_pointer (size := .byte) (xPointer_modulo hx (.inr hbr) hq) hn hw
  case macX =>
    intro s m acc x y i j wb bx dx v q hxop hyop hwb n e hne hz hx hq hv
    exact exec_mac_xModulo hxop hyop hwb hne hz hx hq hv
  case macY =>
    intro s m acc x y i j wb bY dy v q hxop hyop hwb n e hne hz hy hq hv
    exact exec_mac_yModulo hxop hyop hwb hne hz hy hq hv
      (yReserved_of_yModActive (o := ⟨bY, some dy⟩) hy)
  case loadOffset =>
    intro s size p d k v q hz hx hq hd
    exact exec_load_offset hz (xStep_modulo hx rfl (.inl rfl) hq size) hd
  case storeOffset =>
    intro s t size n p k q hx hbr hq hw
    exact exec_store_offset (xStep_modulo hx rfl (.inr hbr) hq size) hw
  case loadIndexed =>
    intro s size n b d v q hz hx hq hd
    exact exec_load_indexed hz (fun _ => hx) (xStep_modulo hx rfl (.inl rfl) hq size) hd
  case storeIndexed =>
    intro s t size n b r q hx hbr hq hw
    have noOffset : bitRevActive s n = false ∨ (s.w b).toInt = 0 := hbr.imp id fun h => by rw [h]; rfl
    exact exec_store_indexed (fun _ => hx) (xStep_modulo hx rfl (.inr noOffset) hq size) hw

end Sys2Proof.Machine
end

section
/-! Frames: what each form of statement leaves alone, read off the one outcome of a statement. -/

namespace Sys2Proof.Machine

/-! ### The effect of a statement's phases -/

theorem sameBytes_of_mem {s t : State} (h : t.mem = s.mem) : sameBytes s t := fun a => by
  rw [State.byteAt, State.byteAt, h]

/-- The write phase of a statement changes nothing but at its target. -/
theorem afterWrite_effect {i : Instr} {s c r : State} {size : Size} {ea : Word} (hc : afterReads i s c)
    (hr : afterWrite i s c r) (htarget : storeTarget i s = some (size, ea)) :
    sameBytesBut s r size ea ∧ sameCtrlBut s r ea ∧
      (region s.par ea ≠ .sfr → r.haz = [] ∧ sameCtrl s r) := by
  obtain ⟨-, hmem, hctrl, hhaz, -, -, ⟨-, -, hpar, -⟩, -⟩ := afterReads_keeps hc
  rcases hr with rfl | ⟨size', ea', v, p, htarget', hp, rfl⟩
  · exact ⟨fun a _ _ => sameBytes_of_mem hmem a, fun k _ => hctrl k, fun _ => ⟨hhaz, hctrl⟩⟩
  · rw [htarget] at htarget'
    cases htarget'
    obtain ⟨hbytes, hctrlBut, hram⟩ := wr_effect hp
    refine ⟨fun a h1 h2 => (hbytes a h1 h2).trans (sameBytes_of_mem hmem a), fun k hk => ?_, fun hsfr => ?_⟩
    · exact (hctrlBut k (hpar ▸ hk)).trans (hctrl k)
    · obtain ⟨hpHaz, hpCtrl⟩ := hram (hpar ▸ hsfr)
      exact ⟨hpHaz.trans hhaz, fun k => (hpCtrl k).trans (hctrl k)⟩

/-- A statement that makes no write has no write phase. -/
theorem afterWrite_none {i : Instr} {s c r : State} (hr : afterWrite i s c r)
    (hnone : storeTarget i s = none) : r = c := by
  rcases hr with rfl | ⟨size, ea, v, p, htarget, -⟩
  · rfl
  · rw [hnone] at htarget; cases htarget

/-- The end of a statement changes registers, the mark and the count alone; without the trap only the registers
it updates. -/
theorem statementEnd_keeps {i : Instr} {s c r t : State} (h : statementEnd i s c r t) :
    t.mem = r.mem ∧ sameCtrl r t ∧ t.haz = r.haz ∧ (∀ acc, t.acc acc = r.acc acc) ∧
      (t.fault = none → sameRegsBut r t (updatedRegs i s.par) ∧ t.rep = r.rep) := by
  rcases h with ⟨us, hus, rfl⟩ | ⟨e, rfl, -⟩
  · refine ⟨commit_mem r us, commit_ctrl r us, commit_haz r us, fun acc => ?_, fun _ => ⟨fun n hn => ?_,
      commit_rep r us⟩⟩
    · cases acc
      · exact commit_accA r us
      · exact commit_accB r us
    · exact commit_w_other r us n fun u hu hun => hn (hun ▸ hus u hu)
  · refine ⟨raise_mem r e _, raise_ctrl r e _, raise_haz r e _, fun acc => ?_, nofun⟩
    cases acc
    · exact raise_accA r e _
    · exact raise_accB r e _

/-- What a statement other than REPEAT leaves alone. -/
theorem exec_frame {i : Instr} {s t : State} (hi : ∀ lit, i ≠ .repeatLit lit) (h : exec i s = .next t) :
    (storeTarget i s = none → sameBytes s t ∧ sameCtrl s t ∧ t.haz = []) ∧
    (∀ size ea, storeTarget i s = some (size, ea) → sameBytesBut s t size ea ∧ sameCtrlBut s t ea ∧
      (region s.par ea ≠ .sfr → t.haz = [] ∧ sameCtrl s t)) ∧
    (∀ acc, targetAcc i ≠ some acc → t.acc acc = s.acc acc) ∧
    (t.fault = none → sameRegsBut s t (updatedRegs i s.par) ∧ t.rep = s.rep) := by
  rcases exec_outcome h with ⟨lit, rfl, -⟩ | ⟨c, r, hc, hr, ht⟩
  · exact absurd rfl (hi lit)
  · obtain ⟨hregs, hmem, hctrl, hhaz, -, hrep, -, hacc⟩ := afterReads_keeps hc
    obtain ⟨kregs, kacc, -, krep, -⟩ := afterWrite_keeps hr
    obtain ⟨tmem, tctrl, thaz, tacc, tregs⟩ := statementEnd_keeps ht
    refine ⟨fun hnone => ?_, fun size ea htarget => ?_, fun acc ha => ?_, fun hfault => ?_⟩
    · obtain rfl := afterWrite_none hr hnone
      exact ⟨sameBytes_of_mem (tmem.trans hmem), fun k => (tctrl k).trans (hctrl k), thaz.trans hhaz⟩
    · obtain ⟨hbytes, hctrlBut, hram⟩ := afterWrite_effect hc hr htarget
      refine ⟨fun a h1 h2 => (sameBytes_of_mem tmem a).trans (hbytes a h1 h2),
        fun k hk => (tctrl k).trans (hctrlBut k hk), fun hsfr => ?_⟩
      obtain ⟨rhaz, rctrl⟩ := hram hsfr
      exact ⟨thaz.trans rhaz, fun k => (tctrl k).trans (rctrl k)⟩
    · exact (tacc acc).trans ((kacc acc).trans (hacc acc ha))
    · obtain ⟨hw, hcount⟩ := tregs hfault
      refine ⟨fun n hn => (hw n hn).trans ?_, hcount.trans (krep.trans hrep)⟩
      rw [State.w, State.w, kregs, hregs]

/-- REPEAT takes no trap. -/
theorem notRepeat_of_trap {i : Instr} {s t : State} {e : AddressError} (hfault : s.fault = none)
    (h : exec i s = .next t) (htrap : t.fault = some e) : ∀ lit, i ≠ .repeatLit lit := by
  rintro lit rfl
  rw [exec, execRepeat] at h
  split at h
  · cases h; cases hfault.symm.trans htrap
  · cases h

/-- What a statement that takes the trap leaves alone besides: the registers it does not name, and all of memory
where the trap is its write's. -/
theorem exec_trap_frame {i : Instr} {s t : State} {e : AddressError} (hfault : s.fault = none)
    (h : exec i s = .next t) (htrap : t.fault = some e) :
    sameRegsBut s t (namedRegs i s.par) ∧
      (e.kind = .write ∨ storeTarget i s = none → sameBytes s t ∧ sameCtrl s t ∧ t.haz = []) ∧
      (t.rep = s.rep ∨ t.rep = 0) := by
  rcases exec_outcome h with ⟨lit, -, -, rfl⟩ | ⟨c, r, hc, hr, ht⟩
  · cases hfault.symm.trans htrap
  · obtain ⟨hregs, hmem, hctrl, hhaz, hcfault, hrep, -, -⟩ := afterReads_keeps hc
    obtain ⟨kregs, -, kfault, krep, -⟩ := afterWrite_keeps hr
    rcases ht with ⟨us, -, rfl⟩ | ⟨e', rfl, hclean⟩
    · rw [commit_fault, kfault, hcfault, hfault] at htrap; cases htrap
    · obtain rfl : e' = e := Option.some.inj htrap
      refine ⟨fun n hn => ?registers, fun hwrite => ?clean, ?count⟩
      case registers =>
        rw [raise_w_other r e' _ n hn, State.w, State.w, kregs, hregs]
      case clean =>
        obtain rfl := hclean hwrite
        refine ⟨sameBytes_of_mem ((raise_mem r e' _).trans hmem), fun k => ?_, (raise_haz r e' _).trans hhaz⟩
        exact (raise_ctrl r e' _ k).trans (hctrl k)
      case count =>
        rcases raise_rep r e' (namedRegs i s.par) with hz | hk
        · exact .inr hz
        · exact .inl (hk.trans (krep.trans hrep))

/-- Settles O55: the frame of every statement and what the trap leaves besides. -/
theorem trapLeavesWhatTheStatementDoesNotName : Obligations.TrapLeavesWhatTheStatementDoesNotName := by
  unfold Obligations.TrapLeavesWhatTheStatementDoesNotName
  intro i s t e hfault h htrap
  obtain ⟨hregs, hclean, hrep⟩ := exec_trap_frame hfault h htrap
  obtain ⟨-, htarget, hacc, -⟩ := exec_frame (notRepeat_of_trap hfault h htrap) h
  refine ⟨hregs, exec_sameFrame h, hacc, hclean, fun size ea hst => ?_, hrep⟩
  obtain ⟨hbytes, hctrl, hram⟩ := htarget size ea hst
  exact ⟨hbytes, hctrl, fun hsfr => (hram hsfr).symm⟩

/-! ### The forms -/

/-- The register forms make no write, target no accumulator and update their destination and pointers. -/
theorem registerForm_props {i : Instr} {d : Reg} {ps : List Reg} (h : registerForm i = some (d, ps))
    (s : State) :
    (∀ lit, i ≠ .repeatLit lit) ∧ storeTarget i s = none ∧ targetAcc i = none ∧
      ∀ n ∈ updatedRegs i s.par, n ∈ d :: ps := by
  cases i with
  | movLit lit k => cases h; exact ⟨nofun, rfl, rfl, fun n hn => hn⟩
  | movLoad f k => cases h; exact ⟨nofun, rfl, rfl, fun n hn => hn⟩
  | mov size src dst =>
    cases dst with
    | reg k =>
      cases h
      exact ⟨nofun, rfl, rfl, fun n hn => (List.mem_append.1 hn).elim (List.mem_cons_of_mem _)
        fun hk => List.mem_singleton.1 hk ▸ List.mem_cons_self⟩
    | ptr m k => cases h
    | idx k b => cases h
  | movLoadOff size p k d => cases h; exact ⟨nofun, rfl, rfl, fun n hn => hn⟩
  | movStore _ _ | movStoreOff _ _ _ _ | nop | repeatLit _ | pop _ | ret | retfie | retlw _ _ _ | ulnk
  | mac _ _ _ _ _ _ _ => cases h

/-- The storing forms write at their target, target no accumulator and update the pointers of their operands. -/
theorem storeForm_props {i : Instr} {s : State} {size : Size} {ea : Word} {ps : List Reg}
    (h : storeForm i s = some (size, ea, ps)) :
    (∀ lit, i ≠ .repeatLit lit) ∧ storeTarget i s = some (size, ea) ∧ targetAcc i = none ∧
      updatedRegs i s.par = ps := by
  cases i with
  | movStore n f => cases h; exact ⟨nofun, rfl, rfl, rfl⟩
  | mov size src dst =>
    cases dst with
    | reg k => cases h
    | ptr m k => cases h; exact ⟨nofun, rfl, rfl, rfl⟩
    | idx k b => cases h; exact ⟨nofun, rfl, rfl, rfl⟩
  | movStoreOff size n p k => cases h; exact ⟨nofun, rfl, rfl, rfl⟩
  | pop f => cases h; exact ⟨nofun, rfl, rfl, rfl⟩
  | movLit _ _ | movLoad _ _ | movLoadOff _ _ _ _ | nop | repeatLit _ | ret | retfie | retlw _ _ _ | ulnk
  | mac _ _ _ _ _ _ _ => cases h

/-- A statement that targets no accumulator leaves both alone. -/
theorem sameAccs_of_targetAcc {i : Instr} {s t : State} (hi : targetAcc i = none)
    (h : ∀ acc, targetAcc i ≠ some acc → t.acc acc = s.acc acc) : sameAccs s t :=
  ⟨h .a (hi ▸ nofun), h .b (hi ▸ nofun)⟩

/-- Settles O56: a register form makes no write. -/
theorem frameOfTheRegisterForms : Obligations.FrameOfTheRegisterForms := by
  unfold Obligations.FrameOfTheRegisterForms
  intro i s t d ps _ hform h
  obtain ⟨hi, hnone, hacc, hregs⟩ := registerForm_props hform s
  obtain ⟨hclean, -, haccs, hupdates⟩ := exec_frame hi h
  obtain ⟨hbytes, hctrl, hhaz⟩ := hclean hnone
  refine ⟨hbytes, hctrl, sameAccs_of_targetAcc hacc haccs, exec_sameFrame h, hhaz, fun hfault => ?_⟩
  obtain ⟨hsame, hrep⟩ := hupdates hfault
  exact ⟨fun n hn => hsame n fun hu => hn (hregs n hu), hrep⟩

/-- Settles O57: a storing form writes at its address. -/
theorem frameOfTheStoringForms : Obligations.FrameOfTheStoringForms := by
  unfold Obligations.FrameOfTheStoringForms
  intro i s t size ea ps _ hform h
  obtain ⟨hi, htarget, hacc, rfl⟩ := storeForm_props hform
  obtain ⟨-, hwrite, haccs, hupdates⟩ := exec_frame hi h
  obtain ⟨hbytes, hctrl, hram⟩ := hwrite size ea htarget
  exact ⟨hbytes, hctrl, sameAccs_of_targetAcc hacc haccs, exec_sameFrame h, hram, hupdates⟩

/-- Settles O58: a MAC writes at its write back's address, where it has one. -/
theorem frameOfMac : Obligations.FrameOfMac := by
  unfold Obligations.FrameOfMac
  intro s t m acc x y i j wb _ h
  obtain ⟨hclean, hwrite, haccs, hupdates⟩ := exec_frame (fun _ hm => by cases hm) h
  refine ⟨fun hnone => hclean ?_, fun md hmd => ?_, haccs (otherAcc acc) ?_, exec_sameFrame h, hupdates⟩
  · rw [storeTarget, hnone]; rfl
  · have htarget : storeTarget (.mac m acc x y i j wb) s =
        some (.word, (writeBackGen s md x y i j).ea) := by rw [storeTarget, hmd]; rfl
    obtain ⟨hbytes, hctrl, -⟩ := hwrite _ _ htarget
    exact ⟨hbytes, hctrl⟩
  · cases acc <;> nofun

end Sys2Proof.Machine
end

section
/-! POP, and the address error trap of each form: a read that meets a cause traps whatever the write would do, a
write that meets one traps where the read took no trap, and of a MAC's two reads the X read's is recorded. -/

namespace Sys2Proof.Machine

/-! ### POP (R217) -/

/-- The update of a pointer mode that the spec fixes. -/
def pointerGen (m : PtrMode) (ea q : Word) : Gen := ⟨ea, if m = .ind then none else some q⟩

theorem pointerGen_ups (m : PtrMode) (ea q : Word) (n : Reg) :
    (pointerGen m ea q).ups n = if m = .ind then [] else [(n, q)] := by
  by_cases hm : m = .ind <;> simp [pointerGen, hm]

theorem pointerGen_ups_nodup (m : PtrMode) (ea q : Word) (n : Reg) :
    (((pointerGen m ea q).ups n).map (·.1)).Nodup := by
  rw [pointerGen_ups]
  split <;> simp

/-- POP under no hazard, its pointer plain or in the X buffer: a read and a write. -/
theorem exec_pop {s : State} {ea q : Word} (hz : hazardHits s (List.finRange 16) = false)
    (hp : xPointer s .xr s.par.popReg .word s.par.popMode ea q) (f : Word) :
    exec (.pop f) s = finishStore s.closeWindow .word f
      (fetchMcu s .word s.par.popReg (pointerGen s.par.popMode ea q)) [] [s.par.popReg] := by
  obtain ⟨hg, -⟩ := eaGen_xPointer (by simp) hp
  simp only [exec, execPop, hz, hg, pointerGen]

/-- POP whose read delivers and whose write is made. -/
theorem exec_pop_stores {s t : State} {f ea q v : Word} (hz : hazardHits s (List.finRange 16) = false)
    (hp : xPointer s .xr s.par.popReg .word s.par.popMode ea q) (hd : deliversWord s ea v)
    (hw : storesWord s.closeWindow f v t) : exec (.pop f) s = .next (t.setW s.par.popReg q) := by
  obtain ⟨u, hword, hlow, hf⟩ := fetchMcu_delivers (n := s.par.popReg)
    (g := pointerGen s.par.popMode ea q) (show delivers s .word ea v from hd)
  have kept : t.regs = s.regs := (storesWord_keeps hw).1.trans (closeWindow_regs s)
  have once := pointerGen_ups_nodup s.par.popMode ea q s.par.popReg
  rw [← List.append_nil (Gen.ups _ _)] at once
  have write : stores s.closeWindow .word f v t := hw
  rw [exec_pop hz hp, hf, finishStore_stores _ hword hlow write once, List.append_nil, pointerGen_ups,
    setRegs_pointer (xPointer_ind hp) kept]

/-- Settles O48: a write to RAM, or to a control register, whose frame is that register's write. -/
theorem popMovesTheTopOfStack : Obligations.PopMovesTheTopOfStack := by
  unfold Obligations.PopMovesTheTopOfStack
  refine ⟨fun s f ea q v hz hp hd aligned ram => exec_pop_stores hz hp hd (.inl ⟨aligned, ram, rfl⟩),
    fun s r ea q v hok hz hp hd => ?_⟩
  have done := exec_pop_stores hz hp hd (.inr ⟨r, hok, rfl, rfl⟩)
  obtain ⟨hhaz, hregs, hbytes, haccs, hframe, hfault, hrep⟩ := writeCtrl_frame s r v
  refine ⟨_, done, ?same, hhaz, setW_w_same _ _ q, fun n hn => ?registers, hbytes, fun r' hr' => ?others,
    haccs, hframe, hfault, hrep⟩
  case same => rw [setW_ctrl, writeCtrl_ctrl_same]
  case registers =>
    have other : s.par.popReg ≠ n := fun e => hn (e ▸ List.mem_singleton_self _)
    rw [setW_w_other _ _ n q other]
    exact hregs n List.not_mem_nil
  case others => rw [setW_ctrl, writeCtrl_ctrl_other _ r v hr', closeWindow_ctrl]

/-! ### The shape of a storing move -/

/-- A move with a write is a store at the address its meaning generates. -/
theorem exec_mov_storeTarget {s : State} {size size' : Size} {src dst : Operand} {ea : Word}
    (h : storeTarget (.mov size src dst) s = some (size', ea)) :
    size' = size ∧ ∃ ups, exec (.mov size src dst) s = finishStore s.closeWindow size ea
      (fetchSource s size src (src.shares dst)) ups (src.regs ++ dst.regs) := by
  cases dst with
  | reg d => cases h
  | ptr m d => cases h; exact ⟨rfl, _, rfl⟩
  | idx d b => cases h; exact ⟨rfl, _, rfl⟩

/-- The address the spec fixes for a destination is the one the move stores to. -/
theorem storeTarget_operandStep {s : State} {size : Size} {src dst : Operand} {ea : Word} {us : Updates}
    (hs : dst.shares src = false) (h : operandStep s .xw size dst ea us) :
    storeTarget (.mov size src dst) s = some (size, ea) := by
  cases dst with
  | reg d => exact h.elim
  | ptr m d =>
    obtain ⟨q, hq, -⟩ := h
    simp only [storeTarget, storeForm, hs, (eaGen_xPointer (by simp) hq).1, Option.map_some]
  | idx d b =>
    obtain ⟨hb, hq, -⟩ := h
    simp only [storeTarget, storeForm, hs, eaGen_regOff (by simp) hb hq, Option.map_some]

/-- The same with a literal offset. -/
theorem exec_movStoreOff_storeTarget {s : State} {size size' : Size} {n p : Reg} {k : Int} {ea : Word}
    (h : storeTarget (.movStoreOff size n p k) s = some (size', ea)) :
    size' = size ∧ exec (.movStoreOff size n p k) s = finishStore s.closeWindow size ea
      (.next ⟨s.w n, none, []⟩) [] [n, p] := by
  cases h; exact ⟨rfl, rfl⟩

/-! ### The trap of a write -/

/-- A write that meets a cause of the trap, after a read phase that took none. -/
theorem finishStore_writeTrap {s c : State} {size : Size} {ea : Word} {p : Part Fetched}
    (hpar : c.par = s.par) (h : ¬ inPlace s size ea) (hp : trapOf p = none) (us : Updates) (ns : List Reg) :
    finishStore c size ea p us ns = .next (raiseAddressError c ⟨ea, .write⟩ ns) := by
  have traps : writeTraps c size ea = true := by
    rw [writeTraps_iff, inPlace, hpar]
    exact h
  rw [finishStore_writeTraps traps, hp, Option.getD_none]

/-- What a statement that ends in the trap, with nothing stored, leaves alone. -/
theorem trapped_of_exec {i : Instr} {s : State} {ea : Word} {kind : AccessKind} {ns : List Reg}
    (h : exec i s = .next (raiseAddressError s.closeWindow ⟨ea, kind⟩ ns)) :
    ∃ t, exec i s = .next t ∧ trapped s t ea kind ns ∧ nothingStored s t :=
  ⟨_, h, raise_trapped s ea kind ns⟩

/-- The trap of a move's write at the address its meaning generates, fixed or free. -/
theorem exec_mov_writeTraps {s : State} {size : Size} {src dst : Operand} {ea : Word}
    (htarget : storeTarget (.mov size src dst) s = some (size, ea))
    (hread : trapOf (fetchSource s size src (src.shares dst)) = none) (h : ¬ inPlace s size ea) :
    ∃ t, exec (.mov size src dst) s = .next t ∧ trapped s t ea .write (src.regs ++ dst.regs) ∧
      nothingStored s t := by
  obtain ⟨-, ups, hexec⟩ := exec_mov_storeTarget htarget
  refine trapped_of_exec ?_
  rw [hexec]
  exact finishStore_writeTrap (closeWindow_par s) h hread ups _

theorem exec_movStoreOff_writeTraps {s : State} {size : Size} {n p : Reg} {k : Int} {ea : Word}
    (htarget : storeTarget (.movStoreOff size n p k) s = some (size, ea)) (h : ¬ inPlace s size ea) :
    ∃ t, exec (.movStoreOff size n p k) s = .next t ∧ trapped s t ea .write [n, p] ∧ nothingStored s t := by
  obtain ⟨-, hexec⟩ := exec_movStoreOff_storeTarget htarget
  refine trapped_of_exec ?_
  rw [hexec]
  exact finishStore_writeTrap (closeWindow_par s) h rfl [] _

/-- A register as the source takes no trap, shared or not. -/
theorem trapOf_fetchSource_reg (s : State) (size : Size) (n : Reg) (shared : Bool) :
    trapOf (fetchSource s size (.reg n) shared) = none := rfl

/-- Nor does a memory operand at an address that meets no cause. -/
theorem trapOf_fetchSource_inPlace {s : State} {size : Size} {src : Operand} {ea : Word} {us : Updates}
    (hz : hazardHits s src.readPointers = false) (ho : operandStep s .xr size src ea us)
    (h : inPlace s size ea) : trapOf (fetchSource s size src false) = none := by
  obtain ⟨n, g, rfl, -, hf⟩ := fetchSource_operandStep hz ho
  rw [hf]
  exact trapOf_fetchMcu_inPlace h

/-- The trap of a MAC's write back: its prefetches take none. -/
theorem exec_mac_writeTraps {s : State} {m : BitVec 3} {acc : Acc} {x y : BitVec 2} {i j : BitVec 4}
    {wb : BitVec 2} {md : PtrMode} {ea q : Word} (hwb : s.par.writeBack[wb.toFin] = some md)
    (hp : xPointer s .xw 13 .word md ea q) (h13 : prefetchesTo13 s.par x y i j = false)
    (hx : trapOf (prefetch s .xr s.par.xOps[i.toFin] s.par.xDest[x.toFin]) = none)
    (hy : trapOf (prefetch s .y s.par.yOps[j.toFin] s.par.yDest[y.toFin]) = none)
    (h : ¬ inPlace s .word ea) :
    exec (.mac m acc x y i j wb) s =
      .next (raiseAddressError (macState s acc) ⟨ea, .write⟩ (macNamed s.par m x y i j wb)) := by
  obtain ⟨hg, -⟩ := eaGen_xPointer (by simp) hp
  have gen : (writeBackGen s md x y i j).ea = ea := by rw [writeBackGen, h13, hg]
  obtain ⟨-, -, -, -, ⟨-, -, hpar, -⟩, -⟩ := macState_keeps s acc
  have noTrap (v : Word) : trapOf (bothReads (prefetch s .xr s.par.xOps[i.toFin] s.par.xDest[x.toFin])
      (prefetch s .y s.par.yOps[j.toFin] s.par.yDest[y.toFin]) v) = none := by
    cases hb : bothReads (prefetch s .xr s.par.xOps[i.toFin] s.par.xDest[x.toFin])
      (prefetch s .y s.par.yOps[j.toFin] s.par.yDest[y.toFin]) v with
    | next f =>
      rcases bothReads_cases hb with ⟨-, ⟨e, -, he⟩ | ⟨he, -⟩⟩
      · rw [hx, hy] at he; cases he
      · exact he
    | fault r => rfl
    | refused r => rfl
  simp only [exec, execMac, finishMac, hwb, gen]
  exact finishStore_writeTrap hpar h (noTrap _) _ _

/-- What that trap leaves alone. -/
theorem raise_macState (s : State) (acc : Acc) (e : AddressError) (ns : List Reg) :
    let t := raiseAddressError (macState s acc) e ns
    sameRegsBut s t ns ∧ nothingStored s t ∧ t.acc (otherAcc acc) = s.acc (otherAcc acc) ∧
      sameFrame s t := by
  obtain ⟨hregs, -, -, hother, hframe, -⟩ := macState_keeps s acc
  have hmem : (macState s acc).mem = s.mem := setAcc_mem _ _ _
  have hctrl : sameCtrl s (macState s acc) := fun r => by simp [macState]
  refine ⟨fun n hn => ?_, ⟨sameBytes_of_mem ((raise_mem _ _ _).trans hmem), fun r => ?_⟩, ?_,
    sameFrame_trans hframe (sameFrame_raise _ _ _)⟩
  · rw [raise_w_other _ _ _ n hn, State.w, State.w, hregs]
  · exact (raise_ctrl _ _ _ r).trans (hctrl r)
  · rw [← hother]; cases acc <;> simp [otherAcc, State.acc]

/-- Settles O54: each form ends in its write's trap over the state after its reads. -/
theorem storeTrapsOnABadAddress : Obligations.StoreTrapsOnABadAddress := by
  unfold Obligations.StoreTrapsOnABadAddress
  refine ⟨?direct, ?register, ?offset, ?memory, ?pop, ?mac⟩
  case direct =>
    intro s n f h
    have hexec : exec (.movStore n f) s = .next (raiseAddressError s.closeWindow ⟨f, .write⟩ [n]) :=
      finishStore_writeTrap (p := .next ⟨s.w n, none, []⟩) (closeWindow_par s) h rfl [] [n]
    exact trapped_of_exec hexec
  case register =>
    intro s size n dst ea us hdst h
    exact exec_mov_writeTraps (storeTarget_operandStep (shares_of_reg dst n) hdst)
      (trapOf_fetchSource_reg s size n _) h
  case offset =>
    intro s size n p k ea hq h
    refine exec_movStoreOff_writeTraps ?_ h
    simp only [storeTarget, storeForm, eaGen_litOff (show Path.xw ≠ .y by simp) hq, Option.map_some]
  case memory =>
    intro s size src dst ea ea' us us' hs hs' hz hsrc hdst hin h
    refine exec_mov_writeTraps (storeTarget_operandStep hs' hdst) ?_ h
    rw [hs]
    exact trapOf_fetchSource_inPlace hz hsrc hin
  case pop =>
    intro s f ea q hz hp hin h
    refine trapped_of_exec ?_
    rw [exec_pop hz hp]
    exact finishStore_writeTrap (closeWindow_par s) h (trapOf_fetchMcu_inPlace hin) [] _
  case mac =>
    intro s m acc x y i j wb md ea q hwb hp h13 hx hy h
    obtain ⟨hregs, hstored, hother, hframe⟩ :=
      raise_macState s acc ⟨ea, .write⟩ (macNamed s.par m x y i j wb)
    exact ⟨_, exec_mac_writeTraps hwb hp h13 (trapOf_prefetch_xInPlace _ hx) (trapOf_prefetch_yInPlace _ hy) h,
      raise_fault _ _ _, hregs, hstored, hother, hframe⟩

/-! ### The trap of a read -/

/-- Settles O53: the read phase carries the trap, and the end of each form takes it. -/
theorem readTrapsOnABadAddress : Obligations.ReadTrapsOnABadAddress := by
  unfold Obligations.ReadTrapsOnABadAddress
  refine ⟨?direct, ?move, ?offset, ?pop⟩
  case direct =>
    intro s f d h
    obtain ⟨v, hv⟩ := rdW_wordReadTraps h
    refine trapped_of_exec ?_
    simp only [exec, execMovLoad, hv, andThen_next, finishRegs, readError, if_true]
  case move =>
    intro s size src dst ea us hs hz hsrc h
    obtain ⟨n, g, rfl, -, hf⟩ := fetchSource_operandStep hz hsrc
    obtain ⟨v, hv⟩ := fetchMcu_readTraps (n := n) h
    have read := hf.trans hv
    cases hst : storeTarget (.mov size src dst) s with
    | none =>
      obtain ⟨d, rfl⟩ : ∃ d, dst = .reg d := by
        cases dst with
        | reg d => exact ⟨d, rfl⟩
        | ptr m d => cases hst
        | idx d b => cases hst
      have hexec : exec (.mov size src (.reg d)) s = .next
          (raiseAddressError s.closeWindow ⟨g.ea, .read⟩ (src.regs ++ (Operand.reg d).regs)) := by
        simp only [exec, execMov, shares_of_reg, read, andThen_next, finishRegs]
      obtain ⟨htrap, hnothing⟩ :=
        raise_trapped s g.ea .read (src.regs ++ (Operand.reg d).regs)
      exact ⟨_, hexec, htrap, fun _ _ => hnothing, fun _ h => nomatch h⟩
    | some target =>
      obtain ⟨size', ea'⟩ := target
      obtain ⟨rfl, ups, hexec⟩ := exec_mov_storeTarget hst
      obtain ⟨t, ht, htrap, hbut⟩ := finishStore_trapped (s := s) (size := size') (ea := ea')
        (f := ⟨v, some ⟨g.ea, .read⟩, g.ups n⟩) (us := ups) (ns := src.regs ++ dst.regs) rfl
      rw [hs, read] at hexec
      refine ⟨t, hexec.trans ht, htrap, ?_, fun a ha => ?_⟩
      · rintro d rfl; cases hst
      · cases ha; exact hbut
  case offset =>
    intro s size p d k ea hz hq h
    obtain ⟨v, hv⟩ := fetchMcu_readTraps (n := p) (g := ⟨ea, none⟩) h
    refine trapped_of_exec ?_
    simp only [exec, execMovLoadOff, hz, eaGen_litOff (show Path.xr ≠ .y by simp) hq, hv, andThen_next,
      finishRegs]
  case pop =>
    intro s f ea q hz hp h
    obtain ⟨v, hv⟩ := fetchMcu_readTraps (n := s.par.popReg) (g := pointerGen s.par.popMode ea q) h
    rw [exec_pop hz hp, hv]
    exact finishStore_trapped rfl

/-- A MAC one of whose reads traps takes the first of the two in the order X, Y (R239). -/
theorem exec_mac_readTraps {s : State} {m : BitVec 3} {acc : Acc} {x y : BitVec 2} {i j : BitVec 4}
    {wb : BitVec 2} {e : AddressError}
    (h : (trapOf (prefetch s .xr s.par.xOps[i.toFin] s.par.xDest[x.toFin])).or
      (trapOf (prefetch s .y s.par.yOps[j.toFin] s.par.yDest[y.toFin])) = some e) :
    ∃ t, exec (.mac m acc x y i j wb) s = .next t ∧ t.fault = some e ∧
      (s.par.writeBack[wb.toFin] = none → nothingStored s t) := by
  cases hwb : s.par.writeBack[wb.toFin] with
  | none =>
    obtain ⟨-, hstored, -⟩ := raise_macState s acc e (macNamed s.par m x y i j wb)
    refine ⟨_, ?_, raise_fault _ _ _, fun _ => hstored⟩
    simp only [exec, execMac, finishMac, hwb, bothReads_trap h, andThen_next, finishRegs, macState]
  | some md =>
    have hexec : exec (.mac m acc x y i j wb) s = finishStore (macState s acc) .word
        (writeBackGen s md x y i j).ea (.next ⟨macStored s acc, some e, []⟩)
        ((writeBackGen s md x y i j).ups 13) (macNamed s.par m x y i j wb) := by
      simp only [exec, execMac, finishMac, hwb, bothReads_trap h, macState, macStored]
    exact ⟨_, hexec.trans (finishStore_trap rfl), raise_fault _ e _, nofun⟩

theorem trapOf_prefetch_xTraps {s : State} {o : PrefetchOp} (dest : Reg)
    (hz : hazardHits s [o.pointer .xr] = false) (hi : xPointerInside s (o.pointer .xr))
    (h : wordReadTraps s (s.w (o.pointer .xr))) :
    trapOf (prefetch s .xr (some o) dest) = some ⟨s.w (o.pointer .xr), .read⟩ := by
  obtain ⟨v, hv⟩ := rdX_wordReadTraps h
  simp only [prefetch, prefetchGen_xEa hz hi, rdDsp, hv, andThen_next, trapOf, readError, if_true]

theorem trapOf_prefetch_yTraps {s : State} {o : PrefetchOp} (dest : Reg)
    (hz : hazardHits s [o.pointer .y] = false) (hr : yReserved s = false)
    (hi : yPointerInside s (o.pointer .y)) (h : ¬ inPlace s .word (s.w (o.pointer .y))) :
    trapOf (prefetch s .y (some o) dest) = some ⟨s.w (o.pointer .y), .read⟩ := by
  obtain ⟨v, hv⟩ := rdY_traps h
  simp only [prefetch, prefetchGen_yEa hz hr hi, rdDsp, hv, andThen_next, trapOf, readError, if_true]

/-- Settles O52: the X read's trap is the first of the two, the Y read's where the X read takes none. -/
theorem macRecordsTheXReadFirst : Obligations.MacRecordsTheXReadFirst := by
  unfold Obligations.MacRecordsTheXReadFirst
  intro s m acc x y i j wb
  refine ⟨fun o ho hz hi h => exec_mac_readTraps ?_, fun o ho hx hz hr hi h => exec_mac_readTraps ?_⟩
  · rw [ho, trapOf_prefetch_xTraps _ hz hi h, Option.some_or]
  · rw [trapOf_prefetch_xInPlace _ hx, ho, trapOf_prefetch_yTraps _ hz hr hi h, Option.none_or]

end Sys2Proof.Machine
end

section
/-! Accesses whose address or step the spec does not fix: what address generation gives for them, each said once,
and the statements about hazards and about both selections put together from that. -/

namespace Sys2Proof.Machine

/-! ### Steps without a result -/

/-- Outside the contract the buffer's correction gives nothing (R173). -/
theorem modAdj_eq_none {srt fin p : Word} {d : Int} (h : ∀ q, ¬ moduloStep srt fin p d q) :
    modAdj srt fin p d = none :=
  Option.eq_none_iff_forall_ne_some.2 fun q hq => h q (moduloStep_of_modAdj hq)

/-- A modulo pointer whose step is outside the contract has no next address, where bit-reversed addressing does
not take the access. -/
theorem adjust_xNoStep {s : State} {path : Path} {n : Reg} {d : Int} {size : Size} {mode : Mode}
    (hp : path ≠ .y) (hb : bitReverses s path n size mode = false) (h : xNoStep s n d) :
    adjust s path n (s.w n) d size mode = none := by
  obtain ⟨hx, hno⟩ := h
  have notY : ¬ (path = .y ∧ yReserved s = true) := fun hy => hp hy.1
  simp only [adjust, hb, Bool.false_eq_true, if_false, notY, moduloBuffer_x s hp, hx, if_true]
  rw [modAdj_eq_none hno, ite_self]

theorem adjust_yNoStep {s : State} {n : Reg} {d : Int} {size : Size} {mode : Mode}
    (hr : yReserved s = false) (h : yNoStep s n d) : adjust s .y n (s.w n) d size mode = none := by
  obtain ⟨hy, hno⟩ := h
  simp [adjust, hr, moduloBuffer_y, hy, modAdj_eq_none hno]

/-- A write that both selections claim has no next address but at no offset (R200). -/
theorem adjust_bothSelected {s : State} {n : Reg} {d : Int} {size : Size} {mode : Mode} (p : Word)
    (hx : xModActive s n = true) (hbr : bitRevActive s n = true)
    (hb : bitReverses s .xw n size mode = false) (hd : d ≠ 0) : adjust s .xw n p d size mode = none := by
  simp [adjust, hb, hx, hbr, hd]

/-- A modifier that `listedXb` accepts is a listed one (R197). -/
theorem listedModifier_of_listedXb {s : State} (h : listedXb s.xb = true) : listedModifier s := by
  obtain ⟨j, hj, hxb⟩ := List.any_eq_true.1 h
  refine ⟨j, List.mem_range.1 hj, BitVec.eq_of_toNat_eq ?_⟩
  have e : s.xb.toNat = 2 ^ j := by simpa using hxb
  have := s.xb.isLt
  rw [BitVec.toNat_ofNat, ← e, Nat.mod_eq_of_lt this]

/-- A bit-reversed write with an unlisted modifier has no next address (R197). -/
theorem adjust_unlisted {s : State} {n : Reg} {d : Int} {mode : Mode} (p : Word)
    (hb : bitReverses s .xw n .word mode = true) (h : ¬ listedModifier s) :
    adjust s .xw n p d .word mode = none := by
  have unlisted : listedXb s.xb = false := Bool.eq_false_iff.2 fun hl => h (listedModifier_of_listedXb hl)
  simp [adjust, hb, unlisted]

/-! ### Address generation where a step has no result -/

/-- A pointer mode whose address is in place but whose step has no result (R141, R173). -/
theorem eaGen_ptr_noStep {s : State} {path : Path} {n : Reg} {size : Size} {m : PtrMode}
    (ho : outsideBuffer s path n size (.ptr m) = false)
    (h : adjust s path n (s.w n) (m.delta size.bytes) size (.ptr m) = none) :
    eaGen s path (.ptr m) n size false = ⟨openStepEa m s path n, openUpd m s path⟩ := by
  cases m <;> simp only [PtrMode.delta] at h <;> simp [eaGen, ho, h, openStepEa, openUpd, openEa]

/-- An indexed mode whose sum has no result, or whose address is open. -/
theorem eaGen_regOff_open {s : State} {path : Path} {n b : Reg} {size : Size} {o : Bool}
    (h : (o || outsideBuffer s path n size (.regOff b)) = true ∨
      adjust s path n (s.w n) (s.w b).toInt size (.regOff b) = none) :
    eaGen s path (.regOff b) n size o = ⟨openEa s path, none⟩ := by
  rcases h with h | h
  · exact eaGen_open h
  · simp [eaGen, h, openEa]

/-- The same with a literal offset. -/
theorem eaGen_litOff_open {s : State} {path : Path} {n : Reg} {k : Int} {size : Size} {o : Bool}
    (h : (o || outsideBuffer s path n size (.litOff k)) = true ∨
      adjust s path n (s.w n) k size (.litOff k) = none) :
    eaGen s path (.litOff k) n size o = ⟨openEa s path, none⟩ := by
  rcases h with h | h
  · exact eaGen_open h
  · simp [eaGen, h, openEa]

/-! ### Reads (R258 d, R173, R174) -/

/-- The address generation of a read through a pointer whose address or step the spec does not fix. -/
theorem eaGen_freeRead {s : State} {size : Size} {m : PtrMode} {n : Reg} {ptrs : List Reg} {ea : Word}
    (h : freeRead s size m n ptrs ea) :
    eaGen s .xr (.ptr m) n size (hazardHits s ptrs) = ⟨ea, openUpd m s .xr⟩ := by
  rcases h with ⟨hopen, rfl⟩ | ⟨hz, hi, hno, rfl⟩
  · exact eaGen_open (isOpen_of_xReadOpen hopen size _)
  · rw [hz]
    exact eaGen_ptr_noStep (outsideBuffer_xInside hi size _)
      (adjust_xNoStep (by simp) (bitReverses_xr s n size _) hno)

theorem eaGen_freeIndexedRead {s : State} {n b : Reg} (h : freeIndexedRead s n b) (size : Size) :
    eaGen s .xr (.regOff b) n size (hazardHits s [n, b]) = ⟨openEa s .xr, none⟩ := by
  rcases h with hopen | ⟨hb, hn⟩ | hno
  · exact eaGen_regOff_open (.inl (isOpen_of_xReadOpen hopen size _))
  · exact eaGen_index hb hn size _
  · exact eaGen_regOff_open (.inr (adjust_xNoStep (by simp) (bitReverses_xr s n size _) hno))

theorem eaGen_freeOffsetRead {s : State} {p : Reg} {k : Int}
    (h : xReadOpen s p [p] ∨ xNoStep s p k) (size : Size) :
    eaGen s .xr (.litOff k) p size (hazardHits s [p]) = ⟨openEa s .xr, none⟩ := by
  rcases h with hopen | hno
  · exact eaGen_litOff_open (.inl (isOpen_of_xReadOpen hopen size _))
  · exact eaGen_litOff_open (.inr (adjust_xNoStep (by simp) (bitReverses_xr s p size _) hno))

/-- Post-modification whose address or step the spec does not fix: the pointer ends free. -/
theorem eaGen_postMod_noStep {s : State} {path : Path} {n : Reg} {d : Int}
    (ho : outsideBuffer s path n .word (.postMod d) = false)
    (h : adjust s path n (s.w n) d .word (.postMod d) = none) :
    eaGen s path (.postMod d) n .word false = ⟨s.w n, some (Config.freeWord (.ptr path) s.draws)⟩ := by
  simp [eaGen, ho, h]

theorem prefetchGen_freeX {s : State} {o : PrefetchOp} {ea : Word} (h : freeXPrefetch s o ea) :
    prefetchGen s .xr o = ⟨ea, some (Config.freeWord (.ptr .xr) s.draws)⟩ := by
  have given : (hazardHits s [o.pointer .xr] || (Path.xr == .y && yReserved s)) =
      hazardHits s [o.pointer .xr] := Bool.or_false _
  rw [prefetchGen, given]
  rcases h with ⟨hopen, rfl⟩ | ⟨hz, hi, hno, rfl⟩
  · exact eaGen_open (isOpen_of_xReadOpen hopen .word _)
  · rw [hz]
    exact eaGen_postMod_noStep (outsideBuffer_xInside hi .word _)
      (adjust_xNoStep (by simp) (bitReverses_xr _ _ _ _) hno)

theorem prefetchGen_freeY {s : State} {o : PrefetchOp} {ea : Word} (h : freeYPrefetch s o ea) :
    prefetchGen s .y o = ⟨ea, some (Config.freeWord (.ptr .y) s.draws)⟩ := by
  have given : (hazardHits s [o.pointer .y] || (Path.y == .y && yReserved s)) =
      (hazardHits s [o.pointer .y] || yReserved s) := rfl
  rw [prefetchGen, given]
  rcases h with ⟨hopen, rfl⟩ | ⟨hz, hr, hi, hno, rfl⟩
  · refine eaGen_open ?_
    rcases hopen with hz | hr | ⟨hy, hout⟩
    · simp [hz]
    · simp [hr]
    · simp [outsideBuffer_y hy hout]
  · rw [hz, hr]
    exact eaGen_postMod_noStep (outsideBuffer_yInside hi .word _) (adjust_yNoStep hr hno)

/-! ### The statements with such a read -/

/-- A load of what a generated address delivers: the trap of the read, or the updates committed. -/
theorem finishRegs_of_read {s : State} {size : Size} {ea : Word} {ups : Updates} {d : Reg} {ns : List Reg}
    {target : Word → State}
    (htarget : ∀ v, commit s.closeWindow (ups ++ [(d, regResult s size v)]) = target (regResult s size v)) :
    (andThen (andThen (rdMcu s size ea) fun r => .next ⟨r.v, readError ea r.trap, ups⟩) fun f =>
      finishRegs s.closeWindow f [(d, regResult s size f.v)] ns) =
      andThen (rdMcu s size ea) fun r =>
        if r.trap then .next (raiseAddressError s.closeWindow ⟨ea, .read⟩ ns)
        else .next (target (regResult s size r.v)) := by
  cases rdMcu s size ea with
  | next r => cases hr : r.trap <;> simp [finishRegs, readError, hr, htarget]
  | fault r => rfl
  | refused r => rfl

/-- Writing a register's own content changes nothing. -/
theorem setW_w_self (s : State) (n : Reg) : s.setW n (s.w n) = s := by simp [State.setW, State.w]

/-- The updates of a load through a pointer that the spec leaves open. -/
theorem commit_openUpd {s : State} {m : PtrMode} {n d : Reg} (ea v : Word) (h : n ≠ d ∨ m = .ind) :
    commit s.closeWindow ((Gen.mk ea (openUpd m s .xr)).ups n ++ [(d, v)]) =
      (s.closeWindow.setW n ((openUpd m s .xr).getD (s.w n))).setW d v := by
  have kept : s.closeWindow.setW n (s.w n) = s.closeWindow := setW_w_self s.closeWindow n
  rcases h with h | rfl
  · cases m with
    | ind => simp [openUpd, kept]
    | postDec => exact commit_two _ n d _ v h
    | postInc => exact commit_two _ n d _ v h
    | preDec => exact commit_two _ n d _ v h
    | preInc => exact commit_two _ n d _ v h
  · simp [openUpd, kept]

/-- The updates of such a load into its own modified pointer. -/
theorem commit_openUpd_self {s : State} {m : PtrMode} (hm : m ≠ .ind) (n : Reg) (ea v : Word) :
    commit s.closeWindow ((Gen.mk ea (openUpd m s .xr)).ups n ++ [(n, v)]) =
      s.closeWindow.setW n (Config.freeWord (.twice n) s.draws) := by
  cases m with
  | ind => exact absurd rfl hm
  | postDec => exact commit_twice _ n _ v
  | postInc => exact commit_twice _ n _ v
  | preDec => exact commit_twice _ n _ v
  | preInc => exact commit_twice _ n _ v

/-- The read phase of a source operand whose address the spec leaves open. -/
theorem fetchSource_freeRead {s : State} {size : Size} {m : PtrMode} {n : Reg} {ea : Word}
    (h : freeRead s size m n [n] ea) :
    fetchSource s size (.ptr m n) false = fetchMcu s size n ⟨ea, openUpd m s .xr⟩ := by
  simp only [fetchSource, Operand.regs, Bool.false_or, eaGen_freeRead h]

theorem fetchSource_freeIndexedRead {s : State} {n b : Reg} (h : freeIndexedRead s n b) (size : Size) :
    fetchSource s size (.idx n b) false = fetchMcu s size n ⟨openEa s .xr, none⟩ := by
  simp only [fetchSource, Operand.regs, Bool.false_or, eaGen_freeIndexedRead h]

/-- A move to a register from a source whose read phase is known. -/
theorem exec_mov_reg_of_fetch {s : State} {size : Size} {src : Operand} {n d : Reg} {g : Gen}
    {target : Word → State} (hf : fetchSource s size src false = fetchMcu s size n g)
    (htarget : ∀ v, commit s.closeWindow (g.ups n ++ [(d, v)]) = target v) :
    exec (.mov size src (.reg d)) s = andThen (rdMcu s size g.ea) fun r =>
      if r.trap then .next (raiseAddressError s.closeWindow ⟨g.ea, .read⟩ (src.regs ++ [d]))
      else .next (target (regResult s size r.v)) := by
  simp only [exec, execMov, shares_of_reg, hf, fetchMcu]
  exact finishRegs_of_read fun v => htarget _

/-- A move to memory from a source whose read phase is known, neither operand sharing a register. -/
theorem exec_mov_ptr_of_fetch {s : State} {size : Size} {src : Operand} {m : PtrMode} {d : Reg}
    {p : Part Fetched} (hs : src.shares (.ptr m d) = false) (hs' : (Operand.ptr m d).shares src = false)
    (hf : fetchSource s size src false = p) :
    exec (.mov size src (.ptr m d)) s =
      finishStore s.closeWindow size (eaGen s .xw (.ptr m) d size false).ea p
        ((eaGen s .xw (.ptr m) d size false).ups d) (src.regs ++ [d]) := by
  simp only [exec, execMov, hs, hs', hf, Operand.regs]

theorem exec_mov_idx_of_fetch {s : State} {size : Size} {src : Operand} {d b : Reg} {p : Part Fetched}
    (hs' : (Operand.idx d b).shares src = false) (hf : fetchSource s size src false = p) :
    exec (.mov size src (.idx d b)) s =
      finishStore s.closeWindow size (eaGen s .xw (.regOff b) d size false).ea p [] (src.regs ++ [d, b]) := by
  simp only [exec, execMov, shares_of_idx, hs', hf, Operand.regs]
  rfl

/-- A prefetch whose generated address and pointer are known. -/
theorem prefetch_of_gen {s : State} {path : Path} {o : PrefetchOp} {ea q : Word}
    (h : prefetchGen s path o = ⟨ea, some q⟩) (dest : Reg) :
    prefetch s path (some o) dest = andThen (rdDsp s path ea) fun r =>
      .next ⟨r.v, readError ea r.trap, [(dest, r.v), (o.pointer path, q)]⟩ := by
  simp only [prefetch, h, gen_ups_some]

/-- Two pointers that are different, or neither of them modified, share nothing. -/
theorem shares_pointers {n d : Reg} {m m' : PtrMode} (h : n ≠ d ∨ (m = .ind ∧ m' = .ind)) :
    (Operand.ptr m n).shares (.ptr m' d) = false ∧ (Operand.ptr m' d).shares (.ptr m n) = false := by
  rcases h with h | ⟨rfl, rfl⟩
  · exact ⟨shares_ptr n d m m' h, shares_ptr d n m' m h.symm⟩
  · exact ⟨rfl, rfl⟩

/-- Settles O30: in each form the address generation of the read is the open one, and the rest of the statement
is as without it. -/
theorem readInTheHazardUsesAFreeAddress : Obligations.ReadInTheHazardUsesAFreeAddress := by
  unfold Obligations.ReadInTheHazardUsesAFreeAddress
  intro s free
  refine ⟨?load, ?loadSelf, ?loadIndexed, ?loadOffset, ?pointers, ?pointerToIndexed, ?indexedToPointer,
    ?indexedToIndexed, ?pop, ?mac⟩
  case load =>
    intro size m n d ea hn h
    exact exec_mov_reg_of_fetch (fetchSource_freeRead h) fun v => commit_openUpd ea v hn
  case loadSelf =>
    intro size m n ea hm h
    exact exec_mov_reg_of_fetch (fetchSource_freeRead h) fun v => commit_openUpd_self hm n ea v
  case loadIndexed =>
    intro size n b d h
    exact exec_mov_reg_of_fetch (fetchSource_freeIndexedRead h size) fun v => commit_one _ d v
  case loadOffset =>
    intro size p d k h
    simp only [exec, execMovLoadOff, eaGen_freeOffsetRead h size, fetchMcu, gen_ups_none]
    exact finishRegs_of_read (target := s.closeWindow.setW d) fun v => commit_one _ d _
  case pointers =>
    intro size m m' n d ea hn h
    obtain ⟨hs, hs'⟩ := shares_pointers hn
    exact exec_mov_ptr_of_fetch hs hs' (fetchSource_freeRead h)
  case pointerToIndexed =>
    intro size m n d b ea hn h
    exact exec_mov_idx_of_fetch (shares_of_notMem_or_ind hn) (fetchSource_freeRead h)
  case indexedToPointer =>
    intro size m n b d hd h
    exact exec_mov_ptr_of_fetch (shares_of_notMem_or_ind hd) (shares_of_idx _ _ _)
      (fetchSource_freeIndexedRead h size)
  case indexedToIndexed =>
    intro size n b d b' h
    exact exec_mov_idx_of_fetch (shares_of_idx _ _ _) (fetchSource_freeIndexedRead h size)
  case pop =>
    intro f ea h
    simp only [exec, execPop, eaGen_freeRead h]
  case mac =>
    intro m acc x y i j wb ea
    refine ⟨fun o ho h => ?_, fun o ho h => ?_⟩
    · simp only [exec, execMac, ho, prefetch_of_gen (prefetchGen_freeX h), rdDsp]
    · simp only [exec, execMac, ho, prefetch_of_gen (prefetchGen_freeY h), rdDsp]

/-! ### Writes (R173, R174, R197, R200) -/

/-- The steps of the pointer modes but `[Wn]` are no zero offset. -/
theorem delta_ne_zero {m : PtrMode} (h : m ≠ .ind) (size : Size) : m.delta size.bytes ≠ 0 := by
  cases m <;> cases size <;> simp [PtrMode.delta, Size.bytes] at h ⊢

/-- Bit-reversed addressing takes neither a byte nor a mode other than the two incrementing ones. -/
theorem bitReverses_ptr_not_taken {s : State} {n : Reg} {size : Size} {m : PtrMode}
    (h : bitRevActive s n = false ∨ size = .byte ∨ (m ≠ .postInc ∧ m ≠ .preInc)) (path : Path) :
    bitReverses s path n size (.ptr m) = false := by
  rcases h with h | rfl | ⟨h, h'⟩
  · exact bitReverses_of_inactive h path size _
  · exact bitReverses_byte s path n _
  · refine bitReverses_of_mode ?_ s path n size
    cases m with
    | ind | postDec | preDec => rfl
    | postInc => exact absurd rfl h
    | preInc => exact absurd rfl h'

/-- A write that bit-reversed addressing does not take is outside its buffer exactly when a read is. -/
theorem outsideBuffer_xw {s : State} {n : Reg} {size : Size} {mode : Mode}
    (hb : bitReverses s .xw n size mode = false) :
    outsideBuffer s .xw n size mode = outsideBuffer s .xr n size mode := by
  simp only [outsideBuffer, hb, bitReverses_xr, moduloBuffer]

/-- A pointer inside its buffer is not outside it on the `XW` path either, reversed or not. -/
theorem outsideBuffer_xwInside {s : State} {n : Reg} (h : xPointerInside s n) (size : Size) (mode : Mode) :
    outsideBuffer s .xw n size mode = false := by
  cases hb : bitReverses s .xw n size mode with
  | true => exact outsideBuffer_bitReverses hb
  | false => rw [outsideBuffer_xw hb]; exact outsideBuffer_xInside h size mode

/-- A write through a modulo pointer outside its buffer that bit-reversed addressing does not take is open
(R174). -/
theorem isOpen_xwOutside {s : State} {n : Reg} {size : Size} {mode : Mode}
    (hx : xModActive s n = true) (hout : ¬ xPointerInside s n)
    (hb : bitReverses s .xw n size mode = false) : (false || outsideBuffer s .xw n size mode) = true := by
  rw [Bool.false_or, outsideBuffer_xw hb]
  exact outsideBuffer_x hx hout size mode

/-- The incrementing modes are taken where the pointer is selected (R192). -/
theorem bitReverses_incrementing {s : State} {n : Reg} {m : PtrMode} (hbr : bitRevActive s n = true)
    (hm : m = .postInc ∨ m = .preInc) : bitReverses s .xw n .word (.ptr m) = true :=
  (bitReverses_iff s .xw n .word (.ptr m)).2 ⟨rfl, hbr, rfl, hm.imp (congrArg _) (congrArg _)⟩

/-- Both selections on one register, with a listed modifier: reads are corrected in the X buffer, incrementing
word writes reversed (R198, R199). -/
theorem eaGen_bothSelected {s : State} {n : Reg} (hx : xModActive s n = true)
    (hbr : bitRevActive s n = true) (hl : listedModifier s) :
    (∀ (m : PtrMode) (size : Size) (q : Word),
      modAdj s.xmodsrt s.xmodend (s.w n) (m.delta size.bytes) = some q →
        eaGen s .xr (.ptr m) n size false = ⟨m.usedEa (s.w n) q, if m = .ind then none else some q⟩) ∧
    ∀ m : PtrMode, m = .postInc ∨ m = .preInc →
      eaGen s .xw (.ptr m) n .word false =
        ⟨m.usedEa (s.w n) (revAdd (s.w n) s.xb), some (revAdd (s.w n) s.xb)⟩ := by
  refine ⟨fun m size q hq => ?_, fun m hm => ?_⟩
  · exact (eaGen_xPointer (by simp) (xPointer_modulo hx (.inl rfl) (moduloStep_of_modAdj hq))).1
  · have notInd : m ≠ .ind := by rcases hm with rfl | rfl <;> nofun
    have gen := (eaGen_xPointer (by simp) (xPointer_reversed hbr hl hm)).1
    rwa [if_neg notInd] at gen

/-- Settles O26: each open write is a step without a result or an address outside the buffer; each move is the
store, or the trap, at the address its meaning generates. -/
theorem bitReversalTakesPrecedenceForWrites : Obligations.BitReversalTakesPrecedenceForWrites := by
  unfold Obligations.BitReversalTakesPrecedenceForWrites
  refine ⟨?fixed, ?unlisted, ?bothSelected, ?outside, ?noStep, ?indexAlone, ?moves, ?offsetStore, ?moveTraps,
    ?offsetTraps⟩
  case fixed =>
    intro s n j hx hbr hj hxb
    exact eaGen_bothSelected hx hbr ⟨j, hj, hxb⟩
  case unlisted =>
    intro s n m hbr hl hm
    have taken := bitReverses_incrementing hbr hm
    exact eaGen_ptr_noStep (outsideBuffer_bitReverses taken) (adjust_unlisted _ taken hl)
  case bothSelected =>
    intro s n hx hbr hi
    refine ⟨fun m size hm => ?_, fun b size hb => ?_, fun k size hk => ?_⟩
    · obtain ⟨notInd, notTaken⟩ : m ≠ .ind ∧
          (bitRevActive s n = false ∨ size = .byte ∨ (m ≠ .postInc ∧ m ≠ .preInc)) := by
        rcases hm with rfl | rfl | ⟨hbyte, hind⟩
        · exact ⟨nofun, .inr (.inr ⟨nofun, nofun⟩)⟩
        · exact ⟨nofun, .inr (.inr ⟨nofun, nofun⟩)⟩
        · exact ⟨hind, .inr (.inl hbyte)⟩
      exact eaGen_ptr_noStep (outsideBuffer_xwInside hi size _)
        (adjust_bothSelected _ hx hbr (bitReverses_ptr_not_taken notTaken .xw) (delta_ne_zero notInd size))
    · have offset : (s.w b).toInt ≠ 0 := fun h => hb (BitVec.eq_of_toInt_eq h)
      exact eaGen_regOff_open (.inr (adjust_bothSelected _ hx hbr (bitReverses_of_mode rfl _ _ _ _) offset))
    · exact eaGen_litOff_open (.inr (adjust_bothSelected _ hx hbr (bitReverses_of_mode rfl _ _ _ _) hk))
  case outside =>
    intro s n hx hout
    refine ⟨fun m size hm => ?_, fun b size => ?_, fun k size => ?_⟩
    · exact eaGen_open (isOpen_xwOutside hx hout (bitReverses_ptr_not_taken hm .xw))
    · exact eaGen_open (isOpen_xwOutside hx hout (bitReverses_of_mode rfl _ _ _ _))
    · exact eaGen_open (isOpen_xwOutside hx hout (bitReverses_of_mode rfl _ _ _ _))
  case noStep =>
    intro s n hi
    refine ⟨fun m size hm hno => ?_, fun b size hno => ?_, fun k size hno => ?_⟩
    · have notTaken : bitReverses s .xw n size (.ptr m) = false := bitReverses_ptr_not_taken
        (hm.imp id fun h => .inr (h ▸ ⟨nofun, nofun⟩)) .xw
      exact eaGen_ptr_noStep (outsideBuffer_xwInside hi size _) (adjust_xNoStep (by simp) notTaken hno)
    · exact eaGen_regOff_open (.inr (adjust_xNoStep (by simp) (bitReverses_of_mode rfl _ _ _ _) hno))
    · exact eaGen_litOff_open (.inr (adjust_xNoStep (by simp) (bitReverses_of_mode rfl _ _ _ _) hno))
  case indexAlone =>
    intro s n b size hb hn
    exact eaGen_index hb hn size false
  case moves =>
    intro s t size src v us hsrc
    exact ⟨fun m n hs hs' hw => exec_mov_ptr hsrc hs hs' hw, fun n b hs' hw => exec_mov_idx hsrc hs' hw⟩
  case offsetStore =>
    intro s t size r n k hw
    exact exec_store_generatedOffset hw
  case moveTraps =>
    intro s size src dst v ea us hsrc hs hs' htarget h
    refine exec_mov_writeTraps htarget ?_ h
    obtain ⟨u, -, -, hf⟩ := fetchSource_sourceStep hsrc
    rw [hs, hf, trapOf]
  case offsetTraps =>
    intro s size r n k ea htarget h
    exact exec_movStoreOff_writeTraps htarget h

end Sys2Proof.Machine
end
